-- ==== Sys2Proof/Word.lean ====
section
/-! DEFINITION. The machine's words: a 32-bit register or command word (R8, R22), an 8-bit colour-table index or buffer
byte (R8), and the little arithmetic on them that fixes nothing of the hardware. -/
namespace Sys2Proof

/-- A 32-bit register value, command word or port address (R8). -/
abbrev Word := BitVec 32

/-- A byte of IBUF, an index of OBUF (R8). -/
abbrev Byte := BitVec 8

/-- An LZW code: at most 12 bits (R7, R32, R33). -/
abbrev Code := BitVec 12

end Sys2Proof
end

