-- ==== Sys2Proof/Syntax.lean ====
section
/-! DEFINITION. The ten commands of the GIF LZW CORE command set, revision 1 (R66): one constructor per row of
spec/opcode_table.json. The only operand a command word carries is ARG, eight bits (R64, R65); it is kept at its full
width, because a word whose ARG is out of range is still that command (R66) and raises BAD_PARAMETER (R68). DEDUCED, log 22. -/
namespace Sys2Proof

inductive Instr where
  /-- NOP, OP 0x00 (R105). -/
  | nop
  /-- BR_REWIND, OP 0x01 (R75). -/
  | brRewind
  /-- BR_READBIT, OP 0x02 (R76). -/
  | brReadbit
  /-- BR_READBITS n, OP 0x03, ARG = n (R77). -/
  | brReadbits (n : BitVec 8)
  /-- LZW_INIT m, OP 0x10, ARG = m (R81). -/
  | lzwInit (m : BitVec 8)
  /-- LZW_STEP, OP 0x11 (R84). -/
  | lzwStep
  /-- LZW_RUN, OP 0x12 (R94). -/
  | lzwRun
  /-- IL_ROW, OP 0x20 (R101). -/
  | ilRow
  /-- IL_ELEM, OP 0x21 (R102). -/
  | ilElem
  /-- CLR_ERR, OP 0x30 (R106). -/
  | clrErr
  deriving DecidableEq, Repr

end Sys2Proof
end

