-- ==== Sys2Proof/WellFormed.lean ====
section
/-! DEFINITION. Which commands are spelled with a legal ARG (R65): BR_READBITS with n in 0..32, LZW_INIT with m in 1..8.
A command that is not well formed is still decoded and executed: it raises BAD_PARAMETER (R68). -/
namespace Sys2Proof

/-- BR_READBITS: ARG is the bit count, legal 0-32 (R65). -/
def legalCount (n : BitVec 8) : Bool := n.toNat ≤ 32

/-- LZW_INIT: ARG is minimumCodeSize, legal 1-8 (R65). -/
def legalCodeSize (m : BitVec 8) : Bool := 1 ≤ m.toNat ∧ m.toNat ≤ 8

/-- ARG is in the range R65 gives for the command. -/
def Instr.wellFormed : Instr → Bool
  | .nop => true
  | .brRewind => true
  | .brReadbit => true
  | .brReadbits n => legalCount n
  | .lzwInit m => legalCodeSize m
  | .lzwStep => true
  | .lzwRun => true
  | .ilRow => true
  | .ilElem => true
  | .clrErr => true

end Sys2Proof
end

