-- ==== Sys2Proof/Decode.lean ====
section
/-! DEFINITION. Command words: the fields of format C (R64), the decoder over the opcode map (R66), total on every word and
on every list of bytes and rejecting by name (R67), and the encoder written from the same map. -/
namespace Sys2Proof

/-- OP = w[7:0] (R64). -/
def wordOp (w : Word) : BitVec 8 := w.extractLsb' 0 8

/-- ARG = w[15:8] (R64). -/
def wordArg (w : Word) : BitVec 8 := w.extractLsb' 8 8

/-- RSV = w[31:16] (R64). -/
def wordRsv (w : Word) : BitVec 16 := w.extractLsb' 16 16

/-- Why a word is no command: the three cases of R67, and fewer than the four bytes a decoder takes (R69). -/
inductive Reject where
  /-- RSV ≠ 0 (R67, case 1). -/
  | reservedBits
  /-- An OP that R66 does not list (R67, case 2). -/
  | reservedOp
  /-- ARG ≠ 0 on a command that takes none (R67, case 3). -/
  | unexpectedArg
  /-- Not the four bytes of a command word (R69). -/
  | shortWord
  deriving DecidableEq, Repr

/-- A command that takes no ARG: ARG must be 0 (R65). -/
def withoutArg (arg : BitVec 8) (i : Instr) : Except Reject Instr :=
  if arg = 0#8 then .ok i else .error .unexpectedArg

/-- The opcode map of R66, for a word whose RSV is 0. -/
def decodeOp (op arg : BitVec 8) : Except Reject Instr :=
  if op = 0x00#8 then withoutArg arg .nop
  else if op = 0x01#8 then withoutArg arg .brRewind
  else if op = 0x02#8 then withoutArg arg .brReadbit
  else if op = 0x03#8 then .ok (.brReadbits arg)
  else if op = 0x10#8 then .ok (.lzwInit arg)
  else if op = 0x11#8 then withoutArg arg .lzwStep
  else if op = 0x12#8 then withoutArg arg .lzwRun
  else if op = 0x20#8 then withoutArg arg .ilRow
  else if op = 0x21#8 then withoutArg arg .ilElem
  else if op = 0x30#8 then withoutArg arg .clrErr
  else .error .reservedOp

/-- The command a word encodes, or why it is illegal, in the order of R68: RSV, then OP, then ARG. -/
def decode (w : Word) : Except Reject Instr :=
  if wordRsv w = 0#16 then decodeOp (wordOp w) (wordArg w) else .error .reservedBits

/-- A word from its four bytes, the byte on data bits 7..0 first (little-endian lanes, R50). -/
def wordOfBytes (b0 b1 b2 b3 : Byte) : Word := b3 ++ b2 ++ b1 ++ b0

/-- The decoder on bytes: a command word is always four bytes (R69). -/
def decodeBytes : List Byte → Except Reject (Instr × List Byte)
  | b0 :: b1 :: b2 :: b3 :: rest => (decode (wordOfBytes b0 b1 b2 b3)).map fun i => (i, rest)
  | _ => .error .shortWord

/-- The OP of each command (R66). -/
def opcode : Instr → BitVec 8
  | .nop => 0x00#8
  | .brRewind => 0x01#8
  | .brReadbit => 0x02#8
  | .brReadbits _ => 0x03#8
  | .lzwInit _ => 0x10#8
  | .lzwStep => 0x11#8
  | .lzwRun => 0x12#8
  | .ilRow => 0x20#8
  | .ilElem => 0x21#8
  | .clrErr => 0x30#8

/-- The ARG of each command: 0 for a command that takes none (R64). -/
def argument : Instr → BitVec 8
  | .brReadbits n => n
  | .lzwInit m => m
  | .nop | .brRewind | .brReadbit | .lzwStep | .lzwRun | .ilRow | .ilElem | .clrErr => 0#8

/-- The word of a command: RSV = 0, then ARG, then OP (R64). -/
def encode (i : Instr) : Word := 0#16 ++ argument i ++ opcode i

/-- The four bytes of a word, the byte on data bits 7..0 first (R50). -/
def bytesOfWord (w : Word) : List Byte :=
  [w.extractLsb' 0 8, w.extractLsb' 8 8, w.extractLsb' 16 8, w.extractLsb' 24 8]

/-- The instruction the decoder reads from an instruction whose bits are `w`, numbered as the opcode table numbers them
(every row has 32 bits; every bit above `nbits` is 0). -/
def decodeTableWord (nbits w : Nat) : Option Instr :=
  match decodeBytes (bytesOfWord (BitVec.ofNat 32 (w % 2 ^ nbits))) with
  | .ok (i, _) => some i
  | .error _ => none

end Sys2Proof
end

