-- ==== Sys2Proof/Config.lean ====
section
/-! DEFINITION. What one implementation fixes (the two open parameters of R9) and the values the spec leaves open
(93_implementation_defined.md U1-U4). Every one is an opaque constant: no proof can see its value. -/
namespace Sys2Proof.Config

/-- IBUF_CAP less one. 24 bits, so that IBUF_CAP ranges over exactly 1 to 2^24 (R9, P1). -/
opaque ibufCapLessOne : BitVec 24

/-- OBUF_CAP less one, as `ibufCapLessOne` (R9, P2). -/
opaque obufCapLessOne : BitVec 24

/-- IBUF_CAP, the capacity of the input byte buffer the hardware was built with (R9, D7): 1 to 2^24. -/
def ibufCap : BitVec 25 := ibufCapLessOne.setWidth 25 + 1#25

/-- OBUF_CAP, the capacity of the output index buffer (R9, D8): 1 to 2^24. -/
def obufCap : BitVec 25 := obufCapLessOne.setWidth 25 + 1#25

/-- FREE VALUE (U3, D27): the byte of IBUF at an offset the host has not written since the reset with this number.
`ibufByte resets offset`: one value per reset and offset, so it stays the same until the host writes the byte. DEDUCED, log 3. -/
opaque ibufByte : Nat → Nat → Byte

/-- FREE VALUE (U2, U4, U6, D27): the byte a read returns for an OBUF index at or beyond OUT_LEN.
`obufByte draw index`: a fresh value at every read. DEDUCED, log 4. -/
opaque obufByte : Nat → Nat → Byte

/-- FREE VALUE (U1, R24): bits 31..1 of a STATUS read served while BUSY = 1. `statusBits draw`: fresh at every read. DEDUCED, log 5. -/
opaque statusBits : Nat → BitVec 31

end Sys2Proof.Config
end

