-- ==== Sys2Proof/Machine/State.lean ====
section
/-! DEFINITION. The whole state of the block (R19), what stands at its inputs (D2, R57, R58, R124), why a step can stop, and
the state after reset (R125). Plain data throughout. -/
namespace Sys2Proof.Machine

/-- STATUS.PHASE, the LZW unit's control state (R25). The values 5, 6 and 7 are never produced (F7), so they have no constructor.
DEDUCED, log 17. -/
inductive Phase where
  | idle | literal | normal | done | failed
  deriving DecidableEq, Repr

/-- STATUS.ERRCODE (R107). The codes 8 to 15 are never produced (F7), so they have no constructor. DEDUCED, log 17. -/
inductive ErrCode where
  | none | outOfData | corruptStream | illegalCommand | badParameter | sequenceError | outputOverflow | rangeError
  deriving DecidableEq, Repr

/-- What a dictionary code expands to: a NON-EMPTY sequence of colour-table indices (R41), its first element and the rest. -/
structure Expansion where
  first : Byte
  rest : List Byte
  deriving DecidableEq, Repr

/-- The size of a port access: 8, 16 or 32 bits (D2). -/
inductive Size where
  | byte | half | word
  deriving DecidableEq, Repr

/-- One access of the host to the port (D2, R13). A write carries the 32 data lines and one byte strobe for each lane. -/
inductive Access where
  | read (addr : Word) (size : Size)
  | write (addr : Word) (size : Size) (data : Word) (strobes : BitVec 4)
  deriving DecidableEq, Repr

/-- What the port answers: OK or ERROR, and the data of a read (0 for an ERROR, R52; 0 for a write, which has none). -/
structure Response where
  error : Bool
  data : Word
  deriving DecidableEq, Repr

/-- What happens at the block's inputs, in the order it happens. DESIGN CHOICE, log 1. -/
inductive Input where
  /-- The host starts this access. -/
  | access (a : Access)
  /-- The host starts nothing until the block is quiet: the running command is complete and no access is stalled. -/
  | idle
  /-- The reset input is driven to this level (true: asserted, R124). -/
  | reset (asserted : Bool)
  deriving DecidableEq, Repr

/-- The MODEL's own fields: what stands at the block's connections, and the counters its free values are drawn with. -/
structure Env where
  /-- The level of the reset input (R124). -/
  resetIn : Bool
  /-- What is still to happen at the inputs, first to last. -/
  inputs : List Input
  /-- Accesses that arrived and are stalled, in arrival order (R57, R124). -/
  stalled : List Access
  /-- The answer to the access served last. -/
  response : Option Response
  /-- How many times reset has been asserted: selects the unspecified contents of IBUF (U3). -/
  resets : Nat
  /-- How many reads drew an unspecified value: makes each of them fresh (U1, U2). -/
  draws : Nat
  deriving DecidableEq, Repr

/-- The state of the block: the record of R19, its two capacities (R9), and the model's own `env`. -/
structure State where
  /-- IBUF_CAP as this hardware was built (R9), read back by IBUF_CAP_REG (R39). Nothing writes it. DESIGN CHOICE, log 2. -/
  ibufCap : BitVec 25
  /-- OBUF_CAP as this hardware was built (R9), read back by OBUF_CAP_REG (R40). Nothing writes it. DESIGN CHOICE, log 2. -/
  obufCap : BitVec 25
  /-- IBUF: the bytes the host has written since reset, by offset, in canonical form (R19, U3). -/
  ibuf : List Host.Cell
  /-- OBUF: the entries the LZW unit has written since reset, by index, in canonical form (R19, R82). -/
  obuf : List Host.Cell
  /-- DICT: the codes that have an entry, with it, in canonical form (R41). A code not listed has none. -/
  dict : List (Nat × Expansion)
  /-- The command that runs, as its word. STATUS.BUSY is 1 exactly while there is one (R24, R57). -/
  running : Option Word
  /-- STATUS.ERR (R26). -/
  err : Bool
  /-- STATUS.ERRCODE (R26, R107). -/
  errcode : ErrCode
  /-- STATUS.PHASE (R25). -/
  phase : Phase
  /-- RESULT (R27). -/
  result : Word
  /-- BUF_LEN: 0 to IBUF_CAP (R28). DEDUCED, log 21 (its width). -/
  bufLen : BitVec 25
  /-- BR_POS, the cursor `p = 8*BYTE_OFF + BIT_OFF` (R29). -/
  brPos : BitVec 28
  /-- LZW_CFG.MIN_CODE_SIZE (R30). -/
  minCodeSize : BitVec 4
  /-- LZW_CFG.CODE_WIDTH (R30). -/
  codeWidth : BitVec 4
  /-- LZW_CFG.CLEAR_CODE (R30). -/
  clearCode : BitVec 9
  /-- LZW_CFG.END_CODE (R30). -/
  endCode : BitVec 9
  /-- DICT_SIZE (R31). -/
  dictSize : Word
  /-- LAST_CODE (R32). -/
  lastCode : Code
  /-- LZW_CODE (R33). -/
  lzwCode : Code
  /-- OUT_LEN (R34). -/
  outLen : BitVec 25
  /-- IL_WIDTH (R35). -/
  ilWidth : BitVec 16
  /-- IL_HEIGHT (R36). -/
  ilHeight : BitVec 16
  /-- IL_CTRL.INTERLACE (R37). -/
  interlace : Bool
  /-- IL_INDEX (R38). -/
  ilIndex : Word
  /-- The model's own fields. -/
  env : Env
  deriving DecidableEq, Repr

/-- Why a step can stop. The spec names no stop: every error of the block is recorded in STATUS and the block goes on (R113).
Both constructors are stuck states that the invariant of R45 rules out (Sys2Proof/Safety.lean, `State.Inv`). DEDUCED, log 16. -/
inductive Fault where
  /-- LZW_STEP, LZW_RUN: a dictionary reference to a code that has no entry. R45 items 5 and 7 say this cannot happen. SAFE. -/
  | missingEntry
  /-- LZW_RUN: more steps than R95 allows (a CODE_WIDTH below 2, which R45 item 2 rules out). SAFE. -/
  | endlessRun
  deriving DecidableEq, Repr

/-- Why an instruction has no meaning. -/
inductive Refusal where
  /-- Raised by `exec` for an instruction not modelled yet; no arm raises it. SAFE. -/
  | notModelled (mnemonic : String)
  deriving DecidableEq, Repr

/-- How one step or one command ends. -/
abbrev Result := Host.Outcome State Fault Refusal

/-- The connections of a block that has just left reset, with nothing to do. DESIGN CHOICE, log 15. -/
def Env.quiet : Env :=
  { resetIn := false, inputs := [], stalled := [], response := none, resets := 0, draws := 0 }

/-- The reset values of R125, for a block of these capacities. IBUF and OBUF are unspecified: no byte is listed, and a byte
that is not listed reads as a free value. DICT is unspecified and unobservable: no code has an entry (DESIGN CHOICE, log 6). -/
def State.resetWith (ibufCap obufCap : BitVec 25) (env : Env) : State where
  ibufCap := ibufCap
  obufCap := obufCap
  ibuf := []
  obuf := []
  dict := []
  running := none
  err := false
  errcode := .none
  phase := .idle
  result := 0#32
  bufLen := 0#25
  brPos := 0#28
  minCodeSize := 0#4
  codeWidth := 0#4
  clearCode := 0#9
  endCode := 0#9
  dictSize := 0#32
  lastCode := 0#12
  lzwCode := 0#12
  outLen := 0#25
  ilWidth := 0#16
  ilHeight := 0#16
  interlace := false
  ilIndex := 0#32
  env := env

/-- The machine right after reset (R125): reset deasserted, idle, with the capacities the hardware was built with. -/
def State.reset : State := State.resetWith Config.ibufCap Config.obufCap Env.quiet

end Sys2Proof.Machine
end

