-- ==== Sys2Proof/Machine/Flags.lean ====
section
/-! DEFINITION. The flags of STATUS (R24, R26): the numbers of the error codes (R107) and of the phases (R25), and how an
error is recorded (R109) and cleared (R106). -/
namespace Sys2Proof.Machine

/-- The number of an error code (R107). -/
def errNumber : ErrCode → BitVec 4
  | .none => 0
  | .outOfData => 1
  | .corruptStream => 2
  | .illegalCommand => 3
  | .badParameter => 4
  | .sequenceError => 5
  | .outputOverflow => 6
  | .rangeError => 7

/-- The number of a phase (R25). -/
def phaseNumber : Phase → BitVec 3
  | .idle => 0
  | .literal => 1
  | .normal => 2
  | .done => 3
  | .failed => 4

/-- A decode is in progress: PHASE is LITERAL or NORMAL (R84). -/
def Phase.decoding : Phase → Bool
  | .literal => true
  | .normal => true
  | .idle => false
  | .done => false
  | .failed => false

/-- STATUS.BUSY: a command runs (R24). -/
def busy (s : State) : Bool := s.running.isSome

/-- Set STATUS.ERR and STATUS.ERRCODE, at the first error only (R109, R26). -/
def recordError (e : ErrCode) (s : State) : State :=
  if s.err then s else { s with err := true, errcode := e }

/-- Clear STATUS.ERR and STATUS.ERRCODE (R106). -/
def clearError (s : State) : State := { s with err := false, errcode := .none }

end Sys2Proof.Machine
end

