-- ==== Sys2Proof/Machine/Ops.lean ====
section
/-! DEFINITION. The operations every command shares: the sparse memories and the dictionary in canonical form, the reads and
writes of IBUF, OBUF and DICT, RAISING AN ERROR (R109, R110: the block's only exception entry) and the return from one
(R114), the test of ERR that precedes every command (R111), and the entry of a command into the block (R57). -/
namespace Sys2Proof.Machine

/-! ### Sparse maps: a list of (key, value) pairs, keys strictly rising -/

/-- The value listed at a key. -/
def sparseGet {α : Type} : List (Nat × α) → Nat → Option α
  | [], _ => none
  | (k, v) :: m, a => if k = a then some v else sparseGet m a

/-- Write the value at a key, keeping the keys rising and each listed once. -/
def sparseSet {α : Type} : List (Nat × α) → Nat → α → List (Nat × α)
  | [], a, v => [(a, v)]
  | (k, w) :: m, a, v =>
    if a < k then (a, v) :: (k, w) :: m
    else if a = k then (a, v) :: m
    else (k, w) :: sparseSet m a v

/-- Every key of the list is above `a`, and the keys rise strictly. -/
def risingAbove {α : Type} : Nat → List (Nat × α) → Bool
  | _, [] => true
  | a, (k, _) :: m => a < k && risingAbove k m

/-- The canonical form: the keys rise strictly. (An unlisted key holds NO value, so no listed entry can equal it.) -/
def rising {α : Type} : List (Nat × α) → Bool
  | [] => true
  | (k, _) :: m => risingAbove k m

/-- The canonical form of a memory. -/
def Memory.wf (m : List Host.Cell) : Bool := rising m

/-- What the memory lists at an address nobody has written since reset: NO value. A read of it draws a free value (U3, U4). -/
def Memory.unlisted : Option Byte := none

/-- The byte the memory holds at an address. -/
def Memory.read (m : List Host.Cell) (a : Nat) : Option Byte :=
  match sparseGet m a with
  | some b => some b
  | none => Memory.unlisted

/-- Store one byte. -/
def Memory.write (m : List Host.Cell) (a : Nat) (b : Byte) : List Host.Cell := sparseSet m a b

/-- Store a run of bytes at rising addresses, first byte first. -/
def Memory.writeAll (m : List Host.Cell) (a : Nat) : List Byte → List Host.Cell
  | [] => m
  | b :: bs => Memory.writeAll (Memory.write m a b) (a + 1) bs

/-! ### The buffers -/

/-- `IBUF[i]` (R13): the byte the host wrote, or this reset's unspecified byte (U3). -/
def ibufByte (s : State) (i : Nat) : Byte :=
  (Memory.read s.ibuf i).getD (Config.ibufByte s.env.resets i)

/-- What a read of `OBUF[j]` returns: the index the current decode emitted, or an unspecified byte at `j >= OUT_LEN` (R54, U2). -/
def obufByte (s : State) (j : Nat) : Byte :=
  if j < s.outLen.toNat then (Memory.read s.obuf j).getD (Config.obufByte s.env.draws j)
  else Config.obufByte s.env.draws j

/-- Store one byte of IBUF: only the host does (R19). -/
def writeIbuf (i : Nat) (b : Byte) (s : State) : State := { s with ibuf := Memory.write s.ibuf i b }

/-! ### The dictionary (R41) -/

/-- `DICT[c]`. -/
def dictEntry (s : State) (c : Nat) : Option Expansion := sparseGet s.dict c

/-- `DICT[c] <- e`. -/
def setEntry (c : Nat) (e : Expansion) (s : State) : State := { s with dict := sparseSet s.dict c e }

/-- The sequence an expansion stands for. -/
def Expansion.indices (e : Expansion) : List Byte := e.first :: e.rest

/-- `e ++ [k]`. -/
def Expansion.append (e : Expansion) (k : Byte) : Expansion := { e with rest := e.rest ++ [k] }

/-- The singleton of a literal code: `DICT[c] = [c]` for `c < CLEAR_CODE` (R41). -/
def Expansion.literal (c : Nat) : Expansion := { first := BitVec.ofNat 8 c, rest := [] }

/-- The literal singletons seeded at initialisation: the entries of the codes `0 .. clear-1` (R80). -/
def literals (clear : Nat) : List (Nat × Expansion) :=
  (List.range clear).map fun c => (c, Expansion.literal c)

/-! ### Register results -/

/-- `RESULT <- v` (R27). -/
def setResult (v : Word) (s : State) : State := { s with result := v }

/-- `BR_POS <- p` (R29). -/
def setCursor (p : Nat) (s : State) : State := { s with brPos := BitVec.ofNat 28 p }

/-- `STATUS.PHASE <- p` (R25). -/
def setPhase (p : Phase) (s : State) : State := { s with phase := p }

/-- `LZW_CODE <- c` (R33). -/
def setLzwCode (c : Code) (s : State) : State := { s with lzwCode := c }

/-- `LAST_CODE <- c` (R32). -/
def setLastCode (c : Code) (s : State) : State := { s with lastCode := c }

/-! ### Raising an error, and the return from one -/

/-- The errors of an LZW step end its decode: PHASE becomes FAILED (R110). -/
inductive RaisedBy where
  /-- A command outside the decode loop, or the checks before it: no side effect. -/
  | command
  /-- The body of a step, after its phase test. -/
  | decodeStep
  deriving DecidableEq, Repr

/-- `raise E` (R109): record the error if it is the first, then apply the side effects R110 lists beyond STATUS.ERR and
STATUS.ERRCODE: PHASE <- FAILED for an error inside an LZW step, none for any other. The state the caller hands over already
holds what R110 says has happened before the error (the cursor past the code, LZW_CODE). -/
def raise (e : ErrCode) (by_ : RaisedBy) (s : State) : State :=
  match by_ with
  | .command => recordError e s
  | .decodeStep => setPhase .failed (recordError e s)

/-- The host's acknowledgement of an error: clears ERR and ERRCODE and restores nothing else (R114, R106). -/
def acknowledgeError (s : State) : State := clearError s

/-- While ERR = 1 a command other than NOP and CLR_ERR is dropped: no state changes, nothing is raised (R111). -/
def unlessErr (s : State) (run : State → Result) : Result :=
  if s.err then .next s else run s

/-- A word that is no command (R67, R68): dropped while ERR = 1 unless its OP is that of NOP or CLR_ERR; else ILLEGAL_COMMAND,
which `raise` ignores while ERR = 1. -/
def illegalCommand (op : BitVec 8) (s : State) : State :=
  if s.err ∧ op ≠ 0x00#8 ∧ op ≠ 0x30#8 then s else raise .illegalCommand .command s

/-! ### Commands entering and leaving the block (R57) -/

/-- A CMD write of `w` starts a command: BUSY <- 1 (R23, R57). A later step runs it: DESIGN CHOICE, log 8. -/
def startCommand (w : Word) (s : State) : State := { s with running := some w }

/-- The running command ends: BUSY <- 0 (R68, R109). -/
def endCommand (s : State) : State := { s with running := none }

end Sys2Proof.Machine
end

