-- ==== Sys2Proof/Machine/Operands.lean ====
section
/-! DEFINITION. Where a command's operands come from: ARG, zero-extended (R65), and the bit stream at the cursor (R13, R74).
No command names a register or a memory address (R65, R46). -/
namespace Sys2Proof.Machine

/-- `arg = zext_32(w[15:8])`, as a number: the bit count of BR_READBITS, the minimumCodeSize of LZW_INIT (R65). -/
def argValue (arg : BitVec 8) : Nat := (arg.setWidth 32).toNat

/-- `BitAt(p)`: bit `p mod 8` of `IBUF[p >> 3]` (R13, R48). -/
def bitAt (s : State) (p : Nat) : Bool := (ibufByte s (p / 8)).getLsbD (p % 8)

/-- The loop of BitRead: the i-th bit read goes to bit `i` of the result (R49, R74). -/
def field (s : State) (p : Nat) : Nat → Word
  | 0 => 0#32
  | i + 1 => field s p i ||| ((BitVec.ofBool (bitAt s (p + i))).setWidth 32 <<< i)

/-- `BitRead(n)` (R74): `none` when the read passes `8 * BUF_LEN` (OUT_OF_DATA, no bit consumed); else the value and the
state with the cursor moved. -/
def bitRead (n : Nat) (s : State) : Option (Word × State) :=
  if s.brPos.toNat + n > 8 * s.bufLen.toNat then none
  else some (field s s.brPos.toNat n, setCursor (s.brPos.toNat + n) s)

end Sys2Proof.Machine
end

