-- ==== Sys2Proof/Machine/BitReader.lean ====
section
/-! DEFINITION. The bit reader's commands (40_bit_reader.md). They write only BR_POS and RESULT (R73), and STATUS on an error. -/
namespace Sys2Proof.Machine

/-- `RESULT <- BitRead(n)` (R76, R77); OUT_OF_DATA leaves BR_POS and RESULT as they were. -/
def readToResult (n : Nat) (s : State) : State :=
  match bitRead n s with
  | none => raise .outOfData .command s
  | some (v, t) => setResult v t

/-- BR_REWIND (R75): `BR_POS <- 0`. -/
def execBrRewind (s : State) : Result := unlessErr s fun s => .next (setCursor 0 s)

/-- BR_READBIT (R76): `RESULT <- BitRead(1)`. -/
def execBrReadbit (s : State) : Result := unlessErr s fun s => .next (readToResult 1 s)

/-- BR_READBITS n (R77): BAD_PARAMETER for n > 32, else `RESULT <- BitRead(n)`. -/
def execBrReadbits (n : BitVec 8) (s : State) : Result :=
  unlessErr s fun s =>
    if argValue n > 32 then .next (raise .badParameter .command s)
    else .next (readToResult (argValue n) s)

end Sys2Proof.Machine
end

