-- ==== Sys2Proof/Machine/Control.lean ====
section
/-! DEFINITION. The control commands (43_control.md). Both run while ERR = 1 (R111). -/
namespace Sys2Proof.Machine

/-- NOP (R105): no state changes. -/
def execNop (s : State) : Result := .next s

/-- CLR_ERR (R106): `STATUS.ERR <- 0; STATUS.ERRCODE <- 0`, and nothing else; PHASE stays. -/
def execClrErr (s : State) : Result := .next (acknowledgeError s)

end Sys2Proof.Machine
end

