-- ==== Sys2Proof/Machine/Interlace.lean ====
section
/-! DEFINITION. The interlace mapper's commands (42_interlace.md): the four passes, the destination of a decoded row, and
the two commands. They write only RESULT (R104), and STATUS on an error. -/
namespace Sys2Proof.Machine

/-- One pass: its first destination row and the distance between its rows (R98). -/
structure Pass where
  start : Nat
  step : Nat
  deriving DecidableEq, Repr

/-- The four passes in decode order (R98). -/
def passes : List Pass := [⟨0, 8⟩, ⟨4, 8⟩, ⟨2, 4⟩, ⟨1, 2⟩]

/-- `count_q(H)`: how many rows of a frame of height `h` the pass covers (R99). -/
def passCount (q : Pass) (h : Nat) : Nat :=
  if h > q.start then (h - q.start + q.step - 1) / q.step else 0

/-- The search of ILDest from `base` on (R100). For `r < H` it ends inside the list: the four counts sum to H (R99). -/
def destFrom (r h : Nat) : Nat → List Pass → Nat
  | _, [] => r
  | base, q :: qs =>
    if r < base + passCount q h then q.start + q.step * (r - base)
    else destFrom r h (base + passCount q h) qs

/-- `ILDest(r, H)` (R100). -/
def ilDest (r h : Nat) : Nat := destFrom r h 0 passes

/-- The destination row with the frame's interlace flag: the four-pass mapping, or the identity (R37, R101). -/
def destRow (interlace : Bool) (r h : Nat) : Nat := if interlace then ilDest r h else r

/-- IL_ROW (R101): RANGE_ERROR when IL_INDEX >= IL_HEIGHT, else the destination row. -/
def execIlRow (s : State) : Result :=
  unlessErr s fun s =>
    let r := s.ilIndex.toNat
    let h := s.ilHeight.toNat
    if r ≥ h then .next (raise .rangeError .command s)
    else .next (setResult (BitVec.ofNat 32 (destRow s.interlace r h)) s)

/-- IL_ELEM (R102): RANGE_ERROR when IL_INDEX >= W*H, computed exactly, else the destination element of a row-major frame. -/
def execIlElem (s : State) : Result :=
  unlessErr s fun s =>
    let i := s.ilIndex.toNat
    let w := s.ilWidth.toNat
    let h := s.ilHeight.toNat
    if i ≥ w * h then .next (raise .rangeError .command s)
    else .next (setResult (BitVec.ofNat 32 (destRow s.interlace (i / w) h * w + i % w)) s)

end Sys2Proof.Machine
end

