-- ==== Sys2Proof/Machine/Lzw.lean ====
section
/-! DEFINITION. The LZW decoder's commands (41_lzw_decoder.md): the primitives Init, Emit and Register, one code
(LZW_STEP), and the whole stream (LZW_RUN). -/
namespace Sys2Proof.Machine

/-- `Init()` (R80): the literal singletons and nothing else in DICT; `DICT_SIZE <- CLEAR_CODE + 2`;
`CODE_WIDTH <- MIN_CODE_SIZE + 1`. -/
def dictInit (s : State) : State :=
  { s with
    dict := literals s.clearCode.toNat
    dictSize := s.clearCode.setWidth 32 + 2#32
    codeWidth := s.minCodeSize + 1#4 }

/-- `Emit(s)` (R82): `none` when the output would pass OBUF_CAP (nothing written); else the indices appended at OUT_LEN. -/
def emit (xs : List Byte) (s : State) : Option State :=
  if s.outLen.toNat + xs.length > s.obufCap.toNat then none
  else some
    { s with
      obuf := Memory.writeAll s.obuf s.outLen.toNat xs
      outLen := BitVec.ofNat 25 (s.outLen.toNat + xs.length) }

/-- The first half of `Register(e)` (R83): `DICT[DICT_SIZE] <- e` below 4096, nothing stored at or beyond; then
`DICT_SIZE <- DICT_SIZE + 1`. -/
def addEntry (e : Expansion) (s : State) : State :=
  let t := if s.dictSize.toNat < 4096 then setEntry s.dictSize.toNat e s else s
  { t with dictSize := t.dictSize + 1#32 }

/-- The second half of `Register(e)` (R83): the code width grows when DICT_SIZE reaches `2^CODE_WIDTH`, to 12 at most. -/
def growWidth (s : State) : State :=
  if s.dictSize.toNat = 2 ^ s.codeWidth.toNat ∧ s.codeWidth.toNat < 12 then
    { s with codeWidth := s.codeWidth + 1#4 }
  else s

/-- `Register(e)` (R83). -/
def register (e : Expansion) (s : State) : State := growWidth (addEntry e s)

/-- One code in phase LITERAL (R84, R85). -/
def literalCode (c : Code) (s : State) : State :=
  if c.toNat = s.clearCode.toNat then dictInit s
  else if c.toNat = s.endCode.toNat then setPhase .done s
  else if c.toNat < s.clearCode.toNat then
    match emit [c.setWidth 8] s with
    | none => raise .outputOverflow .decodeStep s
    | some t => setPhase .normal (setLastCode c t)
  else raise .corruptStream .decodeStep s

/-- Emit an expansion, then register a new entry, then `LAST_CODE <- code` (R88, R89): the shared end of both
dictionary cases. -/
def emitAndRegister (c : Code) (out entry : Expansion) (s : State) : State :=
  match emit out.indices s with
  | none => raise .outputOverflow .decodeStep s
  | some t => setLastCode c (register entry t)

/-- One code in phase NORMAL (R84, R86 to R90). -/
def normalCode (c : Code) (s : State) : Result :=
  if c.toNat = s.endCode.toNat then .next (setPhase .done s)
  else if c.toNat = s.clearCode.toNat then .next (setPhase .literal (dictInit s))
  else if c.toNat < s.dictSize.toNat then
    match dictEntry s c.toNat, dictEntry s s.lastCode.toNat with
    | some e, some l => .next (emitAndRegister c e (l.append e.first) s)
    | _, _ => .fault .missingEntry
  else if c.toNat = s.dictSize.toNat then
    match dictEntry s s.lastCode.toNat with
    | some l => .next (emitAndRegister c (l.append l.first) (l.append l.first) s)
    | none => .fault .missingEntry
  else .next (raise .corruptStream .decodeStep s)

/-- The body of LZW_STEP after its phase test (R84): read one code at the width in force and process it. -/
def stepBody (s : State) : Result :=
  match bitRead s.codeWidth.toNat s with
  | none => .next (raise .outOfData .decodeStep s)
  | some (v, t) =>
    let c : Code := v.setWidth 12
    match s.phase with
    | .literal => .next (literalCode c (setLzwCode c t))
    | .idle | .normal | .done | .failed => normalCode c (setLzwCode c t)

/-- The loop of LZW_RUN (R94) with a bound on its steps: run the body while a decode is in progress. -/
def runLoop : Nat → State → Result
  | 0, s => if s.phase.decoding then .fault .endlessRun else .next s
  | k + 1, s =>
    if s.phase.decoding then
      match stepBody s with
      | .next t => runLoop k t
      | .fault r => .fault r
      | .refused r => .refused r
    else .next s

/-- The most steps one LZW_RUN makes: `floor(8*BUF_LEN / 2) + 1` (R95). -/
def runBound (s : State) : Nat := 8 * s.bufLen.toNat / 2 + 1

/-- The phase test of LZW_STEP and LZW_RUN (R84, R94, D18): SEQUENCE_ERROR in phases IDLE, DONE and FAILED. -/
def whileDecoding (s : State) (run : State → Result) : Result :=
  if s.phase.decoding then run s else .next (raise .sequenceError .command s)

/-- LZW_INIT's registers (R81): MIN_CODE_SIZE, CLEAR_CODE = 2^m, END_CODE = 2^m + 1, Init(), the cursor, OUT_LEN, LAST_CODE
and LZW_CODE cleared, PHASE <- LITERAL. -/
def startDecode (m : Nat) (s : State) : State :=
  let t := dictInit
    { s with
      minCodeSize := BitVec.ofNat 4 m
      clearCode := BitVec.ofNat 9 (2 ^ m)
      endCode := BitVec.ofNat 9 (2 ^ m + 1) }
  { t with brPos := 0#28, outLen := 0#25, lastCode := 0#12, lzwCode := 0#12, phase := .literal }

/-- LZW_INIT m (R81): BAD_PARAMETER for m = 0 or m > 8, else a new decode. -/
def execLzwInit (m : BitVec 8) (s : State) : Result :=
  unlessErr s fun s =>
    if argValue m = 0 ∨ argValue m > 8 then .next (raise .badParameter .command s)
    else .next (startDecode (argValue m) s)

/-- LZW_STEP (R84). -/
def execLzwStep (s : State) : Result := unlessErr s fun s => whileDecoding s stepBody

/-- LZW_RUN (R94): steps until PHASE leaves LITERAL and NORMAL, by the End Code or by an error. -/
def execLzwRun (s : State) : Result := unlessErr s fun s => whileDecoding s fun s => runLoop (runBound s) s

end Sys2Proof.Machine
end

