-- ==== Sys2Proof/Machine/Dispatch.lean ====
section
/-! DEFINITION. The meaning of each command: one arm per constructor of Instr, each a direct call. -/
namespace Sys2Proof.Machine

def exec (i : Instr) (s : State) : Host.Outcome State Fault Refusal :=
  match i with
  | .nop => Sys2Proof.Machine.execNop s
  | .brRewind => Sys2Proof.Machine.execBrRewind s
  | .brReadbit => Sys2Proof.Machine.execBrReadbit s
  | .brReadbits n => Sys2Proof.Machine.execBrReadbits n s
  | .lzwInit m => Sys2Proof.Machine.execLzwInit m s
  | .lzwStep => Sys2Proof.Machine.execLzwStep s
  | .lzwRun => Sys2Proof.Machine.execLzwRun s
  | .ilRow => Sys2Proof.Machine.execIlRow s
  | .ilElem => Sys2Proof.Machine.execIlElem s
  | .clrErr => Sys2Proof.Machine.execClrErr s

end Sys2Proof.Machine
end

