-- ==== Sys2Proof/Machine/Registers.lean ====
section
/-! DEFINITION. The register window (10_state.md section 3): the sixteen registers at their offsets, what a read of each
returns, and what a write of each does. -/
namespace Sys2Proof.Machine

/-- The sixteen registers of R22. -/
inductive Reg where
  | cmd | status | result | bufLen | brPos | lzwCfg | dictSize | lastCode
  | lzwCode | outLen | ilWidth | ilHeight | ilCtrl | ilIndex | ibufCapReg | obufCapReg
  deriving DecidableEq, Repr

/-- A register's offset in the window (R22). -/
def Reg.offset : Reg → Nat
  | .cmd => 0x00
  | .status => 0x04
  | .result => 0x08
  | .bufLen => 0x0C
  | .brPos => 0x10
  | .lzwCfg => 0x14
  | .dictSize => 0x18
  | .lastCode => 0x1C
  | .lzwCode => 0x20
  | .outLen => 0x24
  | .ilWidth => 0x28
  | .ilHeight => 0x2C
  | .ilCtrl => 0x30
  | .ilIndex => 0x34
  | .ibufCapReg => 0x38
  | .obufCapReg => 0x3C

/-- The registers in the order of R22. -/
def Reg.all : List Reg :=
  [.cmd, .status, .result, .bufLen, .brPos, .lzwCfg, .dictSize, .lastCode,
   .lzwCode, .outLen, .ilWidth, .ilHeight, .ilCtrl, .ilIndex, .ibufCapReg, .obufCapReg]

/-- The register at an offset of the window, if one starts there (R22). -/
def regAt (offset : Nat) : Option Reg := Reg.all.find? fun r => r.offset = offset

/-- STATUS while BUSY = 0: PHASE [10:8], ERRCODE [7:4], [3:2] = 0, ERR [1], BUSY [0] (R24). -/
def statusWord (s : State) : Word :=
  0#21 ++ phaseNumber s.phase ++ errNumber s.errcode ++ 0#2 ++ BitVec.ofBool s.err ++ BitVec.ofBool (busy s)

/-- LZW_CFG: END_CODE [25:17], CLEAR_CODE [16:8], CODE_WIDTH [7:4], MIN_CODE_SIZE [3:0] (R30). -/
def lzwCfgWord (s : State) : Word :=
  0#6 ++ s.endCode ++ s.clearCode ++ s.codeWidth ++ s.minCodeSize

/-- What a read of a register returns while BUSY = 0: CMD reads 0 (R23), reserved bits read 0 (D25). -/
def regRead (s : State) : Reg → Word
  | .cmd => 0#32
  | .status => statusWord s
  | .result => s.result
  | .bufLen => s.bufLen.setWidth 32
  | .brPos => s.brPos.setWidth 32
  | .lzwCfg => lzwCfgWord s
  | .dictSize => s.dictSize
  | .lastCode => s.lastCode.setWidth 32
  | .lzwCode => s.lzwCode.setWidth 32
  | .outLen => s.outLen.setWidth 32
  | .ilWidth => s.ilWidth.setWidth 32
  | .ilHeight => s.ilHeight.setWidth 32
  | .ilCtrl => (BitVec.ofBool s.interlace).setWidth 32
  | .ilIndex => s.ilIndex
  | .ibufCapReg => s.ibufCap.setWidth 32
  | .obufCapReg => s.obufCap.setWidth 32

/-- What a 32-bit write of `v` to a register does: CMD starts a command (R23), BUF_LEN stores `min(v, IBUF_CAP)` (R28), the
IL registers store their fields (R35 to R38), and a write to a read-only register is ignored (R52). The strobes are not looked at: DEDUCED, log 10. -/
def regWrite (v : Word) (s : State) : Reg → State
  | .cmd => startCommand v s
  | .bufLen => { s with bufLen := BitVec.ofNat 25 (min v.toNat s.ibufCap.toNat) }
  | .ilWidth => { s with ilWidth := v.extractLsb' 0 16 }
  | .ilHeight => { s with ilHeight := v.extractLsb' 0 16 }
  | .ilCtrl => { s with interlace := v.getLsbD 0 }
  | .ilIndex => { s with ilIndex := v }
  | .status | .result | .brPos | .lzwCfg | .dictSize | .lastCode | .lzwCode | .outLen | .ibufCapReg | .obufCapReg => s

end Sys2Proof.Machine
end

