-- ==== Sys2Proof/Machine/Port.lean ====
section
/-! DEFINITION. The host port (20_memory.md): the address map, which accesses are served and what they return, the ERROR
responses, the stall while a command runs, the STATUS poll, the reset input, and what the block does next. -/
namespace Sys2Proof.Machine

/-- The bytes of an access. -/
def Size.bytes : Size → Nat
  | .byte => 1
  | .half => 2
  | .word => 4

/-- The windows of the port space (R47). -/
inductive Window where
  | registers (offset : Nat)
  | ibuf (offset : Nat)
  | obuf (offset : Nat)
  | unmapped
  deriving DecidableEq, Repr

/-- Which window an address lies in, and its offset there (R47). The capacities cut the buffer windows short: `inBuffer`. -/
def windowOf (addr : Word) : Window :=
  let a := addr.toNat
  if a < 0x40 then .registers a
  else if a < 0x01000000 then .unmapped
  else if a < 0x02000000 then .ibuf (a - 0x01000000)
  else if a < 0x03000000 then .obuf (a - 0x02000000)
  else .unmapped

/-- The address is a multiple of the access size (R53). -/
def aligned (addr : Word) (size : Size) : Bool := addr.toNat % size.bytes = 0

/-- Every addressed byte has an offset below the capacity (R53, R54). -/
def inBuffer (offset : Nat) (size : Size) (cap : BitVec 25) : Bool := offset + size.bytes ≤ cap.toNat

/-- The value of the bytes at rising addresses, the first lowest (R50). DEDUCED, log 9. -/
def gather (byteAt : Nat → Byte) : Nat → Word
  | 0 => 0#32
  | n + 1 => gather byteAt n ||| ((byteAt n).setWidth 32 <<< (8 * n))

/-- The byte an address's lane carries: data bits `[8*(a mod 4)+7 : 8*(a mod 4)]` (R50). DEDUCED, log 9. -/
def laneByte (data : Word) (addr : Nat) : Byte := data.extractLsb' (8 * (addr % 4)) 8

/-- Store the strobed bytes of an IBUF write, lowest address first (R53). -/
def storeLanes (addr offset : Nat) (data : Word) (strobes : BitVec 4) (s : State) : Nat → State
  | 0 => s
  | n + 1 =>
    let t := storeLanes addr offset data strobes s n
    if strobes.getLsbD ((addr + n) % 4) then writeIbuf (offset + n) (laneByte data (addr + n)) t else t

/-- The value a read access returns, `none` for an ERROR response (R52 to R54). -/
def readPort (s : State) (addr : Word) (size : Size) : Option Word :=
  match windowOf addr with
  | .registers off => if size = .word then (regAt off).map (regRead s) else none
  | .ibuf off =>
    if aligned addr size ∧ inBuffer off size s.ibufCap then
      some (gather (fun i => ibufByte s (off + i)) size.bytes)
    else none
  | .obuf off =>
    if aligned addr size ∧ inBuffer off size s.obufCap then
      some (gather (fun i => obufByte s (off + i)) size.bytes)
    else none
  | .unmapped => none

/-- The state after a write access, `none` for an ERROR response (R52 to R54). -/
def writePort (s : State) (addr : Word) (size : Size) (data : Word) (strobes : BitVec 4) : Option State :=
  match windowOf addr with
  | .registers off => if size = .word then (regAt off).map (regWrite data s) else none
  | .ibuf off =>
    if aligned addr size ∧ inBuffer off size s.ibufCap then
      some (storeLanes addr.toNat off data strobes s size.bytes)
    else none
  | .obuf _ => none
  | .unmapped => none

/-- The port's answer to the access it has just served. DESIGN CHOICE, log 11 (the data of a write's answer). -/
def respond (error : Bool) (data : Word) (s : State) : State :=
  { s with env := { s.env with response := some { error := error, data := data } } }

/-- A served read has used up one draw of the unspecified values, whether or not it needed it (U1, U2). DESIGN CHOICE, log 14. -/
def nextDraw (s : State) : State := { s with env := { s.env with draws := s.env.draws + 1 } }

/-- Serve one access while BUSY = 0 (R52 to R54, R58, R123): OK with the data, or ERROR with data 0 and no effect. -/
def serve (a : Access) (s : State) : State :=
  match a with
  | .read addr size =>
    match readPort s addr size with
    | some v => nextDraw (respond false v s)
    | none => respond true 0#32 s
  | .write addr size data strobes =>
    match writePort s addr size data strobes with
    | some t => respond false 0#32 t
    | none => respond true 0#32 s

/-- A read of STATUS: the one access that is not stalled while a command runs (R57). DEDUCED, log 18. -/
def isStatusRead : Access → Bool
  | .read addr size => addr = 0x04#32 ∧ size = .word
  | .write _ _ _ _ => false

/-- Take the first STATUS read out of the accesses that wait; the others keep their order. `none` when none waits. -/
def takeStatusRead : List Access → Option (List Access)
  | [] => none
  | a :: rest => if isStatusRead a then some rest else (takeStatusRead rest).map (a :: ·)

/-- A STATUS read while BUSY = 1: BUSY reads 1, every other bit is unspecified (R24, U1). -/
def pollStatus (s : State) : State :=
  nextDraw (respond false (Config.statusBits s.env.draws ++ 1#1) s)

/-- The inputs that are left once the first has happened. -/
def setInputs (rest : List Input) (s : State) : State := { s with env := { s.env with inputs := rest } }

/-- The accesses that are left stalled. -/
def setStalled (rest : List Access) (s : State) : State := { s with env := { s.env with stalled := rest } }

/-- An access that cannot be served now waits behind those that already wait (R57, R124). -/
def stall (a : Access) (s : State) : State := setStalled (s.env.stalled ++ [a]) s

/-- The reset input is asserted: the running command is abandoned, every register takes its reset value, IBUF, OBUF and DICT
become unspecified; stalled accesses stay stalled (R124, R125). DEDUCED, logs 12, 13 and 20. -/
def assertReset (s : State) : State :=
  State.resetWith s.ibufCap s.obufCap { s.env with resetIn := true, resets := s.env.resets + 1 }

/-- The reset input is deasserted: the block serves accesses again (R124). -/
def releaseReset (s : State) : State := { s with env := { s.env with resetIn := false } }

/-- What the block does next: run the command word it holds, or one move of the port or the reset input. -/
inductive Action where
  | run (w : Word)
  | move (s : State)

/-- While reset is asserted: accesses stall, nothing else happens (R124). -/
def whileReset (inputs : List Input) (s : State) : State :=
  match inputs with
  | .access a :: rest => stall a (setInputs rest s)
  | .idle :: rest => setInputs rest s
  | .reset _ :: _ => s
  | [] => s

/-- While BUSY = 1: a STATUS read is served at once, first one that waits (it arrived during reset, behind the CMD write that
started the command: R124), then one that arrives; any other access stalls; with no STATUS read to serve and nothing arriving,
the command runs to completion (R57). -/
def whileBusy (w : Word) (inputs : List Input) (s : State) : Action :=
  match takeStatusRead s.env.stalled with
  | some others => .move (pollStatus (setStalled others s))
  | none =>
    match inputs with
    | .access a :: rest =>
      if isStatusRead a then .move (pollStatus (setInputs rest s)) else .move (stall a (setInputs rest s))
    | .idle :: _ => .run w
    | .reset _ :: _ => .run w
    | [] => .run w

/-- While BUSY = 0: first the stalled accesses in arrival order, then the next one that arrives (R57, R58). With nothing to do
nothing changes: DESIGN CHOICE, log 23. -/
def whileIdle (inputs : List Input) (s : State) : State :=
  match s.env.stalled with
  | b :: more => serve b (setStalled more s)
  | [] =>
    match inputs with
    | .access a :: rest => serve a (setInputs rest s)
    | .idle :: rest => setInputs rest s
    | .reset _ :: _ => s
    | [] => s

/-- What the block does next. A change of the reset input comes before everything else (R124). -/
def nextAction (s : State) : Action :=
  match s.env.inputs with
  | .reset level :: rest =>
    .move (if level then assertReset (setInputs rest s) else releaseReset (setInputs rest s))
  | inputs =>
    if s.env.resetIn then .move (whileReset inputs s)
    else
      match s.running with
      | some w => whileBusy w inputs s
      | none => .move (whileIdle inputs s)

/-- The block with the command `w` running, every STATUS read that waited served, and nothing arriving before the command is
complete: the next step runs it. -/
def commandIssued (w : Word) (s : State) : State :=
  startCommand w { s with env := { s.env with
    resetIn := false, inputs := .idle :: s.env.inputs, stalled := s.env.stalled.filter fun a => !isStatusRead a } }

end Sys2Proof.Machine
end

