-- ==== Sys2Proof/Machine/Step.lean ====
section
/-! DEFINITION. One step of the block: it runs the command it holds, or makes one move of the port or the reset input. -/
namespace Sys2Proof.Machine

/-- Run the command word `w` to completion (R57, R68): BUSY <- 0 around the meaning of the command it encodes, or the
ILLEGAL_COMMAND of a word that is none. -/
def runWord (w : Word) (s : State) : Host.Outcome State Fault Refusal :=
  match decode w with
  | .ok i => exec i (endCommand s)
  | .error _ => .next (illegalCommand (wordOp w) (endCommand s))

/-- One step. -/
def step (s : State) : Host.Outcome State Fault Refusal :=
  match nextAction s with
  | .run w => runWord w s
  | .move t => .next t

/-- `s` with the command word `w` written to CMD and accepted, no STATUS read waiting, and nothing arriving before it is
complete: the next step runs it. Every bit above `nbits` is 0. DESIGN CHOICE, log 7. -/
def State.withFetchWord (s : State) (nbits w : Nat) : State :=
  commandIssued (BitVec.ofNat 32 (w % 2 ^ nbits)) s

end Sys2Proof.Machine
end

