-- ==== Sys2Proof/Machine/HostProgram.lean ====
section
/-! DEFINITION. Host programs: the lines of R70 and the pseudo-commands of R71 as data, the port accesses each line stands
for, and the reader of the line-based assembly text. The block knows nothing of this: it sees the accesses only. -/
namespace Sys2Proof.Machine

/-- One line of a host program, or one pseudo-command (R70, R71). -/
inductive HostLine where
  /-- A command by its mnemonic: a CMD write of its word. -/
  | command (i : Instr)
  /-- `.cmd w`: a CMD write of the raw word. -/
  | rawCmd (w : Word)
  /-- `wr REG, v`. -/
  | wr (r : Reg) (v : Word)
  /-- `rd REG`. -/
  | rd (r : Reg)
  /-- `wrb IBUF[i], b`. -/
  | wrb (i : Nat) (b : Byte)
  /-- `wrw IBUF[i], v`. -/
  | wrw (i : Nat) (v : Word)
  /-- `rdb OBUF[j]`. -/
  | rdb (j : Nat)
  /-- `rdw OBUF[j]`. -/
  | rdw (j : Nat)
  /-- `LOAD b0, b1, …`. -/
  | load (bytes : List Byte)
  /-- `LZW_DECODE m`. -/
  | lzwDecode (m : BitVec 8)
  /-- `IL_MAP_ROW r`. -/
  | ilMapRow (r : Word)
  /-- `IL_MAP_ELEM i`. -/
  | ilMapElem (i : Word)
  /-- `IL_FRAME w, h, f`. -/
  | ilFrame (w h f : Word)
  /-- `BR_SKIP n`. -/
  | brSkip (n : BitVec 8)
  deriving DecidableEq, Repr

/-- The port address of `IBUF[i]` (R47). -/
def ibufAddr (i : Nat) : Word := BitVec.ofNat 32 (0x01000000 + i)

/-- The port address of `OBUF[j]` (R47). -/
def obufAddr (j : Nat) : Word := BitVec.ofNat 32 (0x02000000 + j)

/-- The strobes of an access's lanes: one for each addressed byte (R50). -/
def lanesOf (addr : Word) (size : Size) : BitVec 4 :=
  BitVec.ofNat 4 ((2 ^ size.bytes - 1) <<< (addr.toNat % 4))

/-- `MemWrite(addr, n, v)` (R13): the value placed on its lanes (R50), every addressed byte strobed. -/
def memWrite (addr : Word) (size : Size) (v : Word) : Access :=
  .write addr size (v <<< (8 * (addr.toNat % 4))) (lanesOf addr size)

/-- `MemRead(addr, n)` (R13). -/
def memRead (addr : Word) (size : Size) : Access := .read addr size

/-- A 32-bit write of a register. -/
def writeReg (r : Reg) (v : Word) : Access := memWrite (BitVec.ofNat 32 r.offset) .word v

/-- A 32-bit read of a register. -/
def readReg (r : Reg) : Access := memRead (BitVec.ofNat 32 r.offset) .word

/-- The CMD write that issues a command. -/
def issue (i : Instr) : Access := writeReg .cmd (encode i)

/-- The byte writes of `LOAD`, from `IBUF[i]` on. -/
def loadBytes (i : Nat) : List Byte → List Access
  | [] => []
  | b :: bs => memWrite (ibufAddr i) .byte (b.setWidth 32) :: loadBytes (i + 1) bs

/-- The port accesses a line stands for, in order (R70, R71). -/
def HostLine.accesses : HostLine → List Access
  | .command i => [issue i]
  | .rawCmd w => [writeReg .cmd w]
  | .wr r v => [writeReg r v]
  | .rd r => [readReg r]
  | .wrb i b => [memWrite (ibufAddr i) .byte (b.setWidth 32)]
  | .wrw i v => [memWrite (ibufAddr i) .word v]
  | .rdb j => [memRead (obufAddr j) .byte]
  | .rdw j => [memRead (obufAddr j) .word]
  | .load bytes => loadBytes 0 bytes ++ [writeReg .bufLen (BitVec.ofNat 32 bytes.length)]
  | .lzwDecode m => [issue (.lzwInit m), issue .lzwRun]
  | .ilMapRow r => [writeReg .ilIndex r, issue .ilRow, readReg .result]
  | .ilMapElem i => [writeReg .ilIndex i, issue .ilElem, readReg .result]
  | .ilFrame w h f => [writeReg .ilWidth w, writeReg .ilHeight h, writeReg .ilCtrl f]
  | .brSkip n => [issue (.brReadbits n)]

/-- What the assembler accepts: n = 0-32, m = 1-8, and a word address of IBUF or OBUF that is a multiple of 4 (R70). -/
def HostLine.accepted : HostLine → Bool
  | .command i => i.wellFormed
  | .wrw i _ => i % 4 = 0
  | .rdw j => j % 4 = 0
  | .lzwDecode m => legalCodeSize m
  | .brSkip n => legalCount n
  | .load bytes => bytes ≠ []
  | .rawCmd _ | .wr _ _ | .rd _ | .wrb _ _ | .rdb _ | .ilMapRow _ | .ilMapElem _ | .ilFrame _ _ _ => true

/-- A host that starts each access when the block is quiet: the inputs a program drives (log 1). -/
def programInputs (lines : List HostLine) : List Input :=
  lines.flatMap fun line => line.accesses.flatMap fun a => [.access a, .idle]

/-- A block with a program still to be driven at its inputs. -/
def withProgram (lines : List HostLine) (s : State) : State := setInputs (programInputs lines) s

/-! ### The text of a line (R70) -/

/-- The value of a digit in a base of at most 16. -/
def digitValue (base : Nat) (c : Char) : Option Nat :=
  let d :=
    if '0' ≤ c ∧ c ≤ '9' then c.toNat - '0'.toNat
    else if 'a' ≤ c ∧ c ≤ 'f' then c.toNat - 'a'.toNat + 10
    else if 'A' ≤ c ∧ c ≤ 'F' then c.toNat - 'A'.toNat + 10
    else 16
  if d < base then some d else none

/-- The value of digits, most significant first. -/
def digitsValue (base : Nat) : Nat → List Char → Option Nat
  | n, [] => some n
  | n, c :: cs =>
    match digitValue base c with
    | some d => digitsValue base (base * n + d) cs
    | none => none

/-- A number: decimal, or hexadecimal with a `0x` (R70). -/
def parseNumber : List Char → Option Nat
  | [] => none
  | ['0', 'x'] => none
  | '0' :: 'x' :: cs => digitsValue 16 0 cs
  | cs => digitsValue 10 0 cs

/-- A number below a bound. -/
def parseBelow (bound : Nat) (cs : List Char) : Option Nat :=
  match parseNumber cs with
  | some n => if n < bound then some n else none
  | none => none

/-- A 32-bit number. -/
def parseWord (cs : List Char) : Option Word := (parseBelow (2 ^ 32) cs).map (BitVec.ofNat 32)

/-- An 8-bit number. -/
def parseByte (cs : List Char) : Option Byte := (parseBelow (2 ^ 8) cs).map (BitVec.ofNat 8)

/-- `IBUF[i]` or `OBUF[j]`: the name given, an index in brackets, inside the window's 2^24 bytes. -/
def parseIndexed (name cs : List Char) : Option Nat :=
  if cs.take (name.length + 1) = name ++ ['['] ∧ cs.getLast? = some ']' then
    parseBelow (2 ^ 24) ((cs.drop (name.length + 1)).dropLast)
  else none

/-- A register's name (R22). -/
def Reg.name : Reg → String
  | .cmd => "CMD"
  | .status => "STATUS"
  | .result => "RESULT"
  | .bufLen => "BUF_LEN"
  | .brPos => "BR_POS"
  | .lzwCfg => "LZW_CFG"
  | .dictSize => "DICT_SIZE"
  | .lastCode => "LAST_CODE"
  | .lzwCode => "LZW_CODE"
  | .outLen => "OUT_LEN"
  | .ilWidth => "IL_WIDTH"
  | .ilHeight => "IL_HEIGHT"
  | .ilCtrl => "IL_CTRL"
  | .ilIndex => "IL_INDEX"
  | .ibufCapReg => "IBUF_CAP_REG"
  | .obufCapReg => "OBUF_CAP_REG"

/-- The register of a name. -/
def parseReg (cs : List Char) : Option Reg := Reg.all.find? fun r => r.name.toList = cs

/-- The text before a `;` (R70). -/
def beforeComment : List Char → List Char
  | [] => []
  | c :: cs => if c = ';' then [] else c :: beforeComment cs

/-- The words of a line, separated by white space and commas. -/
def splitWords : List Char → List Char → List (List Char)
  | word, [] => if word = [] then [] else [word.reverse]
  | word, c :: cs =>
    if c = ' ' ∨ c = '\t' ∨ c = ',' ∨ c = '\r' then
      if word = [] then splitWords [] cs else word.reverse :: splitWords [] cs
    else splitWords (c :: word) cs

/-- Every word of a list read as a byte. -/
def parseBytes : List (List Char) → Option (List Byte)
  | [] => some []
  | w :: ws =>
    match parseByte w, parseBytes ws with
    | some b, some bs => some (b :: bs)
    | _, _ => none

/-- A line whose head takes no operand. -/
def parsePlain (head : List Char) : Option HostLine :=
  if head = "NOP".toList then some (.command .nop)
  else if head = "BR_REWIND".toList then some (.command .brRewind)
  else if head = "BR_READBIT".toList then some (.command .brReadbit)
  else if head = "LZW_STEP".toList then some (.command .lzwStep)
  else if head = "LZW_RUN".toList then some (.command .lzwRun)
  else if head = "IL_ROW".toList then some (.command .ilRow)
  else if head = "IL_ELEM".toList then some (.command .ilElem)
  else if head = "CLR_ERR".toList then some (.command .clrErr)
  else none

/-- A line whose head takes one operand. -/
def parseOne (head x : List Char) : Option HostLine :=
  if head = "BR_READBITS".toList then (parseByte x).map fun n => .command (.brReadbits n)
  else if head = "LZW_INIT".toList then (parseByte x).map fun m => .command (.lzwInit m)
  else if head = ".cmd".toList then (parseWord x).map .rawCmd
  else if head = "rd".toList then (parseReg x).map .rd
  else if head = "rdb".toList then (parseIndexed "OBUF".toList x).map .rdb
  else if head = "rdw".toList then (parseIndexed "OBUF".toList x).map .rdw
  else if head = "LZW_DECODE".toList then (parseByte x).map .lzwDecode
  else if head = "IL_MAP_ROW".toList then (parseWord x).map .ilMapRow
  else if head = "IL_MAP_ELEM".toList then (parseWord x).map .ilMapElem
  else if head = "BR_SKIP".toList then (parseByte x).map .brSkip
  else none

/-- A line whose head takes two operands. -/
def parseTwo (head x y : List Char) : Option HostLine :=
  if head = "wr".toList then
    match parseReg x, parseWord y with
    | some r, some v => some (.wr r v)
    | _, _ => none
  else if head = "wrb".toList then
    match parseIndexed "IBUF".toList x, parseByte y with
    | some i, some b => some (.wrb i b)
    | _, _ => none
  else if head = "wrw".toList then
    match parseIndexed "IBUF".toList x, parseWord y with
    | some i, some v => some (.wrw i v)
    | _, _ => none
  else none

/-- A line whose head takes three operands. -/
def parseThree (head x y z : List Char) : Option HostLine :=
  if head = "IL_FRAME".toList then
    match parseWord x, parseWord y, parseWord z with
    | some w, some h, some f => some (.ilFrame w h f)
    | _, _, _ => none
  else none

/-- The words of a line as a line of R70 or R71. -/
def parseWords (head : List Char) (operands : List (List Char)) : Option HostLine :=
  if head = "LOAD".toList then (parseBytes operands).map .load
  else
    match operands with
    | [] => parsePlain head
    | [x] => parseOne head x
    | [x, y] => parseTwo head x y
    | [x, y, z] => parseThree head x y z
    | _ => none

/-- One line of text: `some none` when it holds no more than a comment, `none` when the assembler refuses it. -/
def parseLine (text : List Char) : Option (Option HostLine) :=
  match splitWords [] (beforeComment text) with
  | [] => some none
  | head :: operands =>
    match parseWords head operands with
    | some line => if line.accepted then some (some line) else none
    | none => none

/-- The lines of a text, each read to the end of its line; `none` when one is refused. -/
def parseLines : List Char → List Char → Option (List HostLine)
  | text, [] =>
    match parseLine text.reverse with
    | some (some line) => some [line]
    | some none => some []
    | none => none
  | text, c :: cs =>
    if c = '\n' then
      match parseLine text.reverse, parseLines [] cs with
      | some (some line), some rest => some (line :: rest)
      | some none, some rest => some rest
      | _, _ => none
    else parseLines (c :: text) cs

/-- The assembler: the text of a host program as its lines (R70). DESIGN CHOICE, log 19 (what the spec gives by example). -/
def assemble (text : String) : Option (List HostLine) := parseLines [] text.toList

end Sys2Proof.Machine
end

