-- ==== Sys2Proof/Machine/Source.lean ====
section
/-! DEFINITION. The decode loop of the source's §4.2 as a function of a byte buffer and a minimum code size: no registers, no
capacities, a dictionary that keeps every entry, the first code and the code after a Clear Code read in one place (R79, R85,
R96, with decision D12 for a non-literal there). The LZW unit is compared with it; the machine does not use it. -/
namespace Sys2Proof.Machine

/-- The stream as one little-endian integer: `S = Σ_k byte_k * 2^(8k)` (R49). -/
def streamInteger : List Byte → Nat
  | [] => 0
  | b :: bs => b.toNat + 2 ^ 8 * streamInteger bs

/-- How a decode ends: the accumulated output, or one of the source's two errors (R96, R97). -/
inductive SourceEnd where
  | output (indices : List Byte)
  | corruptStream
  | outOfData
  deriving DecidableEq, Repr

/-- The source's decoder state between two codes: the bit position, the code width, the dictionary with its entries in code
order (none for the two sentinels), `lastCode` unless the next code is taken as a literal, and the output so far. -/
structure SourceState where
  position : Nat
  width : Nat
  dict : List (Option (List Byte))
  last : Option Nat
  output : List Byte
  deriving DecidableEq, Repr

/-- Initialisation: the singletons `0 .. clearCode-1` and the two sentinels; `dictSize = clearCode + 2` (R80). -/
def sourceDict (m : Nat) : List (Option (List Byte)) :=
  (List.range (2 ^ m)).map (fun c => some [BitVec.ofNat 8 c]) ++ [none, none]

/-- The sequence of a code (empty for a code that has none, which the loop never looks up). -/
def sourceEntry (dict : List (Option (List Byte))) (c : Nat) : List Byte := ((dict[c]?).getD none).getD []

/-- Reinitialisation, on every Clear Code (R80). -/
def SourceState.clear (m : Nat) (d : SourceState) : SourceState :=
  { d with width := m + 1, dict := sourceDict m, last := none }

/-- Append an expansion and register an entry, growing the width when dictSize reaches `2^width` below 12 bits (R83, R88). -/
def SourceState.extend (c : Nat) (out entry : List Byte) (d : SourceState) : SourceState :=
  { d with
    output := d.output ++ out
    dict := d.dict ++ [some entry]
    last := some c
    width := if d.dict.length + 1 = 2 ^ d.width ∧ d.width < 12 then d.width + 1 else d.width }

/-- One code: the next state, or how the decode ends. -/
def sourceCode (m c : Nat) (d : SourceState) : SourceState ⊕ SourceEnd :=
  if c = 2 ^ m + 1 then .inr (.output d.output)
  else if c = 2 ^ m then .inl (d.clear m)
  else
    match d.last with
    | none =>
      if c < 2 ^ m then .inl { d with output := d.output ++ [BitVec.ofNat 8 c], last := some c }
      else .inr .corruptStream
    | some l =>
      if c < d.dict.length then
        .inl (d.extend c (sourceEntry d.dict c) (sourceEntry d.dict l ++ (sourceEntry d.dict c).take 1))
      else if c = d.dict.length then
        .inl (d.extend c (sourceEntry d.dict l ++ (sourceEntry d.dict l).take 1)
          (sourceEntry d.dict l ++ (sourceEntry d.dict l).take 1))
      else .inr .corruptStream

/-- The decode loop over a buffer, for at most so many codes. -/
def sourceLoop (m : Nat) (buffer : List Byte) : Nat → SourceState → Option SourceEnd
  | 0, _ => none
  | k + 1, d =>
    if d.position + d.width > 8 * buffer.length then some .outOfData
    else
      let c := streamInteger buffer / 2 ^ d.position % 2 ^ d.width
      match sourceCode m c { d with position := d.position + d.width } with
      | .inl e => sourceLoop m buffer k e
      | .inr r => some r

/-- The decode of one buffer: each code takes at least two bits, so `4 * length + 1` codes suffice (R95). -/
def sourceDecode (m : Nat) (buffer : List Byte) : Option SourceEnd :=
  sourceLoop m buffer (4 * buffer.length + 1)
    { position := 0, width := m + 1, dict := sourceDict m, last := none, output := [] }

end Sys2Proof.Machine
end

