-- ==== Sys2Proof/Safety.lean ====
section
/-! DEFINITION. What a good state is: the invariants of R45 and of the registers' ranges, in the terms the statements use. -/
namespace Sys2Proof.Machine

/-- The stream: IBUF[0 .. BUF_LEN-1] (R28). -/
def State.stream (s : State) : List Byte := (List.range s.bufLen.toNat).map (ibufByte s)

/-- The accumulated output: OBUF[0 .. OUT_LEN-1] (R34). -/
def State.output (s : State) : List Byte := (List.range s.outLen.toNat).map (obufByte s)

/-- The value of the `n` stream bits at the cursor: `floor(S / 2^p) mod 2^n` (R49). -/
def State.bitsAtCursor (s : State) (n : Nat) : Nat :=
  streamInteger s.stream / 2 ^ s.brPos.toNat % 2 ^ n

/-- `n` bits are left at the cursor (R74). -/
def State.hasBits (s : State) (n : Nat) : Prop := s.brPos.toNat + n ≤ 8 * s.bufLen.toNat

/-- The code an LZW step reads (R84). -/
def State.nextCode (s : State) : Nat := s.bitsAtCursor s.codeWidth.toNat

/-- The capacities are in the range of R9. -/
structure State.Configured (s : State) : Prop where
  ibufCap_pos : 1 ≤ s.ibufCap.toNat
  ibufCap_le : s.ibufCap.toNat ≤ 2 ^ 24
  obufCap_pos : 1 ≤ s.obufCap.toNat
  obufCap_le : s.obufCap.toNat ≤ 2 ^ 24

/-- The ranges of BUF_LEN (R28), BR_POS (R29) and OUT_LEN (R34), the canonical form of the sparse memories inside their
capacities, and ERRCODE = NONE exactly while ERR = 0 (R24). -/
structure State.Ranged (s : State) : Prop where
  bufLen_le : s.bufLen.toNat ≤ s.ibufCap.toNat
  brPos_le : s.brPos.toNat ≤ 8 * s.ibufCap.toNat
  outLen_le : s.outLen.toNat ≤ s.obufCap.toNat
  ibuf_wf : Memory.wf s.ibuf = true
  obuf_wf : Memory.wf s.obuf = true
  dict_wf : rising s.dict = true
  ibuf_inside : ∀ i, s.ibufCap.toNat ≤ i → Memory.read s.ibuf i = none
  obuf_inside : ∀ j, s.obufCap.toNat ≤ j → Memory.read s.obuf j = none
  errcode_none : s.errcode = .none ↔ s.err = false

/-- Before the first LZW_INIT the decode registers read 0 (R25, R30 to R34, R125). -/
structure State.LzwIdle (s : State) : Prop where
  minCodeSize : s.minCodeSize = 0#4
  codeWidth : s.codeWidth = 0#4
  clearCode : s.clearCode = 0#9
  endCode : s.endCode = 0#9
  dictSize : s.dictSize = 0#32
  lastCode : s.lastCode = 0#12
  lzwCode : s.lzwCode = 0#12
  outLen : s.outLen = 0#25

/-- STATUS.ERR and STATUS.ERRCODE set, everything else as it was: what an error without side effects leaves (R110). -/
def State.withError (s : State) (e : ErrCode) : State := { s with err := true, errcode := e }

/-- What an error inside a step leaves beside that: PHASE = FAILED (R110). -/
def State.withDecodeError (s : State) (e : ErrCode) : State := { s with err := true, errcode := e, phase := .failed }

/-- The smallest w with `n < 2^w`: the number of bits in the binary form of `n` (R45 item 4). -/
def bitLength (n : Nat) : Nat := if n = 0 then 0 else Nat.log2 n + 1

/-- The invariants of R45, once LZW_INIT has succeeded; the items carry its numbers. `dictSize_le` is the bound that keeps
the 32-bit DICT_SIZE from wrapping (D13). -/
structure State.LzwActive (s : State) : Prop where
  minCodeSize_pos : 1 ≤ s.minCodeSize.toNat
  minCodeSize_le : s.minCodeSize.toNat ≤ 8
  /-- Item 1. -/
  clearCode : s.clearCode.toNat = 2 ^ s.minCodeSize.toNat
  /-- Item 1. -/
  endCode : s.endCode.toNat = s.clearCode.toNat + 1
  /-- Item 2. -/
  width_ge : s.minCodeSize.toNat + 1 ≤ s.codeWidth.toNat
  /-- Item 2. -/
  width_le : s.codeWidth.toNat ≤ 12
  /-- Item 3. -/
  dictSize_ge : s.clearCode.toNat + 2 ≤ s.dictSize.toNat
  dictSize_le : s.dictSize.toNat ≤ s.clearCode.toNat + 2 + s.outLen.toNat
  /-- Item 4, MIN_CODE_SIZE >= 2. -/
  width_grown : 2 ≤ s.minCodeSize.toNat → s.codeWidth.toNat = min 12 (bitLength s.dictSize.toNat)
  /-- Item 4, MIN_CODE_SIZE = 1 (R92). -/
  width_one : s.minCodeSize.toNat = 1 → s.codeWidth.toNat = 2
  /-- R41: the literal singletons. -/
  literal_entry : ∀ c, c < s.clearCode.toNat → dictEntry s c = some (Expansion.literal c)
  /-- Item 5, and item 8's bound for every index an entry can emit. -/
  registered_entry : ∀ c, s.clearCode.toNat + 2 ≤ c → c < s.dictSize.toNat → c < 4096 →
    ∃ e, dictEntry s c = some e ∧ 2 ≤ e.indices.length ∧ e.indices.length ≤ c - s.clearCode.toNat ∧
      ∀ b ∈ e.indices, b.toNat < s.clearCode.toNat
  /-- Item 6: the sentinels. -/
  sentinel_entry : dictEntry s s.clearCode.toNat = none ∧ dictEntry s s.endCode.toNat = none
  /-- Item 6: the codes not registered. -/
  no_entry : ∀ c, s.dictSize.toNat ≤ c ∨ 4096 ≤ c → dictEntry s c = none
  /-- Item 7. -/
  last_entry : s.phase = .normal → ∃ e, dictEntry s s.lastCode.toNat = some e
  /-- Item 8. -/
  output_entry : ∀ j, j < s.outLen.toNat → ∃ b, Memory.read s.obuf j = some b ∧ b.toNat < s.clearCode.toNat

/-- The invariant of the block: every state that reset and steps can reach has it. -/
structure State.Inv (s : State) : Prop where
  configured : s.Configured
  ranged : s.Ranged
  idle : s.phase = .idle → s.LzwIdle
  active : s.phase ≠ .idle → s.LzwActive

/-- A safe end of a step: the block goes on. The spec gives the block no way to stop (R113, R123). -/
def Safe (r : Result) : Prop := ∃ t, r = .next t

/-- The destination rows in decode order: pass 0, 1, 2, 3, each in rising order (R98). -/
def rowsInDecodeOrder (h : Nat) : List Nat :=
  (List.range h).filter (fun d => d % 8 = 0) ++ (List.range h).filter (fun d => d % 8 = 4) ++
    (List.range h).filter (fun d => d % 4 = 2) ++ (List.range h).filter (fun d => d % 2 = 1)

/-- Nothing arrives before the running command is complete, no STATUS read waits (R57 serves it before), and reset is not
asserted. -/
def State.undisturbed (s : State) : Prop :=
  s.env.resetIn = false ∧ Access.read 0x04#32 .word ∉ s.env.stalled ∧ (s.env.inputs = [] ∨ ∃ rest, s.env.inputs = .idle :: rest)

/-- What reading a code has changed before it is processed (R84): the cursor is past it and LZW_CODE holds it. -/
def codeRead (s : State) : State :=
  { s with brPos := BitVec.ofNat 28 (s.brPos.toNat + s.codeWidth.toNat), lzwCode := BitVec.ofNat 12 s.nextCode }

/-- A step is about to read a whole code: ERR = 0, the phase is the one named, and CODE_WIDTH bits are left (R84). -/
def readyForCode (s : State) (p : Phase) : Prop :=
  s.Inv ∧ s.err = false ∧ s.phase = p ∧ s.hasBits s.codeWidth.toNat

/-- The dictionary is that of an initialisation: the literal singletons and nothing else, with its size and width (R80). -/
def reinitialised (s t : State) : Prop :=
  t.dictSize.toNat = s.clearCode.toNat + 2 ∧ t.codeWidth.toNat = s.minCodeSize.toNat + 1 ∧
    ∀ c, dictEntry t c = if c < s.clearCode.toNat then some ⟨BitVec.ofNat 8 c, []⟩ else none

/-- What a dictionary step that succeeds leaves (R82, R83, R84): the sequence `out` appended to the output and no other OBUF byte
touched, the sequence `entry` registered at DICT_SIZE (stored below 4096 only) and no other entry touched, the width grown when
DICT_SIZE reaches `2^CODE_WIDTH` below 12, LAST_CODE the code, everything else as after the read. -/
def emittedAndRegistered (s t : State) (out entry : List Byte) : Prop :=
  t = { codeRead s with
    lastCode := BitVec.ofNat 12 s.nextCode
    outLen := BitVec.ofNat 25 (s.outLen.toNat + out.length), obuf := t.obuf
    dict := t.dict, dictSize := BitVec.ofNat 32 (s.dictSize.toNat + 1)
    codeWidth := if s.dictSize.toNat + 1 = 2 ^ s.codeWidth.toNat ∧ s.codeWidth.toNat < 12
      then BitVec.ofNat 4 (s.codeWidth.toNat + 1) else s.codeWidth } ∧
  (∀ j, Memory.read t.obuf j =
    if s.outLen.toNat ≤ j ∧ j < s.outLen.toNat + out.length then out[j - s.outLen.toNat]? else Memory.read s.obuf j) ∧
  (∀ c, c ≠ s.dictSize.toNat ∨ 4096 ≤ s.dictSize.toNat → dictEntry t c = dictEntry s c) ∧
  (s.dictSize.toNat < 4096 → (dictEntry t s.dictSize.toNat).map Expansion.indices = some entry)

/-- LZW_STEP, issued so many times while a decode is in progress, leads from one state to another where none is (R94). -/
inductive StepsTo : Nat → State → State → Prop where
  | stop (s : State) (h : s.phase.decoding = false) : StepsTo 0 s s
  | step (k : Nat) (s t u : State) (h : s.phase.decoding = true) (one : exec .lzwStep s = .next t)
      (rest : StepsTo k t u) : StepsTo (k + 1) s u

end Sys2Proof.Machine
end

