-- ==== Sys2Proof/Certificates/Slice0/Obligations.lean ====
section
/-! DEFINITION. The statements for the provers: what the commands, the port, the errors and reset do, from the numbered rules
of spec/, and the invariant of R45. Each docstring names the rule it states. -/

open Sys2Proof Sys2Proof.Machine

/-! ### Encoding -/

/-- R64, R66: no bit of a command is lost by its encoding, whatever its ARG. -/
def Obligations.EncodedCommandDecodesToItself : Prop :=
  ∀ i : Instr, decode (encode i) = .ok i

/-- R66, R69: a word has one meaning: it is the encoding of the command it decodes to. -/
def Obligations.DecodedWordIsTheEncodingOfItsCommand : Prop :=
  ∀ (w : Word) (i : Instr), decode w = .ok i → encode i = w

/-- R66, R72: words written out from the opcode map. -/
def Obligations.WordsOfTheOpcodeMapDecode : Prop :=
  decode 0x00000000#32 = .ok .nop ∧ decode 0x00000001#32 = .ok .brRewind ∧ decode 0x00000002#32 = .ok .brReadbit ∧
  decode 0x00000C03#32 = .ok (.brReadbits 12#8) ∧ decode 0x00002003#32 = .ok (.brReadbits 32#8) ∧
  decode 0x00000210#32 = .ok (.lzwInit 2#8) ∧ decode 0x00000810#32 = .ok (.lzwInit 8#8) ∧
  decode 0x00000011#32 = .ok .lzwStep ∧ decode 0x00000012#32 = .ok .lzwRun ∧ decode 0x00000020#32 = .ok .ilRow ∧
  decode 0x00000021#32 = .ok .ilElem ∧ decode 0x00000030#32 = .ok .clrErr

/-- R67: the words that are no command are exactly those of its three cases; issuing one raises ILLEGAL_COMMAND, which changes
only STATUS; an ARG out of range raises BAD_PARAMETER instead. -/
def Obligations.IllegalWordsRaiseIllegalCommand : Prop :=
  (∀ w : Word, (∃ r, decode w = .error r) ↔
    wordRsv w ≠ 0#16 ∨
    wordOp w ∉ [0x00#8, 0x01#8, 0x02#8, 0x03#8, 0x10#8, 0x11#8, 0x12#8, 0x20#8, 0x21#8, 0x30#8] ∨
    wordArg w ≠ 0#8 ∧ wordOp w ∈ [0x00#8, 0x01#8, 0x02#8, 0x11#8, 0x12#8, 0x20#8, 0x21#8, 0x30#8]) ∧
  (∀ (w : Word) (s : State), s.err = false → (∃ r, decode w = .error r) →
    runWord w s = .next ({ s with running := none }.withError .illegalCommand)) ∧
  (∀ (n : BitVec 8) (s : State), s.err = false → 32 < n.toNat →
    runWord (encode (.brReadbits n)) s = .next ({ s with running := none }.withError .badParameter)) ∧
  (∀ (m : BitVec 8) (s : State), s.err = false → m.toNat = 0 ∨ 8 < m.toNat →
    runWord (encode (.lzwInit m)) s = .next ({ s with running := none }.withError .badParameter))

/-! ### Running a command -/

/-- R57, R68: with nothing arriving and no STATUS read waiting, a step runs the command word that was written to CMD to completion, with BUSY back to 0; a
word that encodes a command runs that command. That a command is one step of the model is its choice (log 8). -/
def Obligations.StepRunsTheDecodedCommand : Prop :=
  ∀ (s : State) (w : Word), s.running = some w → s.undisturbed →
    step s = runWord w s ∧ ∀ i : Instr, decode w = .ok i → step s = exec i { s with running := none }

/-- R23: a 32-bit write to CMD starts the command, whatever its strobes; a read returns 0 and starts nothing; a narrower access
is refused. The data of the answer to a write (0) and the count of draws are the model's choices (logs 11 and 14). -/
def Obligations.CmdWriteStartsTheCommand : Prop :=
  ∀ (s : State) (w : Word) (strobes : BitVec 4),
    serve (.write 0x00#32 .word w strobes) s =
      { s with running := some w, env := { s.env with response := some ⟨false, 0#32⟩ } } ∧
    serve (.read 0x00#32 .word) s =
      { s with env := { s.env with response := some ⟨false, 0#32⟩, draws := s.env.draws + 1 } } ∧
    ∀ size, size ≠ .word →
      serve (.write 0x00#32 size w strobes) s = { s with env := { s.env with response := some ⟨true, 0#32⟩ } } ∧
      serve (.read 0x00#32 size) s = { s with env := { s.env with response := some ⟨true, 0#32⟩ } }

/-- R57, R24: while a command runs a STATUS read is served at once and returns BUSY = 1 (its other bits are a free value): the
first one that waits, wherever it stands among the stalled accesses, then the one that arrives; any other access that arrives
waits behind those that already wait. That a narrow or misaligned read of the bytes of STATUS is one of those others is the
model's choice (log 18), and so is the count of draws (log 14). -/
def Obligations.BusyServesStatusReadsAndStallsTheRest : Prop :=
  ∀ (s : State) (w : Word), s.running = some w → s.env.resetIn = false →
    let poll := Access.read 0x04#32 .word
    (∀ before after, s.env.stalled = before ++ poll :: after → poll ∉ before →
      (∀ b rest, s.env.inputs ≠ .reset b :: rest) → ∃ v : BitVec 31, step s = .next
        { s with env := { s.env with
            stalled := before ++ after, response := some ⟨false, v ++ 1#1⟩, draws := s.env.draws + 1 } }) ∧
    (∀ a rest, poll ∉ s.env.stalled → s.env.inputs = .access a :: rest →
      (a = poll → ∃ v : BitVec 31, step s = .next
        { s with env := { s.env with inputs := rest, response := some ⟨false, v ++ 1#1⟩, draws := s.env.draws + 1 } }) ∧
      (a ≠ poll → step s = .next
        { s with env := { s.env with inputs := rest, stalled := s.env.stalled ++ [a] } }))

/-- R57, R58: with BUSY = 0 the stalled accesses are served first, in arrival order, then the access that arrives. -/
def Obligations.StalledAccessesAreServedInArrivalOrder : Prop :=
  ∀ (s : State), s.running = none → s.env.resetIn = false → (∀ b rest, s.env.inputs ≠ .reset b :: rest) →
    (∀ a more, s.env.stalled = a :: more →
      step s = .next (serve a { s with env := { s.env with stalled := more } })) ∧
    (∀ a rest, s.env.stalled = [] → s.env.inputs = .access a :: rest →
      step s = .next (serve a { s with env := { s.env with inputs := rest } }))

/-! ### Errors -/

/-- R111: while ERR = 1 a word whose OP is neither NOP's nor CLR_ERR's is dropped without any effect; port reads (but of STATUS)
and writes are not affected by ERR. -/
def Obligations.CommandsAreDroppedWhileErr : Prop :=
  (∀ (w : Word) (s : State), s.err = true → wordOp w ≠ 0x00#8 → wordOp w ≠ 0x30#8 →
    runWord w s = .next { s with running := none }) ∧
  (∀ (s : State) (b : Bool) (c : ErrCode),
    (∀ r, r ≠ .status → regRead { s with err := b, errcode := c } r = regRead s r) ∧
    (∀ j, obufByte { s with err := b, errcode := c } j = obufByte s j) ∧
    (∀ i, ibufByte { s with err := b, errcode := c } i = ibufByte s i) ∧
    (∀ addr size data strobes, writePort { s with err := b, errcode := c } addr size data strobes =
      (writePort s addr size data strobes).map fun t => { t with err := b, errcode := c }))

/-- R109, R110: raising an error records it if it is the first and keeps the first otherwise; beyond STATUS only PHASE changes,
and only for an error inside an LZW step. -/
def Obligations.FirstErrorIsKept : Prop :=
  ∀ (s : State) (e : ErrCode),
    (s.err = false → raise e .command s = s.withError e ∧ raise e .decodeStep s = s.withDecodeError e) ∧
    (s.err = true → raise e .command s = s ∧ raise e .decodeStep s = { s with phase := .failed })

/-- R105: NOP changes no state, with ERR = 0 and with ERR = 1, and BUSY is 0 after it; a misspelt NOP (ARG or RSV not 0) raises ILLEGAL_COMMAND while
ERR = 0 and changes nothing while ERR = 1. -/
def Obligations.NopChangesNothing : Prop :=
  (∀ s : State, exec .nop s = .next s ∧ runWord 0#32 s = .next { s with running := none }) ∧
  (∀ (w : Word) (s : State), wordOp w = 0x00#8 → w ≠ 0#32 →
    runWord w s = .next (if s.err then { s with running := none } else { s with running := none }.withError .illegalCommand))

/-- R106: CLR_ERR clears ERR and ERRCODE and leaves everything else, PHASE included; a failed decode is then not resumed; a
misspelt CLR_ERR raises ILLEGAL_COMMAND while ERR = 0 and changes nothing while ERR = 1. -/
def Obligations.ClrErrClearsOnlyTheError : Prop :=
  (∀ s : State, exec .clrErr s = .next { s with err := false, errcode := .none }) ∧
  (∀ s : State, s.err = false → s.errcode = .none → exec .clrErr s = .next s) ∧
  (∀ s : State, s.phase = .failed → ∀ i, i = .lzwStep ∨ i = .lzwRun →
    exec i { s with err := false, errcode := .none } = .next (s.withError .sequenceError)) ∧
  (∀ (w : Word) (s : State), wordOp w = 0x30#8 → w ≠ 0x30#32 →
    runWord w s = .next (if s.err then { s with running := none } else { s with running := none }.withError .illegalCommand))

/-! ### The bit reader -/

/-- R75: BR_REWIND sets the cursor to the start of the stream, in every phase, and changes nothing else. -/
def Obligations.BrRewindSetsTheCursorToTheStart : Prop :=
  ∀ s : State, s.err = false → exec .brRewind s = .next { s with brPos := 0#28 }

/-- R76: BR_READBIT returns the next bit, bit `p mod 8` of `IBUF[p / 8]`, and advances the cursor by one; with no bit left it
raises OUT_OF_DATA and changes nothing else. -/
def Obligations.BrReadbitReturnsTheNextBit : Prop :=
  ∀ s : State, s.err = false →
    (s.hasBits 1 → exec .brReadbit s = .next
      { s with
        result := if (ibufByte s (s.brPos.toNat / 8)).getLsbD (s.brPos.toNat % 8) then 1#32 else 0#32
        brPos := BitVec.ofNat 28 (s.brPos.toNat + 1) }) ∧
    (¬ s.hasBits 1 → exec .brReadbit s = .next (s.withError .outOfData))

/-- R77, R49: BR_READBITS n returns `floor(S / 2^p) mod 2^n`, S the stream as one little-endian integer, and advances the cursor
by n; BAD_PARAMETER for n > 32 and OUT_OF_DATA past the end change STATUS only. -/
def Obligations.BrReadbitsReturnsTheStreamField : Prop :=
  ∀ (s : State) (n : BitVec 8), s.err = false →
    (n.toNat ≤ 32 → s.hasBits n.toNat → exec (.brReadbits n) s = .next
      { s with
        result := BitVec.ofNat 32 (streamInteger s.stream / 2 ^ s.brPos.toNat % 2 ^ n.toNat)
        brPos := BitVec.ofNat 28 (s.brPos.toNat + n.toNat) }) ∧
    (n.toNat ≤ 32 → ¬ s.hasBits n.toNat → exec (.brReadbits n) s = .next (s.withError .outOfData)) ∧
    (32 < n.toNat → exec (.brReadbits n) s = .next (s.withError .badParameter))

/-- R78: two consecutive reads give together what one read of both widths gives, and end at the same cursor. -/
def Obligations.ConsecutiveReadsJoin : Prop :=
  ∀ (s : State) (a b : BitVec 8), s.err = false → a.toNat + b.toNat ≤ 32 → s.hasBits (a.toNat + b.toNat) →
    ∃ t u v : State, exec (.brReadbits a) s = .next t ∧ exec (.brReadbits b) t = .next u ∧
      exec (.brReadbits (a + b)) s = .next v ∧ u.brPos = v.brPos ∧
      t.result.toNat + 2 ^ a.toNat * u.result.toNat = v.result.toNat

/-! ### The LZW decoder -/

/-- R81: LZW_INIT m sets every register of the decode, the literal singletons and no other entry, and leaves everything else;
m = 0 or m > 8 raises BAD_PARAMETER and changes STATUS only. -/
def Obligations.LzwInitStartsADecode : Prop :=
  ∀ (s : State) (m : BitVec 8), s.err = false →
    (1 ≤ m.toNat → m.toNat ≤ 8 → ∃ t : State, exec (.lzwInit m) s = .next t ∧
      t = { s with
        minCodeSize := BitVec.ofNat 4 m.toNat, codeWidth := BitVec.ofNat 4 (m.toNat + 1)
        clearCode := BitVec.ofNat 9 (2 ^ m.toNat), endCode := BitVec.ofNat 9 (2 ^ m.toNat + 1)
        dictSize := BitVec.ofNat 32 (2 ^ m.toNat + 2), dict := t.dict
        brPos := 0#28, outLen := 0#25, lastCode := 0#12, lzwCode := 0#12, phase := .literal } ∧
      ∀ c, dictEntry t c = if c < 2 ^ m.toNat then some ⟨BitVec.ofNat 8 c, []⟩ else none) ∧
    (m.toNat = 0 ∨ 8 < m.toNat → exec (.lzwInit m) s = .next (s.withError .badParameter))

/-- R84: LZW_STEP and LZW_RUN outside phases LITERAL and NORMAL raise SEQUENCE_ERROR and change STATUS only. -/
def Obligations.StepsOutsideADecodeRaiseSequenceError : Prop :=
  ∀ (s : State) (i : Instr), s.err = false → i = .lzwStep ∨ i = .lzwRun → s.phase ∉ [.literal, .normal] →
    exec i s = .next (s.withError .sequenceError)

/-- R84, R110: LZW_STEP with fewer than CODE_WIDTH bits left raises OUT_OF_DATA; the cursor and LZW_CODE stay, PHASE is FAILED. -/
def Obligations.LzwStepOutOfData : Prop :=
  ∀ s : State, s.err = false → s.phase = .literal ∨ s.phase = .normal → ¬ s.hasBits s.codeWidth.toNat →
    exec .lzwStep s = .next (s.withDecodeError .outOfData)

/-- R85, R84: one code in phase LITERAL: a Clear Code reinitialises and stays LITERAL, an End Code ends the decode, a literal is
emitted (or overflows), becomes LAST_CODE and registers nothing, a code above END_CODE is corrupt. -/
def Obligations.LzwStepLiteralPosition : Prop :=
  ∀ s : State, readyForCode s .literal →
    (s.nextCode = s.clearCode.toNat → ∃ t, exec .lzwStep s = .next t ∧ reinitialised s t ∧
      t = { codeRead s with dict := t.dict, dictSize := t.dictSize, codeWidth := t.codeWidth }) ∧
    (s.nextCode = s.endCode.toNat → exec .lzwStep s = .next { codeRead s with phase := .done }) ∧
    (s.nextCode < s.clearCode.toNat → s.outLen.toNat + 1 ≤ s.obufCap.toNat → ∃ t, exec .lzwStep s = .next t ∧
      t = { codeRead s with
        lastCode := BitVec.ofNat 12 s.nextCode, phase := .normal, outLen := BitVec.ofNat 25 (s.outLen.toNat + 1), obuf := t.obuf } ∧
      (∀ j, Memory.read t.obuf j =
        if j = s.outLen.toNat then some (BitVec.ofNat 8 s.nextCode) else Memory.read s.obuf j)) ∧
    (s.nextCode < s.clearCode.toNat → s.obufCap.toNat < s.outLen.toNat + 1 →
      exec .lzwStep s = .next ((codeRead s).withDecodeError .outputOverflow)) ∧
    (s.endCode.toNat < s.nextCode → exec .lzwStep s = .next ((codeRead s).withDecodeError .corruptStream))

/-- R86: in phase NORMAL an End Code terminates the decode; nothing is registered or emitted. -/
def Obligations.LzwStepEndCodeTerminates : Prop :=
  ∀ s : State, readyForCode s .normal → s.nextCode = s.endCode.toNat →
    exec .lzwStep s = .next { codeRead s with phase := .done }

/-- R87: in phase NORMAL a Clear Code reinitialises and sets PHASE = LITERAL; nothing is emitted, OUT_LEN and LAST_CODE stay. -/
def Obligations.LzwStepClearCodeReinitialises : Prop :=
  ∀ s : State, readyForCode s .normal → s.nextCode = s.clearCode.toNat →
    ∃ t, exec .lzwStep s = .next t ∧ reinitialised s t ∧
      t = { codeRead s with phase := .literal, dict := t.dict, dictSize := t.dictSize, codeWidth := t.codeWidth }

/-- R88: in phase NORMAL a code below DICT_SIZE that is no sentinel has an entry; its expansion is emitted, and LAST_CODE's
expansion followed by its first index is registered. -/
def Obligations.LzwStepKnownCode : Prop :=
  ∀ s : State, readyForCode s .normal → s.nextCode ≠ s.clearCode.toNat → s.nextCode ≠ s.endCode.toNat →
    s.nextCode < s.dictSize.toNat →
    ∃ e l : Expansion, dictEntry s s.nextCode = some e ∧ dictEntry s s.lastCode.toNat = some l ∧
      (s.outLen.toNat + e.indices.length ≤ s.obufCap.toNat → ∃ t, exec .lzwStep s = .next t ∧
        emittedAndRegistered s t e.indices (l.indices ++ [e.first])) ∧
      (s.obufCap.toNat < s.outLen.toNat + e.indices.length →
        exec .lzwStep s = .next ((codeRead s).withDecodeError .outputOverflow))

/-- R89: in phase NORMAL the code DICT_SIZE, which is then at most 4095: LAST_CODE's expansion followed by its own first index is
emitted and registered. -/
def Obligations.LzwStepCodeAboutToBeDefined : Prop :=
  ∀ s : State, readyForCode s .normal → s.nextCode = s.dictSize.toNat →
    s.dictSize.toNat ≤ 4095 ∧ ∃ l : Expansion, dictEntry s s.lastCode.toNat = some l ∧
      (s.outLen.toNat + l.indices.length + 1 ≤ s.obufCap.toNat → ∃ t, exec .lzwStep s = .next t ∧
        emittedAndRegistered s t (l.indices ++ [l.first]) (l.indices ++ [l.first])) ∧
      (s.obufCap.toNat < s.outLen.toNat + l.indices.length + 1 →
        exec .lzwStep s = .next ((codeRead s).withDecodeError .outputOverflow))

/-- R90, R112: in phase NORMAL a code above DICT_SIZE raises CORRUPT_STREAM, whatever room OBUF has; LZW_CODE keeps the code. -/
def Obligations.LzwStepCorruptCode : Prop :=
  ∀ s : State, readyForCode s .normal → s.dictSize.toNat < s.nextCode →
    exec .lzwStep s = .next ((codeRead s).withDecodeError .corruptStream)

/-- R91: a step changes CODE_WIDTH only by an initialisation (to MIN_CODE_SIZE + 1) or by a registration that makes DICT_SIZE
equal `2^CODE_WIDTH` below 12 (by one), and it never exceeds 12. -/
def Obligations.CodeWidthChangesOnlyByInitOrGrowth : Prop :=
  ∀ s t : State, s.Inv → exec .lzwStep s = .next t →
    t.codeWidth.toNat ≤ 12 ∧
    (t.codeWidth ≠ s.codeWidth →
      (s.nextCode = s.clearCode.toNat ∧ t.codeWidth.toNat = s.minCodeSize.toNat + 1) ∨
      (t.dictSize.toNat = s.dictSize.toNat + 1 ∧ t.dictSize.toNat = 2 ^ s.codeWidth.toNat ∧ s.codeWidth.toNat < 12 ∧
        t.codeWidth.toNat = s.codeWidth.toNat + 1))

/-- R92: with MIN_CODE_SIZE = 1 every code is read at width 2, so only 0 to 3 can be read; a code 0 or 1 in phase NORMAL emits
that one index, registers an entry, and leaves the width at 2. -/
def Obligations.MinimumCodeSizeOneStaysAtWidthTwo : Prop :=
  ∀ s : State, readyForCode s .normal → s.minCodeSize = 1#4 →
    s.codeWidth = 2#4 ∧ s.nextCode < 4 ∧ s.clearCode = 2#9 ∧ s.endCode = 3#9 ∧
    (s.nextCode < 2 → s.outLen.toNat + 1 ≤ s.obufCap.toNat → ∃ t, exec .lzwStep s = .next t ∧ t.codeWidth = 2#4 ∧
      t.dictSize.toNat = s.dictSize.toNat + 1 ∧ t.outLen.toNat = s.outLen.toNat + 1 ∧
      Memory.read t.obuf s.outLen.toNat = some (BitVec.ofNat 8 s.nextCode))

/-- R93: once DICT_SIZE >= 4096 (MIN_CODE_SIZE >= 2) the width is 12 and every code read is below DICT_SIZE; a code that is no
sentinel emits its expansion, counts in DICT_SIZE and stores no entry. -/
def Obligations.FullDictionaryStoresNothing : Prop :=
  ∀ s : State, readyForCode s .normal → 2 ≤ s.minCodeSize.toNat → 4096 ≤ s.dictSize.toNat →
    s.codeWidth = 12#4 ∧ s.nextCode < s.dictSize.toNat ∧
    (s.nextCode ≠ s.clearCode.toNat → s.nextCode ≠ s.endCode.toNat →
      ∃ e l : Expansion, dictEntry s s.nextCode = some e ∧ dictEntry s s.lastCode.toNat = some l ∧
        (s.outLen.toNat + e.indices.length ≤ s.obufCap.toNat → ∃ t, exec .lzwStep s = .next t ∧
          emittedAndRegistered s t e.indices (l.indices ++ [e.first]) ∧ t.dict = s.dict ∧ t.codeWidth = 12#4))

/-- R94, R95: LZW_RUN in a decode is LZW_STEP issued until PHASE leaves LITERAL and NORMAL, which takes at most
`floor(8*BUF_LEN/2) + 1` steps. -/
def Obligations.LzwRunIsRepeatedLzwStep : Prop :=
  ∀ s : State, s.Inv → s.err = false → s.phase = .literal ∨ s.phase = .normal →
    ∃ k t, StepsTo k s t ∧ k ≤ 8 * s.bufLen.toNat / 2 + 1 ∧ exec .lzwRun s = .next t

/-- R135: an LZW_RUN in a decode completes with PHASE = DONE and no error, or with PHASE = FAILED and ERR = 1. -/
def Obligations.LzwRunEndsDoneOrFailed : Prop :=
  ∀ s : State, s.Inv → s.err = false → s.phase = .literal ∨ s.phase = .normal →
    ∃ t, exec .lzwRun s = .next t ∧
      (t.phase = .done ∧ t.err = false ∨
        t.phase = .failed ∧ t.err = true ∧ t.errcode ∈ [.outOfData, .corruptStream, .outputOverflow])

/-- R96, R79, under decision D12 for a code in a literal position that is no literal (the source does not cover it): LZW_INIT m
and LZW_RUN decode the stream as the source's §4.2 loop does: the same output, the same error, or an OUTPUT_OVERFLOW when the
source's output does not fit in OBUF. -/
def Obligations.DecodeIsTheSourceLoop : Prop :=
  ∀ (s : State) (m : BitVec 8), s.Inv → s.err = false → 1 ≤ m.toNat → m.toNat ≤ 8 →
    ∃ t u : State, exec (.lzwInit m) s = .next t ∧ exec .lzwRun t = .next u ∧
      (u.phase = .done ∧ u.err = false ∧ sourceDecode m.toNat s.stream = some (.output u.output) ∨
       u.errcode = .corruptStream ∧ sourceDecode m.toNat s.stream = some .corruptStream ∨
       u.errcode = .outOfData ∧ sourceDecode m.toNat s.stream = some .outOfData ∨
       u.errcode = .outputOverflow ∧
         ∀ xs, sourceDecode m.toNat s.stream = some (.output xs) → s.obufCap.toNat < xs.length)

/-- R96, R127, under decision D12: a stream that the source's loop decodes to an output that fits in OBUF is decoded by LZW_INIT m and LZW_RUN to
PHASE = DONE with that output. -/
def Obligations.LzwRunCompletesOnAGoodStream : Prop :=
  ∀ (s : State) (m : BitVec 8) (xs : List Byte), s.Inv → s.err = false → 1 ≤ m.toNat → m.toNat ≤ 8 →
    sourceDecode m.toNat s.stream = some (.output xs) → xs.length ≤ s.obufCap.toNat →
    ∃ t u : State, exec (.lzwInit m) s = .next t ∧ exec .lzwRun t = .next u ∧
      u.phase = .done ∧ u.err = false ∧ u.output = xs

/-- R132, R82: no command but LZW_INIT lowers OUT_LEN or changes an index already emitted. -/
def Obligations.EmittedOutputIsFinal : Prop :=
  ∀ (i : Instr) (s t : State), (∀ m, i ≠ .lzwInit m) → exec i s = .next t →
    s.outLen.toNat ≤ t.outLen.toNat ∧ ∀ j, j < s.outLen.toNat → Memory.read t.obuf j = Memory.read s.obuf j

/-! ### The interlace mapper -/

/-- R101, R98: IL_ROW returns the destination of the decoded row: with INTERLACE the row at that place of the four passes, else
the row itself; RANGE_ERROR when IL_INDEX >= IL_HEIGHT. -/
def Obligations.IlRowMapsTheDecodedRow : Prop :=
  ∀ s : State, s.err = false →
    (s.ilIndex.toNat < s.ilHeight.toNat → ∃ d, (rowsInDecodeOrder s.ilHeight.toNat)[s.ilIndex.toNat]? = some d ∧
      exec .ilRow s = .next { s with result := if s.interlace then BitVec.ofNat 32 d else s.ilIndex }) ∧
    (s.ilHeight.toNat ≤ s.ilIndex.toNat → exec .ilRow s = .next (s.withError .rangeError))

/-- R102: IL_ELEM moves the element's row as IL_ROW does and keeps its column; RANGE_ERROR when IL_INDEX >= W*H. -/
def Obligations.IlElemMovesTheRowAndKeepsTheColumn : Prop :=
  ∀ s : State, s.err = false →
    (s.ilIndex.toNat < s.ilWidth.toNat * s.ilHeight.toNat →
      ∃ d, (rowsInDecodeOrder s.ilHeight.toNat)[s.ilIndex.toNat / s.ilWidth.toNat]? = some d ∧ ∃ v : Word,
        exec .ilElem s = .next { s with result := v } ∧
        v.toNat = if s.interlace then d * s.ilWidth.toNat + s.ilIndex.toNat % s.ilWidth.toNat else s.ilIndex.toNat) ∧
    (s.ilWidth.toNat * s.ilHeight.toNat ≤ s.ilIndex.toNat → exec .ilElem s = .next (s.withError .rangeError))

/-- R99: the count of each pass is the number of its rows below the height, and the four counts sum to it. -/
def Obligations.PassCountsSplitTheFrame : Prop :=
  ∀ h : Nat, h ≤ 65535 →
    passCount ⟨0, 8⟩ h = ((List.range h).filter fun d => d % 8 = 0).length ∧
    passCount ⟨4, 8⟩ h = ((List.range h).filter fun d => d % 8 = 4).length ∧
    passCount ⟨2, 4⟩ h = ((List.range h).filter fun d => d % 4 = 2).length ∧
    passCount ⟨1, 2⟩ h = ((List.range h).filter fun d => d % 2 = 1).length ∧
    passCount ⟨0, 8⟩ h + passCount ⟨4, 8⟩ h + passCount ⟨2, 4⟩ h + passCount ⟨1, 2⟩ h = h

/-- R100: the destination row is a bijection of the rows of the frame, with row 0 at row 0; and its values for 8 rows. -/
def Obligations.DestinationRowIsABijection : Prop :=
  ∀ h : Nat, h ≤ 65535 →
    (∀ r, r < h → ilDest r h < h) ∧
    (∀ r r', r < h → r' < h → ilDest r h = ilDest r' h → r = r') ∧
    (∀ d, d < h → ∃ r, r < h ∧ ilDest r h = d) ∧ (1 ≤ h → ilDest 0 h = 0) ∧
    (h = 8 → (List.range h).map (fun r => ilDest r h) = [0, 4, 2, 6, 1, 3, 5, 7])

/-- R103: scattering by IL_ELEM writes every destination element of the frame exactly once. -/
def Obligations.ScatterWritesEveryElementOnce : Prop :=
  ∀ (s : State) (d : Nat), s.err = false → d < s.ilWidth.toNat * s.ilHeight.toNat →
    ∃ i : Word, i.toNat < s.ilWidth.toNat * s.ilHeight.toNat ∧
      exec .ilElem { s with ilIndex := i } = .next { s with ilIndex := i, result := BitVec.ofNat 32 d } ∧
      ∀ j : Word, j.toNat < s.ilWidth.toNat * s.ilHeight.toNat →
        exec .ilElem { s with ilIndex := j } = .next { s with ilIndex := j, result := BitVec.ofNat 32 d } → j = i

/-! ### Whole-machine rules -/

/-- R19 (its "written by" column), R73, R104: what each command leaves unchanged when it completes. -/
def Obligations.EachCommandWritesOnlyItsUnitsState : Prop :=
  ∀ (i : Instr) (s t : State), exec i s = .next t →
    (t.ibufCap = s.ibufCap ∧ t.obufCap = s.obufCap ∧ t.ibuf = s.ibuf ∧ t.running = s.running ∧ t.bufLen = s.bufLen ∧
      t.ilWidth = s.ilWidth ∧ t.ilHeight = s.ilHeight ∧ t.interlace = s.interlace ∧ t.ilIndex = s.ilIndex ∧ t.env = s.env) ∧
    ((∀ m, i ≠ .lzwInit m) → i ≠ .lzwStep → i ≠ .lzwRun →
      t.obuf = s.obuf ∧ t.dict = s.dict ∧ t.phase = s.phase ∧ t.minCodeSize = s.minCodeSize ∧ t.codeWidth = s.codeWidth ∧
      t.clearCode = s.clearCode ∧ t.endCode = s.endCode ∧ t.dictSize = s.dictSize ∧ t.lastCode = s.lastCode ∧
      t.lzwCode = s.lzwCode ∧ t.outLen = s.outLen) ∧
    (i ≠ .brReadbit → (∀ n, i ≠ .brReadbits n) → i ≠ .ilRow → i ≠ .ilElem → t.result = s.result) ∧
    (i = .nop ∨ i = .clrErr ∨ i = .ilRow ∨ i = .ilElem → t.brPos = s.brPos) ∧
    (i ≠ .clrErr → s.err = true → t.err = true ∧ t.errcode = s.errcode)

/-- R19 (its "written by" column), R56, R123: a served access, whatever it is, changes nothing that only the block writes. -/
def Obligations.AccessesWriteOnlyHostState : Prop :=
  ∀ (a : Access) (s : State),
    let t := serve a s
    t.obuf = s.obuf ∧ t.dict = s.dict ∧ t.err = s.err ∧ t.errcode = s.errcode ∧ t.phase = s.phase ∧ t.result = s.result ∧
    t.brPos = s.brPos ∧ t.minCodeSize = s.minCodeSize ∧ t.codeWidth = s.codeWidth ∧ t.clearCode = s.clearCode ∧
    t.endCode = s.endCode ∧ t.dictSize = s.dictSize ∧ t.lastCode = s.lastCode ∧ t.lzwCode = s.lzwCode ∧
    t.outLen = s.outLen ∧ t.ibufCap = s.ibufCap ∧ t.obufCap = s.obufCap

/-- R25: only LZW_INIT (to LITERAL), LZW_STEP and LZW_RUN, and reset (to IDLE) change PHASE. -/
def Obligations.PhaseChangesOnlyByDecodeCommandsAndReset : Prop :=
  ∀ s t : State, step s = .next t → t.phase ≠ s.phase →
    (t.phase = .idle ∧ ∃ rest, s.env.inputs = .reset true :: rest) ∨
    ∃ w, s.running = some w ∧
      ((t.phase = .literal ∧ ∃ m, decode w = .ok (.lzwInit m)) ∨ decode w = .ok .lzwStep ∨ decode w = .ok .lzwRun)

/-- R26: once ERR is set it stays set, with its ERRCODE, until CLR_ERR or reset. -/
def Obligations.ErrIsClearedOnlyByClrErrOrReset : Prop :=
  ∀ s t : State, step s = .next t → s.err = true →
    (t.err = true ∧ t.errcode = s.errcode) ∨ (∃ rest, s.env.inputs = .reset true :: rest) ∨
    ∃ w, s.running = some w ∧ decode w = .ok .clrErr

/-- R9, R19: no step of the block changes the capacities it was built with. -/
def Obligations.CapacitiesNeverChange : Prop :=
  ∀ s t : State, step s = .next t → t.ibufCap = s.ibufCap ∧ t.obufCap = s.obufCap

/-! ### The port -/

/-- R24, R25, R107: the fields of STATUS while BUSY = 0: BUSY [0] = 0, ERR [1], ERRCODE [7:4], PHASE [10:8], the rest 0. -/
def Obligations.StatusFieldsStandWhereTheSpecPutsThem : Prop :=
  ∀ s : State, s.running = none →
    let v := regRead s .status
    v.getLsbD 0 = false ∧ v.getLsbD 1 = s.err ∧ v.extractLsb' 2 2 = 0#2 ∧
    v.extractLsb' 4 4 = (match s.errcode with
      | .none => 0#4 | .outOfData => 1#4 | .corruptStream => 2#4 | .illegalCommand => 3#4
      | .badParameter => 4#4 | .sequenceError => 5#4 | .outputOverflow => 6#4 | .rangeError => 7#4) ∧
    v.extractLsb' 8 3 = (match s.phase with
      | .idle => 0#3 | .literal => 1#3 | .normal => 2#3 | .done => 3#3 | .failed => 4#3) ∧
    v.extractLsb' 11 21 = 0#21

/-- R29, R30: the fields of BR_POS and LZW_CFG. -/
def Obligations.CursorAndConfigFieldsStandWhereTheSpecPutsThem : Prop :=
  ∀ s : State,
    (regRead s .brPos).extractLsb' 0 3 = BitVec.ofNat 3 (s.brPos.toNat % 8) ∧
    (regRead s .brPos).extractLsb' 3 25 = BitVec.ofNat 25 (s.brPos.toNat / 8) ∧
    (regRead s .brPos).extractLsb' 28 4 = 0#4 ∧
    (regRead s .lzwCfg).extractLsb' 0 4 = s.minCodeSize ∧ (regRead s .lzwCfg).extractLsb' 4 4 = s.codeWidth ∧
    (regRead s .lzwCfg).extractLsb' 8 9 = s.clearCode ∧ (regRead s .lzwCfg).extractLsb' 17 9 = s.endCode ∧
    (regRead s .lzwCfg).extractLsb' 26 6 = 0#6

/-- R28: a write of `v` to BUF_LEN stores `min(v, IBUF_CAP)`, a read returns the stored value, no command writes it, and reset
leaves 0. That a write stores the whole value whatever its strobes (log 10), and the data of its answer, 0 (log 11), are the
model's choices. -/
def Obligations.BufLenIsClippedToTheCapacity : Prop :=
  (∀ (s : State) (v : Word) (strobes : BitVec 4), ∃ t, serve (.write 0x0C#32 .word v strobes) s = t ∧
    t.bufLen.toNat = min v.toNat s.ibufCap.toNat ∧ t.env.response = some ⟨false, 0#32⟩ ∧
    t = { s with bufLen := t.bufLen, env := { s.env with response := t.env.response } }) ∧
  (∀ s : State, (serve (.read 0x0C#32 .word) s).env.response = some ⟨false, s.bufLen.setWidth 32⟩) ∧
  (∀ (i : Instr) (s t : State), exec i s = .next t → t.bufLen = s.bufLen) ∧ State.reset.bufLen = 0#25

/-- R35 to R38: IL_WIDTH and IL_HEIGHT store bits [15:0], IL_CTRL bit [0], IL_INDEX all 32; the reserved bits read 0.
That a write stores the whole field whatever its strobes (log 10), and the data of its answer, 0 (log 11), are the model's
choices. -/
def Obligations.InterlaceRegistersStoreTheirFields : Prop :=
  ∀ (s : State) (v : Word) (strobes : BitVec 4),
    let ok := { s.env with response := some ⟨false, 0#32⟩ }
    serve (.write 0x28#32 .word v strobes) s = { s with ilWidth := v.extractLsb' 0 16, env := ok } ∧
    serve (.write 0x2C#32 .word v strobes) s = { s with ilHeight := v.extractLsb' 0 16, env := ok } ∧
    serve (.write 0x30#32 .word v strobes) s = { s with interlace := v.getLsbD 0, env := ok } ∧
    serve (.write 0x34#32 .word v strobes) s = { s with ilIndex := v, env := ok } ∧
    (regRead s .ilWidth).toNat = s.ilWidth.toNat ∧ (regRead s .ilHeight).toNat = s.ilHeight.toNat ∧
    (regRead s .ilCtrl).toNat = s.interlace.toNat ∧ regRead s .ilIndex = s.ilIndex

/-- R52, R22: the register window serves aligned 32-bit accesses only; any other gets ERROR, data 0 and no effect; a write to a
read-only register gets OK and is ignored. The data of the answer to a write (0) is the model's choice (log 11). -/
def Obligations.RegisterWindowServesAlignedWordsOnly : Prop :=
  (∀ (s : State) (addr : Word) (size : Size) (v : Word) (strobes : BitVec 4), addr.toNat < 0x40 →
    size ≠ .word ∨ addr.toNat % 4 ≠ 0 →
    let refused := { s with env := { s.env with response := some ⟨true, 0#32⟩ } }
    serve (.read addr size) s = refused ∧ serve (.write addr size v strobes) s = refused) ∧
  (∀ (s : State) (r : Reg) (v : Word) (strobes : BitVec 4),
    (serve (.read (BitVec.ofNat 32 r.offset) .word) s).env.response = some ⟨false, regRead s r⟩ ∧
    (r ∈ [.status, .result, .brPos, .lzwCfg, .dictSize, .lastCode, .lzwCode, .outLen, .ibufCapReg, .obufCapReg] →
      serve (.write (BitVec.ofNat 32 r.offset) .word v strobes) s =
        { s with env := { s.env with response := some ⟨false, 0#32⟩ } }))

/-- R53, R50: an aligned write inside IBUF stores the strobed addressed bytes from their lanes and leaves every other byte of
IBUF, and everything but IBUF; any other write to the IBUF window gets ERROR and has no effect. The data of the answer to a
write (0) is the model's choice (log 11). -/
def Obligations.IbufWriteStoresTheStrobedBytes : Prop :=
  ∀ (s : State) (off : Nat) (size : Size) (data : Word) (strobes : BitVec 4), off < 2 ^ 24 →
    let addr := BitVec.ofNat 32 (0x01000000 + off)
    (off % size.bytes = 0 → off + size.bytes ≤ s.ibufCap.toNat →
      ∃ t, serve (.write addr size data strobes) s = t ∧
        t = { s with ibuf := t.ibuf, env := { s.env with response := some ⟨false, 0#32⟩ } } ∧
        ∀ i, Memory.read t.ibuf i =
          if off ≤ i ∧ i < off + size.bytes ∧ strobes.getLsbD (i % 4) then some (data.extractLsb' (8 * (i % 4)) 8)
          else Memory.read s.ibuf i) ∧
    (off % size.bytes ≠ 0 ∨ s.ibufCap.toNat < off + size.bytes →
      serve (.write addr size data strobes) s = { s with env := { s.env with response := some ⟨true, 0#32⟩ } })

/-- R50, R53: an aligned read inside IBUF returns its bytes, the lowest address lowest; any other read of the IBUF window gets
ERROR and data 0. That the value of a narrow read is right-justified, whatever its lanes, is the model's choice (log 9). -/
def Obligations.IbufReadReturnsItsBytes : Prop :=
  ∀ (s : State) (off : Nat) (size : Size), off < 2 ^ 24 →
    let addr := BitVec.ofNat 32 (0x01000000 + off)
    (off % size.bytes = 0 → off + size.bytes ≤ s.ibufCap.toNat → ∃ v : Word,
      (serve (.read addr size) s).env.response = some ⟨false, v⟩ ∧
      v.toNat = streamInteger ((List.range size.bytes).map fun i => ibufByte s (off + i))) ∧
    (off % size.bytes ≠ 0 ∨ s.ibufCap.toNat < off + size.bytes →
      serve (.read addr size) s = { s with env := { s.env with response := some ⟨true, 0#32⟩ } })

/-- R54: every write to the OBUF window gets ERROR and has no effect; an aligned read inside OBUF returns the emitted index on
each lane below OUT_LEN (a lane at or beyond it holds a free value); any other read gets ERROR and data 0. That byte `i` of an answer stands at bits
`8*i` whatever its address (log 9), and the data of the answer to a refused write, 0 (log 11), are the model's choices. -/
def Obligations.ObufIsReadOnly : Prop :=
  ∀ (s : State) (off : Nat) (size : Size), off < 2 ^ 24 →
    let addr := BitVec.ofNat 32 (0x02000000 + off)
    let refused := { s with env := { s.env with response := some ⟨true, 0#32⟩ } }
    (∀ data strobes, serve (.write addr size data strobes) s = refused) ∧
    (off % size.bytes = 0 → off + size.bytes ≤ s.obufCap.toNat → ∃ v : Word,
      (serve (.read addr size) s).env.response = some ⟨false, v⟩ ∧
      ∀ i b, i < size.bytes → off + i < s.outLen.toNat → Memory.read s.obuf (off + i) = some b →
        v.extractLsb' (8 * i) 8 = b) ∧
    (off % size.bytes ≠ 0 ∨ s.obufCap.toNat < off + size.bytes → serve (.read addr size) s = refused)

/-- R47, D25: an access at an address outside the three windows gets ERROR and no effect, and a read of this kind returns 0.
That the answer to such a write has data 0 too is the model's choice (log 11). -/
def Obligations.UnmappedAccessesAreRefused : Prop :=
  ∀ (s : State) (addr : Word) (size : Size) (v : Word) (strobes : BitVec 4), s.Inv →
    (0x40 ≤ addr.toNat ∧ addr.toNat < 0x01000000 ∨
      0x01000000 + s.ibufCap.toNat ≤ addr.toNat ∧ addr.toNat < 0x02000000 ∨
      0x02000000 + s.obufCap.toNat ≤ addr.toNat) →
    let refused := { s with env := { s.env with response := some ⟨true, 0#32⟩ } }
    serve (.read addr size) s = refused ∧ serve (.write addr size v strobes) s = refused

/-- R51, R50: a 32-bit write to IBUF followed by 8-bit reads returns the four bytes in lane order. That each 8-bit answer
stands in bits 7:0 with zeros above, whatever its lane, is the model's choice (log 9). -/
def Obligations.MixedWidthViewsAgree : Prop :=
  ∀ (s : State) (k : Nat) (v : Word) (i : Nat), 4 * k + 4 ≤ s.ibufCap.toNat → s.ibufCap.toNat ≤ 2 ^ 24 → i < 4 →
    (serve (.read (ibufAddr (4 * k + i)) .byte) (serve (memWrite (ibufAddr (4 * k)) .word v) s)).env.response =
      some ⟨false, (v.extractLsb' (8 * i) 8).setWidth 32⟩

/-- R56: no read has a side effect: nothing but the port's answer (and the model's counter of free values, log 14) changes. -/
def Obligations.ReadsHaveNoSideEffect : Prop :=
  ∀ (s : State) (addr : Word) (size : Size), ∃ r n,
    serve (.read addr size) s = { s with env := { s.env with response := some r, draws := n } }

/-! ### Reset -/

/-- R124, R125: asserting reset abandons the running command and gives every register its reset value; stalled accesses stay
stalled and the capacities stay. That a stalled access outlives a reset is the model's choice (log 12). -/
def Obligations.ResetGivesEveryRegisterItsResetValue : Prop :=
  ∀ (s : State) (rest : List Input), s.env.inputs = .reset true :: rest →
    ∃ t, step s = .next t ∧ t.running = none ∧ t.ibufCap = s.ibufCap ∧ t.obufCap = s.obufCap ∧
      t.env.resetIn = true ∧ t.env.stalled = s.env.stalled ∧ t.env.inputs = rest ∧
      ∀ r, r ≠ .ibufCapReg → r ≠ .obufCapReg → regRead t r = 0#32

/-- R124: while reset is asserted no access is served: it stalls; deasserting it changes nothing but the reset input. -/
def Obligations.NothingIsServedDuringReset : Prop :=
  ∀ (s : State) (rest : List Input), s.env.resetIn = true →
    (∀ a, s.env.inputs = .access a :: rest →
      step s = .next { s with env := { s.env with inputs := rest, stalled := s.env.stalled ++ [a] } }) ∧
    (s.env.inputs = .reset false :: rest → step s = .next { s with env := { s.env with inputs := rest, resetIn := false } })

/-- R126: the commands right after reset, with BUF_LEN = 0 and PHASE = IDLE. -/
def Obligations.CommandsRightAfterReset : Prop :=
  exec .brReadbit State.reset = .next (State.reset.withError .outOfData) ∧
  exec (.brReadbits 0#8) State.reset = .next State.reset ∧
  exec .lzwStep State.reset = .next (State.reset.withError .sequenceError) ∧
  exec .lzwRun State.reset = .next (State.reset.withError .sequenceError) ∧
  exec .ilRow State.reset = .next (State.reset.withError .rangeError) ∧
  exec .ilElem State.reset = .next (State.reset.withError .rangeError) ∧
  exec .nop State.reset = .next State.reset ∧ exec .brRewind State.reset = .next State.reset ∧
  exec .clrErr State.reset = .next State.reset ∧
  ∀ m : BitVec 8, 1 ≤ m.toNat → m.toNat ≤ 8 → ∃ t, exec (.lzwInit m) State.reset = .next t ∧ t.err = false ∧ t.phase = .literal

/-- R125, R45: the state after reset has the invariant (its registers are 0, so nothing of a decode is there). -/
def Obligations.ResetStateHasTheInvariant : Prop := State.reset.Inv

/-! ### The invariant -/

/-- R45, R29, R34, R24: every step of the block, in whatever it does, keeps the invariant. -/
def Obligations.EveryStepKeepsTheInvariant : Prop :=
  ∀ s t : State, s.Inv → step s = .next t → t.Inv

/-- R113, R123, R134: from a state with the invariant the block never stops: every command and every access completes. -/
def Obligations.NoStepEverStops : Prop :=
  ∀ s : State, s.Inv → Safe (step s)
end

