-- ==== Sys2Proof/Laws/Memory.lean ====
section
/-! SUPPORT. The laws of the sparse maps: a read after a write, and every write keeps the canonical form. -/
namespace Sys2Proof.Machine

variable {α : Type}

theorem sparseGet_sparseSet_self (m : List (Nat × α)) (a : Nat) (v : α) : sparseGet (sparseSet m a v) a = some v := by
  induction m with
  | nil => simp [sparseSet, sparseGet]
  | cons c m ih =>
    obtain ⟨k, w⟩ := c
    simp only [sparseSet]
    split
    · simp [sparseGet]
    · split
      · simp [sparseGet]
      · rename_i h
        simp [sparseGet, ih, Ne.symm h]

theorem sparseGet_sparseSet_ne (m : List (Nat × α)) {a b : Nat} (h : b ≠ a) (v : α) :
    sparseGet (sparseSet m a v) b = sparseGet m b := by
  induction m with
  | nil => simp [sparseSet, sparseGet, h.symm]
  | cons c m ih =>
    obtain ⟨k, w⟩ := c
    simp only [sparseSet]
    split
    · simp [sparseGet, h.symm]
    · split
      · rename_i e; subst e; simp [sparseGet, h.symm]
      · simp [sparseGet, ih]

/-- A read after a write: the value written at the same key, what was there at any other. -/
theorem sparseGet_sparseSet (m : List (Nat × α)) (a b : Nat) (v : α) :
    sparseGet (sparseSet m a v) b = if b = a then some v else sparseGet m b := by
  split
  · rename_i h; rw [h, sparseGet_sparseSet_self]
  · exact sparseGet_sparseSet_ne m ‹_› v

theorem sparseSet_risingAbove (m : List (Nat × α)) {k a : Nat} (v : α) (h : k < a) (w : risingAbove k m = true) :
    risingAbove k (sparseSet m a v) = true := by
  induction m generalizing k with
  | nil => simp [sparseSet, risingAbove, h]
  | cons c m ih =>
    obtain ⟨j, x⟩ := c
    simp only [risingAbove, Bool.and_eq_true, decide_eq_true_eq] at w
    simp only [sparseSet]
    split
    · simp_all [risingAbove]
    · split
      · subst_vars; simp_all [risingAbove]
      · have : j < a := by omega
        simp [risingAbove, w.1, ih this w.2]

/-- Every write keeps the canonical form. -/
theorem sparseSet_rising (m : List (Nat × α)) (a : Nat) (v : α) (w : rising m = true) :
    rising (sparseSet m a v) = true := by
  cases m with
  | nil => simp [sparseSet, rising, risingAbove]
  | cons c m =>
    obtain ⟨j, x⟩ := c
    simp only [rising] at w
    simp only [sparseSet]
    split
    · simp_all [rising, risingAbove]
    · split
      · subst_vars; simpa [rising] using w
      · have : j < a := by omega
        simpa [rising] using sparseSet_risingAbove m v this w

theorem Memory.read_eq (m : List Host.Cell) (a : Nat) : Memory.read m a = sparseGet m a := by
  unfold Memory.read Memory.unlisted; split <;> simp_all

theorem Memory.read_write (m : List Host.Cell) (a b : Nat) (v : Byte) :
    Memory.read (Memory.write m a v) b = if b = a then some v else Memory.read m b := by
  simp [Memory.read_eq, Memory.write, sparseGet_sparseSet]

theorem Memory.write_wf (m : List Host.Cell) (a : Nat) (v : Byte) (w : Memory.wf m = true) :
    Memory.wf (Memory.write m a v) = true := sparseSet_rising m a v w

theorem Memory.writeAll_wf (m : List Host.Cell) (a : Nat) (bs : List Byte) (w : Memory.wf m = true) :
    Memory.wf (Memory.writeAll m a bs) = true := by
  induction bs generalizing m a with
  | nil => simpa [Memory.writeAll] using w
  | cons b bs ih => exact ih _ _ (Memory.write_wf m a b w)

/-- A read after a run of bytes was stored: the byte of the run, or what was there. -/
theorem Memory.read_writeAll (m : List Host.Cell) (a b : Nat) (bs : List Byte) :
    Memory.read (Memory.writeAll m a bs) b =
      if a ≤ b ∧ b < a + bs.length then bs[b - a]? else Memory.read m b := by
  induction bs generalizing m a with
  | nil => simp [Memory.writeAll]
  | cons x bs ih =>
    rw [Memory.writeAll, ih, Memory.read_write]
    by_cases h : b = a
    · subst h; simp
    · by_cases h' : a + 1 ≤ b ∧ b < a + 1 + bs.length
      · have e : b - a = (b - (a + 1)) + 1 := by omega
        have : a ≤ b ∧ b < a + (x :: bs).length := by simp; omega
        rw [if_pos h', if_pos this, e, List.getElem?_cons_succ]
      · have : ¬(a ≤ b ∧ b < a + (x :: bs).length) := by simp; omega
        rw [if_neg h', if_neg this, if_neg h]

/-- A run of bytes leaves every address outside it as it was. -/
theorem Memory.read_writeAll_outside (m : List Host.Cell) {a b : Nat} (bs : List Byte)
    (h : ¬(a ≤ b ∧ b < a + bs.length)) : Memory.read (Memory.writeAll m a bs) b = Memory.read m b := by
  rw [Memory.read_writeAll, if_neg h]

/-- The entry of a list built by mapping its keys: the value of the function at a key that is there. -/
theorem sparseGet_map (f : Nat → α) (l : List Nat) (a : Nat) :
    sparseGet (l.map fun c => (c, f c)) a = if a ∈ l then some (f a) else none := by
  induction l with
  | nil => simp [sparseGet]
  | cons c l ih =>
    by_cases h : c = a
    · subst h; simp [sparseGet]
    · simp [sparseGet, h, ih, Ne.symm h]

/-- The entries of a run of keys rise above every key before it. -/
theorem risingAbove_range' (f : Nat → α) {k a : Nat} (h : k < a) (n : Nat) :
    risingAbove k ((List.range' a n).map fun c => (c, f c)) = true := by
  induction n generalizing k a with
  | zero => simp [risingAbove]
  | succ n ih => simp [List.range'_succ, risingAbove, h, ih (Nat.lt_succ_self a)]

/-- The entries of a run of keys are in canonical form. -/
theorem rising_range' (f : Nat → α) (a n : Nat) : rising ((List.range' a n).map fun c => (c, f c)) = true := by
  cases n with
  | zero => simp [rising]
  | succ n => simp [List.range'_succ, rising, risingAbove_range' f (Nat.lt_succ_self a)]

/-- A code has the literal singleton exactly while it is below the Clear Code (R41). -/
theorem sparseGet_literals (n a : Nat) :
    sparseGet (literals n) a = if a < n then some (Expansion.literal a) else none := by
  rw [literals, sparseGet_map]; simp

theorem literals_rising (n : Nat) : rising (literals n) = true := by
  rw [literals, List.range_eq_range']; exact rising_range' _ 0 n

end Sys2Proof.Machine
end

