-- ==== Sys2Proof/Laws/State.lean ====
section
/-! SUPPORT. One lemma per field per update of the state: what the update leaves in the field. Every one is true by rfl (those
of the two conditional updates by their two cases), so that no later proof unfolds a record update. -/
namespace Sys2Proof.Machine

/-! ### setResult -/

@[simp] theorem setResult_ibufCap (v : Word) (s : State) : (setResult v s).ibufCap = s.ibufCap := rfl
@[simp] theorem setResult_obufCap (v : Word) (s : State) : (setResult v s).obufCap = s.obufCap := rfl
@[simp] theorem setResult_ibuf (v : Word) (s : State) : (setResult v s).ibuf = s.ibuf := rfl
@[simp] theorem setResult_obuf (v : Word) (s : State) : (setResult v s).obuf = s.obuf := rfl
@[simp] theorem setResult_dict (v : Word) (s : State) : (setResult v s).dict = s.dict := rfl
@[simp] theorem setResult_running (v : Word) (s : State) : (setResult v s).running = s.running := rfl
@[simp] theorem setResult_err (v : Word) (s : State) : (setResult v s).err = s.err := rfl
@[simp] theorem setResult_errcode (v : Word) (s : State) : (setResult v s).errcode = s.errcode := rfl
@[simp] theorem setResult_phase (v : Word) (s : State) : (setResult v s).phase = s.phase := rfl
@[simp] theorem setResult_result (v : Word) (s : State) : (setResult v s).result = v := rfl
@[simp] theorem setResult_bufLen (v : Word) (s : State) : (setResult v s).bufLen = s.bufLen := rfl
@[simp] theorem setResult_brPos (v : Word) (s : State) : (setResult v s).brPos = s.brPos := rfl
@[simp] theorem setResult_minCodeSize (v : Word) (s : State) : (setResult v s).minCodeSize = s.minCodeSize := rfl
@[simp] theorem setResult_codeWidth (v : Word) (s : State) : (setResult v s).codeWidth = s.codeWidth := rfl
@[simp] theorem setResult_clearCode (v : Word) (s : State) : (setResult v s).clearCode = s.clearCode := rfl
@[simp] theorem setResult_endCode (v : Word) (s : State) : (setResult v s).endCode = s.endCode := rfl
@[simp] theorem setResult_dictSize (v : Word) (s : State) : (setResult v s).dictSize = s.dictSize := rfl
@[simp] theorem setResult_lastCode (v : Word) (s : State) : (setResult v s).lastCode = s.lastCode := rfl
@[simp] theorem setResult_lzwCode (v : Word) (s : State) : (setResult v s).lzwCode = s.lzwCode := rfl
@[simp] theorem setResult_outLen (v : Word) (s : State) : (setResult v s).outLen = s.outLen := rfl
@[simp] theorem setResult_ilWidth (v : Word) (s : State) : (setResult v s).ilWidth = s.ilWidth := rfl
@[simp] theorem setResult_ilHeight (v : Word) (s : State) : (setResult v s).ilHeight = s.ilHeight := rfl
@[simp] theorem setResult_interlace (v : Word) (s : State) : (setResult v s).interlace = s.interlace := rfl
@[simp] theorem setResult_ilIndex (v : Word) (s : State) : (setResult v s).ilIndex = s.ilIndex := rfl
@[simp] theorem setResult_env (v : Word) (s : State) : (setResult v s).env = s.env := rfl

/-! ### setCursor -/

@[simp] theorem setCursor_ibufCap (p : Nat) (s : State) : (setCursor p s).ibufCap = s.ibufCap := rfl
@[simp] theorem setCursor_obufCap (p : Nat) (s : State) : (setCursor p s).obufCap = s.obufCap := rfl
@[simp] theorem setCursor_ibuf (p : Nat) (s : State) : (setCursor p s).ibuf = s.ibuf := rfl
@[simp] theorem setCursor_obuf (p : Nat) (s : State) : (setCursor p s).obuf = s.obuf := rfl
@[simp] theorem setCursor_dict (p : Nat) (s : State) : (setCursor p s).dict = s.dict := rfl
@[simp] theorem setCursor_running (p : Nat) (s : State) : (setCursor p s).running = s.running := rfl
@[simp] theorem setCursor_err (p : Nat) (s : State) : (setCursor p s).err = s.err := rfl
@[simp] theorem setCursor_errcode (p : Nat) (s : State) : (setCursor p s).errcode = s.errcode := rfl
@[simp] theorem setCursor_phase (p : Nat) (s : State) : (setCursor p s).phase = s.phase := rfl
@[simp] theorem setCursor_result (p : Nat) (s : State) : (setCursor p s).result = s.result := rfl
@[simp] theorem setCursor_bufLen (p : Nat) (s : State) : (setCursor p s).bufLen = s.bufLen := rfl
@[simp] theorem setCursor_brPos (p : Nat) (s : State) : (setCursor p s).brPos = BitVec.ofNat 28 p := rfl
@[simp] theorem setCursor_minCodeSize (p : Nat) (s : State) : (setCursor p s).minCodeSize = s.minCodeSize := rfl
@[simp] theorem setCursor_codeWidth (p : Nat) (s : State) : (setCursor p s).codeWidth = s.codeWidth := rfl
@[simp] theorem setCursor_clearCode (p : Nat) (s : State) : (setCursor p s).clearCode = s.clearCode := rfl
@[simp] theorem setCursor_endCode (p : Nat) (s : State) : (setCursor p s).endCode = s.endCode := rfl
@[simp] theorem setCursor_dictSize (p : Nat) (s : State) : (setCursor p s).dictSize = s.dictSize := rfl
@[simp] theorem setCursor_lastCode (p : Nat) (s : State) : (setCursor p s).lastCode = s.lastCode := rfl
@[simp] theorem setCursor_lzwCode (p : Nat) (s : State) : (setCursor p s).lzwCode = s.lzwCode := rfl
@[simp] theorem setCursor_outLen (p : Nat) (s : State) : (setCursor p s).outLen = s.outLen := rfl
@[simp] theorem setCursor_ilWidth (p : Nat) (s : State) : (setCursor p s).ilWidth = s.ilWidth := rfl
@[simp] theorem setCursor_ilHeight (p : Nat) (s : State) : (setCursor p s).ilHeight = s.ilHeight := rfl
@[simp] theorem setCursor_interlace (p : Nat) (s : State) : (setCursor p s).interlace = s.interlace := rfl
@[simp] theorem setCursor_ilIndex (p : Nat) (s : State) : (setCursor p s).ilIndex = s.ilIndex := rfl
@[simp] theorem setCursor_env (p : Nat) (s : State) : (setCursor p s).env = s.env := rfl

/-! ### setPhase -/

@[simp] theorem setPhase_ibufCap (p : Phase) (s : State) : (setPhase p s).ibufCap = s.ibufCap := rfl
@[simp] theorem setPhase_obufCap (p : Phase) (s : State) : (setPhase p s).obufCap = s.obufCap := rfl
@[simp] theorem setPhase_ibuf (p : Phase) (s : State) : (setPhase p s).ibuf = s.ibuf := rfl
@[simp] theorem setPhase_obuf (p : Phase) (s : State) : (setPhase p s).obuf = s.obuf := rfl
@[simp] theorem setPhase_dict (p : Phase) (s : State) : (setPhase p s).dict = s.dict := rfl
@[simp] theorem setPhase_running (p : Phase) (s : State) : (setPhase p s).running = s.running := rfl
@[simp] theorem setPhase_err (p : Phase) (s : State) : (setPhase p s).err = s.err := rfl
@[simp] theorem setPhase_errcode (p : Phase) (s : State) : (setPhase p s).errcode = s.errcode := rfl
@[simp] theorem setPhase_phase (p : Phase) (s : State) : (setPhase p s).phase = p := rfl
@[simp] theorem setPhase_result (p : Phase) (s : State) : (setPhase p s).result = s.result := rfl
@[simp] theorem setPhase_bufLen (p : Phase) (s : State) : (setPhase p s).bufLen = s.bufLen := rfl
@[simp] theorem setPhase_brPos (p : Phase) (s : State) : (setPhase p s).brPos = s.brPos := rfl
@[simp] theorem setPhase_minCodeSize (p : Phase) (s : State) : (setPhase p s).minCodeSize = s.minCodeSize := rfl
@[simp] theorem setPhase_codeWidth (p : Phase) (s : State) : (setPhase p s).codeWidth = s.codeWidth := rfl
@[simp] theorem setPhase_clearCode (p : Phase) (s : State) : (setPhase p s).clearCode = s.clearCode := rfl
@[simp] theorem setPhase_endCode (p : Phase) (s : State) : (setPhase p s).endCode = s.endCode := rfl
@[simp] theorem setPhase_dictSize (p : Phase) (s : State) : (setPhase p s).dictSize = s.dictSize := rfl
@[simp] theorem setPhase_lastCode (p : Phase) (s : State) : (setPhase p s).lastCode = s.lastCode := rfl
@[simp] theorem setPhase_lzwCode (p : Phase) (s : State) : (setPhase p s).lzwCode = s.lzwCode := rfl
@[simp] theorem setPhase_outLen (p : Phase) (s : State) : (setPhase p s).outLen = s.outLen := rfl
@[simp] theorem setPhase_ilWidth (p : Phase) (s : State) : (setPhase p s).ilWidth = s.ilWidth := rfl
@[simp] theorem setPhase_ilHeight (p : Phase) (s : State) : (setPhase p s).ilHeight = s.ilHeight := rfl
@[simp] theorem setPhase_interlace (p : Phase) (s : State) : (setPhase p s).interlace = s.interlace := rfl
@[simp] theorem setPhase_ilIndex (p : Phase) (s : State) : (setPhase p s).ilIndex = s.ilIndex := rfl
@[simp] theorem setPhase_env (p : Phase) (s : State) : (setPhase p s).env = s.env := rfl

/-! ### setLzwCode -/

@[simp] theorem setLzwCode_ibufCap (c : Code) (s : State) : (setLzwCode c s).ibufCap = s.ibufCap := rfl
@[simp] theorem setLzwCode_obufCap (c : Code) (s : State) : (setLzwCode c s).obufCap = s.obufCap := rfl
@[simp] theorem setLzwCode_ibuf (c : Code) (s : State) : (setLzwCode c s).ibuf = s.ibuf := rfl
@[simp] theorem setLzwCode_obuf (c : Code) (s : State) : (setLzwCode c s).obuf = s.obuf := rfl
@[simp] theorem setLzwCode_dict (c : Code) (s : State) : (setLzwCode c s).dict = s.dict := rfl
@[simp] theorem setLzwCode_running (c : Code) (s : State) : (setLzwCode c s).running = s.running := rfl
@[simp] theorem setLzwCode_err (c : Code) (s : State) : (setLzwCode c s).err = s.err := rfl
@[simp] theorem setLzwCode_errcode (c : Code) (s : State) : (setLzwCode c s).errcode = s.errcode := rfl
@[simp] theorem setLzwCode_phase (c : Code) (s : State) : (setLzwCode c s).phase = s.phase := rfl
@[simp] theorem setLzwCode_result (c : Code) (s : State) : (setLzwCode c s).result = s.result := rfl
@[simp] theorem setLzwCode_bufLen (c : Code) (s : State) : (setLzwCode c s).bufLen = s.bufLen := rfl
@[simp] theorem setLzwCode_brPos (c : Code) (s : State) : (setLzwCode c s).brPos = s.brPos := rfl
@[simp] theorem setLzwCode_minCodeSize (c : Code) (s : State) : (setLzwCode c s).minCodeSize = s.minCodeSize := rfl
@[simp] theorem setLzwCode_codeWidth (c : Code) (s : State) : (setLzwCode c s).codeWidth = s.codeWidth := rfl
@[simp] theorem setLzwCode_clearCode (c : Code) (s : State) : (setLzwCode c s).clearCode = s.clearCode := rfl
@[simp] theorem setLzwCode_endCode (c : Code) (s : State) : (setLzwCode c s).endCode = s.endCode := rfl
@[simp] theorem setLzwCode_dictSize (c : Code) (s : State) : (setLzwCode c s).dictSize = s.dictSize := rfl
@[simp] theorem setLzwCode_lastCode (c : Code) (s : State) : (setLzwCode c s).lastCode = s.lastCode := rfl
@[simp] theorem setLzwCode_lzwCode (c : Code) (s : State) : (setLzwCode c s).lzwCode = c := rfl
@[simp] theorem setLzwCode_outLen (c : Code) (s : State) : (setLzwCode c s).outLen = s.outLen := rfl
@[simp] theorem setLzwCode_ilWidth (c : Code) (s : State) : (setLzwCode c s).ilWidth = s.ilWidth := rfl
@[simp] theorem setLzwCode_ilHeight (c : Code) (s : State) : (setLzwCode c s).ilHeight = s.ilHeight := rfl
@[simp] theorem setLzwCode_interlace (c : Code) (s : State) : (setLzwCode c s).interlace = s.interlace := rfl
@[simp] theorem setLzwCode_ilIndex (c : Code) (s : State) : (setLzwCode c s).ilIndex = s.ilIndex := rfl
@[simp] theorem setLzwCode_env (c : Code) (s : State) : (setLzwCode c s).env = s.env := rfl

/-! ### setLastCode -/

@[simp] theorem setLastCode_ibufCap (c : Code) (s : State) : (setLastCode c s).ibufCap = s.ibufCap := rfl
@[simp] theorem setLastCode_obufCap (c : Code) (s : State) : (setLastCode c s).obufCap = s.obufCap := rfl
@[simp] theorem setLastCode_ibuf (c : Code) (s : State) : (setLastCode c s).ibuf = s.ibuf := rfl
@[simp] theorem setLastCode_obuf (c : Code) (s : State) : (setLastCode c s).obuf = s.obuf := rfl
@[simp] theorem setLastCode_dict (c : Code) (s : State) : (setLastCode c s).dict = s.dict := rfl
@[simp] theorem setLastCode_running (c : Code) (s : State) : (setLastCode c s).running = s.running := rfl
@[simp] theorem setLastCode_err (c : Code) (s : State) : (setLastCode c s).err = s.err := rfl
@[simp] theorem setLastCode_errcode (c : Code) (s : State) : (setLastCode c s).errcode = s.errcode := rfl
@[simp] theorem setLastCode_phase (c : Code) (s : State) : (setLastCode c s).phase = s.phase := rfl
@[simp] theorem setLastCode_result (c : Code) (s : State) : (setLastCode c s).result = s.result := rfl
@[simp] theorem setLastCode_bufLen (c : Code) (s : State) : (setLastCode c s).bufLen = s.bufLen := rfl
@[simp] theorem setLastCode_brPos (c : Code) (s : State) : (setLastCode c s).brPos = s.brPos := rfl
@[simp] theorem setLastCode_minCodeSize (c : Code) (s : State) : (setLastCode c s).minCodeSize = s.minCodeSize := rfl
@[simp] theorem setLastCode_codeWidth (c : Code) (s : State) : (setLastCode c s).codeWidth = s.codeWidth := rfl
@[simp] theorem setLastCode_clearCode (c : Code) (s : State) : (setLastCode c s).clearCode = s.clearCode := rfl
@[simp] theorem setLastCode_endCode (c : Code) (s : State) : (setLastCode c s).endCode = s.endCode := rfl
@[simp] theorem setLastCode_dictSize (c : Code) (s : State) : (setLastCode c s).dictSize = s.dictSize := rfl
@[simp] theorem setLastCode_lastCode (c : Code) (s : State) : (setLastCode c s).lastCode = c := rfl
@[simp] theorem setLastCode_lzwCode (c : Code) (s : State) : (setLastCode c s).lzwCode = s.lzwCode := rfl
@[simp] theorem setLastCode_outLen (c : Code) (s : State) : (setLastCode c s).outLen = s.outLen := rfl
@[simp] theorem setLastCode_ilWidth (c : Code) (s : State) : (setLastCode c s).ilWidth = s.ilWidth := rfl
@[simp] theorem setLastCode_ilHeight (c : Code) (s : State) : (setLastCode c s).ilHeight = s.ilHeight := rfl
@[simp] theorem setLastCode_interlace (c : Code) (s : State) : (setLastCode c s).interlace = s.interlace := rfl
@[simp] theorem setLastCode_ilIndex (c : Code) (s : State) : (setLastCode c s).ilIndex = s.ilIndex := rfl
@[simp] theorem setLastCode_env (c : Code) (s : State) : (setLastCode c s).env = s.env := rfl

/-! ### writeIbuf -/

@[simp] theorem writeIbuf_ibufCap (i : Nat) (b : Byte) (s : State) : (writeIbuf i b s).ibufCap = s.ibufCap := rfl
@[simp] theorem writeIbuf_obufCap (i : Nat) (b : Byte) (s : State) : (writeIbuf i b s).obufCap = s.obufCap := rfl
@[simp] theorem writeIbuf_ibuf (i : Nat) (b : Byte) (s : State) : (writeIbuf i b s).ibuf = Memory.write s.ibuf i b := rfl
@[simp] theorem writeIbuf_obuf (i : Nat) (b : Byte) (s : State) : (writeIbuf i b s).obuf = s.obuf := rfl
@[simp] theorem writeIbuf_dict (i : Nat) (b : Byte) (s : State) : (writeIbuf i b s).dict = s.dict := rfl
@[simp] theorem writeIbuf_running (i : Nat) (b : Byte) (s : State) : (writeIbuf i b s).running = s.running := rfl
@[simp] theorem writeIbuf_err (i : Nat) (b : Byte) (s : State) : (writeIbuf i b s).err = s.err := rfl
@[simp] theorem writeIbuf_errcode (i : Nat) (b : Byte) (s : State) : (writeIbuf i b s).errcode = s.errcode := rfl
@[simp] theorem writeIbuf_phase (i : Nat) (b : Byte) (s : State) : (writeIbuf i b s).phase = s.phase := rfl
@[simp] theorem writeIbuf_result (i : Nat) (b : Byte) (s : State) : (writeIbuf i b s).result = s.result := rfl
@[simp] theorem writeIbuf_bufLen (i : Nat) (b : Byte) (s : State) : (writeIbuf i b s).bufLen = s.bufLen := rfl
@[simp] theorem writeIbuf_brPos (i : Nat) (b : Byte) (s : State) : (writeIbuf i b s).brPos = s.brPos := rfl
@[simp] theorem writeIbuf_minCodeSize (i : Nat) (b : Byte) (s : State) : (writeIbuf i b s).minCodeSize = s.minCodeSize := rfl
@[simp] theorem writeIbuf_codeWidth (i : Nat) (b : Byte) (s : State) : (writeIbuf i b s).codeWidth = s.codeWidth := rfl
@[simp] theorem writeIbuf_clearCode (i : Nat) (b : Byte) (s : State) : (writeIbuf i b s).clearCode = s.clearCode := rfl
@[simp] theorem writeIbuf_endCode (i : Nat) (b : Byte) (s : State) : (writeIbuf i b s).endCode = s.endCode := rfl
@[simp] theorem writeIbuf_dictSize (i : Nat) (b : Byte) (s : State) : (writeIbuf i b s).dictSize = s.dictSize := rfl
@[simp] theorem writeIbuf_lastCode (i : Nat) (b : Byte) (s : State) : (writeIbuf i b s).lastCode = s.lastCode := rfl
@[simp] theorem writeIbuf_lzwCode (i : Nat) (b : Byte) (s : State) : (writeIbuf i b s).lzwCode = s.lzwCode := rfl
@[simp] theorem writeIbuf_outLen (i : Nat) (b : Byte) (s : State) : (writeIbuf i b s).outLen = s.outLen := rfl
@[simp] theorem writeIbuf_ilWidth (i : Nat) (b : Byte) (s : State) : (writeIbuf i b s).ilWidth = s.ilWidth := rfl
@[simp] theorem writeIbuf_ilHeight (i : Nat) (b : Byte) (s : State) : (writeIbuf i b s).ilHeight = s.ilHeight := rfl
@[simp] theorem writeIbuf_interlace (i : Nat) (b : Byte) (s : State) : (writeIbuf i b s).interlace = s.interlace := rfl
@[simp] theorem writeIbuf_ilIndex (i : Nat) (b : Byte) (s : State) : (writeIbuf i b s).ilIndex = s.ilIndex := rfl
@[simp] theorem writeIbuf_env (i : Nat) (b : Byte) (s : State) : (writeIbuf i b s).env = s.env := rfl

/-! ### setEntry -/

@[simp] theorem setEntry_ibufCap (c : Nat) (e : Expansion) (s : State) : (setEntry c e s).ibufCap = s.ibufCap := rfl
@[simp] theorem setEntry_obufCap (c : Nat) (e : Expansion) (s : State) : (setEntry c e s).obufCap = s.obufCap := rfl
@[simp] theorem setEntry_ibuf (c : Nat) (e : Expansion) (s : State) : (setEntry c e s).ibuf = s.ibuf := rfl
@[simp] theorem setEntry_obuf (c : Nat) (e : Expansion) (s : State) : (setEntry c e s).obuf = s.obuf := rfl
@[simp] theorem setEntry_dict (c : Nat) (e : Expansion) (s : State) : (setEntry c e s).dict = sparseSet s.dict c e := rfl
@[simp] theorem setEntry_running (c : Nat) (e : Expansion) (s : State) : (setEntry c e s).running = s.running := rfl
@[simp] theorem setEntry_err (c : Nat) (e : Expansion) (s : State) : (setEntry c e s).err = s.err := rfl
@[simp] theorem setEntry_errcode (c : Nat) (e : Expansion) (s : State) : (setEntry c e s).errcode = s.errcode := rfl
@[simp] theorem setEntry_phase (c : Nat) (e : Expansion) (s : State) : (setEntry c e s).phase = s.phase := rfl
@[simp] theorem setEntry_result (c : Nat) (e : Expansion) (s : State) : (setEntry c e s).result = s.result := rfl
@[simp] theorem setEntry_bufLen (c : Nat) (e : Expansion) (s : State) : (setEntry c e s).bufLen = s.bufLen := rfl
@[simp] theorem setEntry_brPos (c : Nat) (e : Expansion) (s : State) : (setEntry c e s).brPos = s.brPos := rfl
@[simp] theorem setEntry_minCodeSize (c : Nat) (e : Expansion) (s : State) : (setEntry c e s).minCodeSize = s.minCodeSize := rfl
@[simp] theorem setEntry_codeWidth (c : Nat) (e : Expansion) (s : State) : (setEntry c e s).codeWidth = s.codeWidth := rfl
@[simp] theorem setEntry_clearCode (c : Nat) (e : Expansion) (s : State) : (setEntry c e s).clearCode = s.clearCode := rfl
@[simp] theorem setEntry_endCode (c : Nat) (e : Expansion) (s : State) : (setEntry c e s).endCode = s.endCode := rfl
@[simp] theorem setEntry_dictSize (c : Nat) (e : Expansion) (s : State) : (setEntry c e s).dictSize = s.dictSize := rfl
@[simp] theorem setEntry_lastCode (c : Nat) (e : Expansion) (s : State) : (setEntry c e s).lastCode = s.lastCode := rfl
@[simp] theorem setEntry_lzwCode (c : Nat) (e : Expansion) (s : State) : (setEntry c e s).lzwCode = s.lzwCode := rfl
@[simp] theorem setEntry_outLen (c : Nat) (e : Expansion) (s : State) : (setEntry c e s).outLen = s.outLen := rfl
@[simp] theorem setEntry_ilWidth (c : Nat) (e : Expansion) (s : State) : (setEntry c e s).ilWidth = s.ilWidth := rfl
@[simp] theorem setEntry_ilHeight (c : Nat) (e : Expansion) (s : State) : (setEntry c e s).ilHeight = s.ilHeight := rfl
@[simp] theorem setEntry_interlace (c : Nat) (e : Expansion) (s : State) : (setEntry c e s).interlace = s.interlace := rfl
@[simp] theorem setEntry_ilIndex (c : Nat) (e : Expansion) (s : State) : (setEntry c e s).ilIndex = s.ilIndex := rfl
@[simp] theorem setEntry_env (c : Nat) (e : Expansion) (s : State) : (setEntry c e s).env = s.env := rfl

/-! ### clearError -/

@[simp] theorem clearError_ibufCap (s : State) : (clearError s).ibufCap = s.ibufCap := rfl
@[simp] theorem clearError_obufCap (s : State) : (clearError s).obufCap = s.obufCap := rfl
@[simp] theorem clearError_ibuf (s : State) : (clearError s).ibuf = s.ibuf := rfl
@[simp] theorem clearError_obuf (s : State) : (clearError s).obuf = s.obuf := rfl
@[simp] theorem clearError_dict (s : State) : (clearError s).dict = s.dict := rfl
@[simp] theorem clearError_running (s : State) : (clearError s).running = s.running := rfl
@[simp] theorem clearError_err (s : State) : (clearError s).err = false := rfl
@[simp] theorem clearError_errcode (s : State) : (clearError s).errcode = .none := rfl
@[simp] theorem clearError_phase (s : State) : (clearError s).phase = s.phase := rfl
@[simp] theorem clearError_result (s : State) : (clearError s).result = s.result := rfl
@[simp] theorem clearError_bufLen (s : State) : (clearError s).bufLen = s.bufLen := rfl
@[simp] theorem clearError_brPos (s : State) : (clearError s).brPos = s.brPos := rfl
@[simp] theorem clearError_minCodeSize (s : State) : (clearError s).minCodeSize = s.minCodeSize := rfl
@[simp] theorem clearError_codeWidth (s : State) : (clearError s).codeWidth = s.codeWidth := rfl
@[simp] theorem clearError_clearCode (s : State) : (clearError s).clearCode = s.clearCode := rfl
@[simp] theorem clearError_endCode (s : State) : (clearError s).endCode = s.endCode := rfl
@[simp] theorem clearError_dictSize (s : State) : (clearError s).dictSize = s.dictSize := rfl
@[simp] theorem clearError_lastCode (s : State) : (clearError s).lastCode = s.lastCode := rfl
@[simp] theorem clearError_lzwCode (s : State) : (clearError s).lzwCode = s.lzwCode := rfl
@[simp] theorem clearError_outLen (s : State) : (clearError s).outLen = s.outLen := rfl
@[simp] theorem clearError_ilWidth (s : State) : (clearError s).ilWidth = s.ilWidth := rfl
@[simp] theorem clearError_ilHeight (s : State) : (clearError s).ilHeight = s.ilHeight := rfl
@[simp] theorem clearError_interlace (s : State) : (clearError s).interlace = s.interlace := rfl
@[simp] theorem clearError_ilIndex (s : State) : (clearError s).ilIndex = s.ilIndex := rfl
@[simp] theorem clearError_env (s : State) : (clearError s).env = s.env := rfl

/-! ### startCommand -/

@[simp] theorem startCommand_ibufCap (w : Word) (s : State) : (startCommand w s).ibufCap = s.ibufCap := rfl
@[simp] theorem startCommand_obufCap (w : Word) (s : State) : (startCommand w s).obufCap = s.obufCap := rfl
@[simp] theorem startCommand_ibuf (w : Word) (s : State) : (startCommand w s).ibuf = s.ibuf := rfl
@[simp] theorem startCommand_obuf (w : Word) (s : State) : (startCommand w s).obuf = s.obuf := rfl
@[simp] theorem startCommand_dict (w : Word) (s : State) : (startCommand w s).dict = s.dict := rfl
@[simp] theorem startCommand_running (w : Word) (s : State) : (startCommand w s).running = some w := rfl
@[simp] theorem startCommand_err (w : Word) (s : State) : (startCommand w s).err = s.err := rfl
@[simp] theorem startCommand_errcode (w : Word) (s : State) : (startCommand w s).errcode = s.errcode := rfl
@[simp] theorem startCommand_phase (w : Word) (s : State) : (startCommand w s).phase = s.phase := rfl
@[simp] theorem startCommand_result (w : Word) (s : State) : (startCommand w s).result = s.result := rfl
@[simp] theorem startCommand_bufLen (w : Word) (s : State) : (startCommand w s).bufLen = s.bufLen := rfl
@[simp] theorem startCommand_brPos (w : Word) (s : State) : (startCommand w s).brPos = s.brPos := rfl
@[simp] theorem startCommand_minCodeSize (w : Word) (s : State) : (startCommand w s).minCodeSize = s.minCodeSize := rfl
@[simp] theorem startCommand_codeWidth (w : Word) (s : State) : (startCommand w s).codeWidth = s.codeWidth := rfl
@[simp] theorem startCommand_clearCode (w : Word) (s : State) : (startCommand w s).clearCode = s.clearCode := rfl
@[simp] theorem startCommand_endCode (w : Word) (s : State) : (startCommand w s).endCode = s.endCode := rfl
@[simp] theorem startCommand_dictSize (w : Word) (s : State) : (startCommand w s).dictSize = s.dictSize := rfl
@[simp] theorem startCommand_lastCode (w : Word) (s : State) : (startCommand w s).lastCode = s.lastCode := rfl
@[simp] theorem startCommand_lzwCode (w : Word) (s : State) : (startCommand w s).lzwCode = s.lzwCode := rfl
@[simp] theorem startCommand_outLen (w : Word) (s : State) : (startCommand w s).outLen = s.outLen := rfl
@[simp] theorem startCommand_ilWidth (w : Word) (s : State) : (startCommand w s).ilWidth = s.ilWidth := rfl
@[simp] theorem startCommand_ilHeight (w : Word) (s : State) : (startCommand w s).ilHeight = s.ilHeight := rfl
@[simp] theorem startCommand_interlace (w : Word) (s : State) : (startCommand w s).interlace = s.interlace := rfl
@[simp] theorem startCommand_ilIndex (w : Word) (s : State) : (startCommand w s).ilIndex = s.ilIndex := rfl
@[simp] theorem startCommand_env (w : Word) (s : State) : (startCommand w s).env = s.env := rfl

/-! ### endCommand -/

@[simp] theorem endCommand_ibufCap (s : State) : (endCommand s).ibufCap = s.ibufCap := rfl
@[simp] theorem endCommand_obufCap (s : State) : (endCommand s).obufCap = s.obufCap := rfl
@[simp] theorem endCommand_ibuf (s : State) : (endCommand s).ibuf = s.ibuf := rfl
@[simp] theorem endCommand_obuf (s : State) : (endCommand s).obuf = s.obuf := rfl
@[simp] theorem endCommand_dict (s : State) : (endCommand s).dict = s.dict := rfl
@[simp] theorem endCommand_running (s : State) : (endCommand s).running = none := rfl
@[simp] theorem endCommand_err (s : State) : (endCommand s).err = s.err := rfl
@[simp] theorem endCommand_errcode (s : State) : (endCommand s).errcode = s.errcode := rfl
@[simp] theorem endCommand_phase (s : State) : (endCommand s).phase = s.phase := rfl
@[simp] theorem endCommand_result (s : State) : (endCommand s).result = s.result := rfl
@[simp] theorem endCommand_bufLen (s : State) : (endCommand s).bufLen = s.bufLen := rfl
@[simp] theorem endCommand_brPos (s : State) : (endCommand s).brPos = s.brPos := rfl
@[simp] theorem endCommand_minCodeSize (s : State) : (endCommand s).minCodeSize = s.minCodeSize := rfl
@[simp] theorem endCommand_codeWidth (s : State) : (endCommand s).codeWidth = s.codeWidth := rfl
@[simp] theorem endCommand_clearCode (s : State) : (endCommand s).clearCode = s.clearCode := rfl
@[simp] theorem endCommand_endCode (s : State) : (endCommand s).endCode = s.endCode := rfl
@[simp] theorem endCommand_dictSize (s : State) : (endCommand s).dictSize = s.dictSize := rfl
@[simp] theorem endCommand_lastCode (s : State) : (endCommand s).lastCode = s.lastCode := rfl
@[simp] theorem endCommand_lzwCode (s : State) : (endCommand s).lzwCode = s.lzwCode := rfl
@[simp] theorem endCommand_outLen (s : State) : (endCommand s).outLen = s.outLen := rfl
@[simp] theorem endCommand_ilWidth (s : State) : (endCommand s).ilWidth = s.ilWidth := rfl
@[simp] theorem endCommand_ilHeight (s : State) : (endCommand s).ilHeight = s.ilHeight := rfl
@[simp] theorem endCommand_interlace (s : State) : (endCommand s).interlace = s.interlace := rfl
@[simp] theorem endCommand_ilIndex (s : State) : (endCommand s).ilIndex = s.ilIndex := rfl
@[simp] theorem endCommand_env (s : State) : (endCommand s).env = s.env := rfl

/-! ### dictInit -/

@[simp] theorem dictInit_ibufCap (s : State) : (dictInit s).ibufCap = s.ibufCap := rfl
@[simp] theorem dictInit_obufCap (s : State) : (dictInit s).obufCap = s.obufCap := rfl
@[simp] theorem dictInit_ibuf (s : State) : (dictInit s).ibuf = s.ibuf := rfl
@[simp] theorem dictInit_obuf (s : State) : (dictInit s).obuf = s.obuf := rfl
@[simp] theorem dictInit_dict (s : State) : (dictInit s).dict = literals s.clearCode.toNat := rfl
@[simp] theorem dictInit_running (s : State) : (dictInit s).running = s.running := rfl
@[simp] theorem dictInit_err (s : State) : (dictInit s).err = s.err := rfl
@[simp] theorem dictInit_errcode (s : State) : (dictInit s).errcode = s.errcode := rfl
@[simp] theorem dictInit_phase (s : State) : (dictInit s).phase = s.phase := rfl
@[simp] theorem dictInit_result (s : State) : (dictInit s).result = s.result := rfl
@[simp] theorem dictInit_bufLen (s : State) : (dictInit s).bufLen = s.bufLen := rfl
@[simp] theorem dictInit_brPos (s : State) : (dictInit s).brPos = s.brPos := rfl
@[simp] theorem dictInit_minCodeSize (s : State) : (dictInit s).minCodeSize = s.minCodeSize := rfl
@[simp] theorem dictInit_codeWidth (s : State) : (dictInit s).codeWidth = s.minCodeSize + 1#4 := rfl
@[simp] theorem dictInit_clearCode (s : State) : (dictInit s).clearCode = s.clearCode := rfl
@[simp] theorem dictInit_endCode (s : State) : (dictInit s).endCode = s.endCode := rfl
@[simp] theorem dictInit_dictSize (s : State) : (dictInit s).dictSize = s.clearCode.setWidth 32 + 2#32 := rfl
@[simp] theorem dictInit_lastCode (s : State) : (dictInit s).lastCode = s.lastCode := rfl
@[simp] theorem dictInit_lzwCode (s : State) : (dictInit s).lzwCode = s.lzwCode := rfl
@[simp] theorem dictInit_outLen (s : State) : (dictInit s).outLen = s.outLen := rfl
@[simp] theorem dictInit_ilWidth (s : State) : (dictInit s).ilWidth = s.ilWidth := rfl
@[simp] theorem dictInit_ilHeight (s : State) : (dictInit s).ilHeight = s.ilHeight := rfl
@[simp] theorem dictInit_interlace (s : State) : (dictInit s).interlace = s.interlace := rfl
@[simp] theorem dictInit_ilIndex (s : State) : (dictInit s).ilIndex = s.ilIndex := rfl
@[simp] theorem dictInit_env (s : State) : (dictInit s).env = s.env := rfl

/-! ### setInputs -/

@[simp] theorem setInputs_ibufCap (r : List Input) (s : State) : (setInputs r s).ibufCap = s.ibufCap := rfl
@[simp] theorem setInputs_obufCap (r : List Input) (s : State) : (setInputs r s).obufCap = s.obufCap := rfl
@[simp] theorem setInputs_ibuf (r : List Input) (s : State) : (setInputs r s).ibuf = s.ibuf := rfl
@[simp] theorem setInputs_obuf (r : List Input) (s : State) : (setInputs r s).obuf = s.obuf := rfl
@[simp] theorem setInputs_dict (r : List Input) (s : State) : (setInputs r s).dict = s.dict := rfl
@[simp] theorem setInputs_running (r : List Input) (s : State) : (setInputs r s).running = s.running := rfl
@[simp] theorem setInputs_err (r : List Input) (s : State) : (setInputs r s).err = s.err := rfl
@[simp] theorem setInputs_errcode (r : List Input) (s : State) : (setInputs r s).errcode = s.errcode := rfl
@[simp] theorem setInputs_phase (r : List Input) (s : State) : (setInputs r s).phase = s.phase := rfl
@[simp] theorem setInputs_result (r : List Input) (s : State) : (setInputs r s).result = s.result := rfl
@[simp] theorem setInputs_bufLen (r : List Input) (s : State) : (setInputs r s).bufLen = s.bufLen := rfl
@[simp] theorem setInputs_brPos (r : List Input) (s : State) : (setInputs r s).brPos = s.brPos := rfl
@[simp] theorem setInputs_minCodeSize (r : List Input) (s : State) : (setInputs r s).minCodeSize = s.minCodeSize := rfl
@[simp] theorem setInputs_codeWidth (r : List Input) (s : State) : (setInputs r s).codeWidth = s.codeWidth := rfl
@[simp] theorem setInputs_clearCode (r : List Input) (s : State) : (setInputs r s).clearCode = s.clearCode := rfl
@[simp] theorem setInputs_endCode (r : List Input) (s : State) : (setInputs r s).endCode = s.endCode := rfl
@[simp] theorem setInputs_dictSize (r : List Input) (s : State) : (setInputs r s).dictSize = s.dictSize := rfl
@[simp] theorem setInputs_lastCode (r : List Input) (s : State) : (setInputs r s).lastCode = s.lastCode := rfl
@[simp] theorem setInputs_lzwCode (r : List Input) (s : State) : (setInputs r s).lzwCode = s.lzwCode := rfl
@[simp] theorem setInputs_outLen (r : List Input) (s : State) : (setInputs r s).outLen = s.outLen := rfl
@[simp] theorem setInputs_ilWidth (r : List Input) (s : State) : (setInputs r s).ilWidth = s.ilWidth := rfl
@[simp] theorem setInputs_ilHeight (r : List Input) (s : State) : (setInputs r s).ilHeight = s.ilHeight := rfl
@[simp] theorem setInputs_interlace (r : List Input) (s : State) : (setInputs r s).interlace = s.interlace := rfl
@[simp] theorem setInputs_ilIndex (r : List Input) (s : State) : (setInputs r s).ilIndex = s.ilIndex := rfl
@[simp] theorem setInputs_env_resetIn (r : List Input) (s : State) : (setInputs r s).env.resetIn = s.env.resetIn := rfl
@[simp] theorem setInputs_env_inputs (r : List Input) (s : State) : (setInputs r s).env.inputs = r := rfl
@[simp] theorem setInputs_env_stalled (r : List Input) (s : State) : (setInputs r s).env.stalled = s.env.stalled := rfl
@[simp] theorem setInputs_env_response (r : List Input) (s : State) : (setInputs r s).env.response = s.env.response := rfl
@[simp] theorem setInputs_env_resets (r : List Input) (s : State) : (setInputs r s).env.resets = s.env.resets := rfl
@[simp] theorem setInputs_env_draws (r : List Input) (s : State) : (setInputs r s).env.draws = s.env.draws := rfl

/-! ### setStalled -/

@[simp] theorem setStalled_ibufCap (r : List Access) (s : State) : (setStalled r s).ibufCap = s.ibufCap := rfl
@[simp] theorem setStalled_obufCap (r : List Access) (s : State) : (setStalled r s).obufCap = s.obufCap := rfl
@[simp] theorem setStalled_ibuf (r : List Access) (s : State) : (setStalled r s).ibuf = s.ibuf := rfl
@[simp] theorem setStalled_obuf (r : List Access) (s : State) : (setStalled r s).obuf = s.obuf := rfl
@[simp] theorem setStalled_dict (r : List Access) (s : State) : (setStalled r s).dict = s.dict := rfl
@[simp] theorem setStalled_running (r : List Access) (s : State) : (setStalled r s).running = s.running := rfl
@[simp] theorem setStalled_err (r : List Access) (s : State) : (setStalled r s).err = s.err := rfl
@[simp] theorem setStalled_errcode (r : List Access) (s : State) : (setStalled r s).errcode = s.errcode := rfl
@[simp] theorem setStalled_phase (r : List Access) (s : State) : (setStalled r s).phase = s.phase := rfl
@[simp] theorem setStalled_result (r : List Access) (s : State) : (setStalled r s).result = s.result := rfl
@[simp] theorem setStalled_bufLen (r : List Access) (s : State) : (setStalled r s).bufLen = s.bufLen := rfl
@[simp] theorem setStalled_brPos (r : List Access) (s : State) : (setStalled r s).brPos = s.brPos := rfl
@[simp] theorem setStalled_minCodeSize (r : List Access) (s : State) : (setStalled r s).minCodeSize = s.minCodeSize := rfl
@[simp] theorem setStalled_codeWidth (r : List Access) (s : State) : (setStalled r s).codeWidth = s.codeWidth := rfl
@[simp] theorem setStalled_clearCode (r : List Access) (s : State) : (setStalled r s).clearCode = s.clearCode := rfl
@[simp] theorem setStalled_endCode (r : List Access) (s : State) : (setStalled r s).endCode = s.endCode := rfl
@[simp] theorem setStalled_dictSize (r : List Access) (s : State) : (setStalled r s).dictSize = s.dictSize := rfl
@[simp] theorem setStalled_lastCode (r : List Access) (s : State) : (setStalled r s).lastCode = s.lastCode := rfl
@[simp] theorem setStalled_lzwCode (r : List Access) (s : State) : (setStalled r s).lzwCode = s.lzwCode := rfl
@[simp] theorem setStalled_outLen (r : List Access) (s : State) : (setStalled r s).outLen = s.outLen := rfl
@[simp] theorem setStalled_ilWidth (r : List Access) (s : State) : (setStalled r s).ilWidth = s.ilWidth := rfl
@[simp] theorem setStalled_ilHeight (r : List Access) (s : State) : (setStalled r s).ilHeight = s.ilHeight := rfl
@[simp] theorem setStalled_interlace (r : List Access) (s : State) : (setStalled r s).interlace = s.interlace := rfl
@[simp] theorem setStalled_ilIndex (r : List Access) (s : State) : (setStalled r s).ilIndex = s.ilIndex := rfl
@[simp] theorem setStalled_env_resetIn (r : List Access) (s : State) : (setStalled r s).env.resetIn = s.env.resetIn := rfl
@[simp] theorem setStalled_env_inputs (r : List Access) (s : State) : (setStalled r s).env.inputs = s.env.inputs := rfl
@[simp] theorem setStalled_env_stalled (r : List Access) (s : State) : (setStalled r s).env.stalled = r := rfl
@[simp] theorem setStalled_env_response (r : List Access) (s : State) : (setStalled r s).env.response = s.env.response := rfl
@[simp] theorem setStalled_env_resets (r : List Access) (s : State) : (setStalled r s).env.resets = s.env.resets := rfl
@[simp] theorem setStalled_env_draws (r : List Access) (s : State) : (setStalled r s).env.draws = s.env.draws := rfl

/-! ### stall -/

@[simp] theorem stall_ibufCap (a : Access) (s : State) : (stall a s).ibufCap = s.ibufCap := rfl
@[simp] theorem stall_obufCap (a : Access) (s : State) : (stall a s).obufCap = s.obufCap := rfl
@[simp] theorem stall_ibuf (a : Access) (s : State) : (stall a s).ibuf = s.ibuf := rfl
@[simp] theorem stall_obuf (a : Access) (s : State) : (stall a s).obuf = s.obuf := rfl
@[simp] theorem stall_dict (a : Access) (s : State) : (stall a s).dict = s.dict := rfl
@[simp] theorem stall_running (a : Access) (s : State) : (stall a s).running = s.running := rfl
@[simp] theorem stall_err (a : Access) (s : State) : (stall a s).err = s.err := rfl
@[simp] theorem stall_errcode (a : Access) (s : State) : (stall a s).errcode = s.errcode := rfl
@[simp] theorem stall_phase (a : Access) (s : State) : (stall a s).phase = s.phase := rfl
@[simp] theorem stall_result (a : Access) (s : State) : (stall a s).result = s.result := rfl
@[simp] theorem stall_bufLen (a : Access) (s : State) : (stall a s).bufLen = s.bufLen := rfl
@[simp] theorem stall_brPos (a : Access) (s : State) : (stall a s).brPos = s.brPos := rfl
@[simp] theorem stall_minCodeSize (a : Access) (s : State) : (stall a s).minCodeSize = s.minCodeSize := rfl
@[simp] theorem stall_codeWidth (a : Access) (s : State) : (stall a s).codeWidth = s.codeWidth := rfl
@[simp] theorem stall_clearCode (a : Access) (s : State) : (stall a s).clearCode = s.clearCode := rfl
@[simp] theorem stall_endCode (a : Access) (s : State) : (stall a s).endCode = s.endCode := rfl
@[simp] theorem stall_dictSize (a : Access) (s : State) : (stall a s).dictSize = s.dictSize := rfl
@[simp] theorem stall_lastCode (a : Access) (s : State) : (stall a s).lastCode = s.lastCode := rfl
@[simp] theorem stall_lzwCode (a : Access) (s : State) : (stall a s).lzwCode = s.lzwCode := rfl
@[simp] theorem stall_outLen (a : Access) (s : State) : (stall a s).outLen = s.outLen := rfl
@[simp] theorem stall_ilWidth (a : Access) (s : State) : (stall a s).ilWidth = s.ilWidth := rfl
@[simp] theorem stall_ilHeight (a : Access) (s : State) : (stall a s).ilHeight = s.ilHeight := rfl
@[simp] theorem stall_interlace (a : Access) (s : State) : (stall a s).interlace = s.interlace := rfl
@[simp] theorem stall_ilIndex (a : Access) (s : State) : (stall a s).ilIndex = s.ilIndex := rfl
@[simp] theorem stall_env_resetIn (a : Access) (s : State) : (stall a s).env.resetIn = s.env.resetIn := rfl
@[simp] theorem stall_env_inputs (a : Access) (s : State) : (stall a s).env.inputs = s.env.inputs := rfl
@[simp] theorem stall_env_stalled (a : Access) (s : State) : (stall a s).env.stalled = s.env.stalled ++ [a] := rfl
@[simp] theorem stall_env_response (a : Access) (s : State) : (stall a s).env.response = s.env.response := rfl
@[simp] theorem stall_env_resets (a : Access) (s : State) : (stall a s).env.resets = s.env.resets := rfl
@[simp] theorem stall_env_draws (a : Access) (s : State) : (stall a s).env.draws = s.env.draws := rfl

/-! ### nextDraw -/

@[simp] theorem nextDraw_ibufCap (s : State) : (nextDraw s).ibufCap = s.ibufCap := rfl
@[simp] theorem nextDraw_obufCap (s : State) : (nextDraw s).obufCap = s.obufCap := rfl
@[simp] theorem nextDraw_ibuf (s : State) : (nextDraw s).ibuf = s.ibuf := rfl
@[simp] theorem nextDraw_obuf (s : State) : (nextDraw s).obuf = s.obuf := rfl
@[simp] theorem nextDraw_dict (s : State) : (nextDraw s).dict = s.dict := rfl
@[simp] theorem nextDraw_running (s : State) : (nextDraw s).running = s.running := rfl
@[simp] theorem nextDraw_err (s : State) : (nextDraw s).err = s.err := rfl
@[simp] theorem nextDraw_errcode (s : State) : (nextDraw s).errcode = s.errcode := rfl
@[simp] theorem nextDraw_phase (s : State) : (nextDraw s).phase = s.phase := rfl
@[simp] theorem nextDraw_result (s : State) : (nextDraw s).result = s.result := rfl
@[simp] theorem nextDraw_bufLen (s : State) : (nextDraw s).bufLen = s.bufLen := rfl
@[simp] theorem nextDraw_brPos (s : State) : (nextDraw s).brPos = s.brPos := rfl
@[simp] theorem nextDraw_minCodeSize (s : State) : (nextDraw s).minCodeSize = s.minCodeSize := rfl
@[simp] theorem nextDraw_codeWidth (s : State) : (nextDraw s).codeWidth = s.codeWidth := rfl
@[simp] theorem nextDraw_clearCode (s : State) : (nextDraw s).clearCode = s.clearCode := rfl
@[simp] theorem nextDraw_endCode (s : State) : (nextDraw s).endCode = s.endCode := rfl
@[simp] theorem nextDraw_dictSize (s : State) : (nextDraw s).dictSize = s.dictSize := rfl
@[simp] theorem nextDraw_lastCode (s : State) : (nextDraw s).lastCode = s.lastCode := rfl
@[simp] theorem nextDraw_lzwCode (s : State) : (nextDraw s).lzwCode = s.lzwCode := rfl
@[simp] theorem nextDraw_outLen (s : State) : (nextDraw s).outLen = s.outLen := rfl
@[simp] theorem nextDraw_ilWidth (s : State) : (nextDraw s).ilWidth = s.ilWidth := rfl
@[simp] theorem nextDraw_ilHeight (s : State) : (nextDraw s).ilHeight = s.ilHeight := rfl
@[simp] theorem nextDraw_interlace (s : State) : (nextDraw s).interlace = s.interlace := rfl
@[simp] theorem nextDraw_ilIndex (s : State) : (nextDraw s).ilIndex = s.ilIndex := rfl
@[simp] theorem nextDraw_env_resetIn (s : State) : (nextDraw s).env.resetIn = s.env.resetIn := rfl
@[simp] theorem nextDraw_env_inputs (s : State) : (nextDraw s).env.inputs = s.env.inputs := rfl
@[simp] theorem nextDraw_env_stalled (s : State) : (nextDraw s).env.stalled = s.env.stalled := rfl
@[simp] theorem nextDraw_env_response (s : State) : (nextDraw s).env.response = s.env.response := rfl
@[simp] theorem nextDraw_env_resets (s : State) : (nextDraw s).env.resets = s.env.resets := rfl
@[simp] theorem nextDraw_env_draws (s : State) : (nextDraw s).env.draws = s.env.draws + 1 := rfl

/-! ### respond -/

@[simp] theorem respond_ibufCap (b : Bool) (v : Word) (s : State) : (respond b v s).ibufCap = s.ibufCap := rfl
@[simp] theorem respond_obufCap (b : Bool) (v : Word) (s : State) : (respond b v s).obufCap = s.obufCap := rfl
@[simp] theorem respond_ibuf (b : Bool) (v : Word) (s : State) : (respond b v s).ibuf = s.ibuf := rfl
@[simp] theorem respond_obuf (b : Bool) (v : Word) (s : State) : (respond b v s).obuf = s.obuf := rfl
@[simp] theorem respond_dict (b : Bool) (v : Word) (s : State) : (respond b v s).dict = s.dict := rfl
@[simp] theorem respond_running (b : Bool) (v : Word) (s : State) : (respond b v s).running = s.running := rfl
@[simp] theorem respond_err (b : Bool) (v : Word) (s : State) : (respond b v s).err = s.err := rfl
@[simp] theorem respond_errcode (b : Bool) (v : Word) (s : State) : (respond b v s).errcode = s.errcode := rfl
@[simp] theorem respond_phase (b : Bool) (v : Word) (s : State) : (respond b v s).phase = s.phase := rfl
@[simp] theorem respond_result (b : Bool) (v : Word) (s : State) : (respond b v s).result = s.result := rfl
@[simp] theorem respond_bufLen (b : Bool) (v : Word) (s : State) : (respond b v s).bufLen = s.bufLen := rfl
@[simp] theorem respond_brPos (b : Bool) (v : Word) (s : State) : (respond b v s).brPos = s.brPos := rfl
@[simp] theorem respond_minCodeSize (b : Bool) (v : Word) (s : State) : (respond b v s).minCodeSize = s.minCodeSize := rfl
@[simp] theorem respond_codeWidth (b : Bool) (v : Word) (s : State) : (respond b v s).codeWidth = s.codeWidth := rfl
@[simp] theorem respond_clearCode (b : Bool) (v : Word) (s : State) : (respond b v s).clearCode = s.clearCode := rfl
@[simp] theorem respond_endCode (b : Bool) (v : Word) (s : State) : (respond b v s).endCode = s.endCode := rfl
@[simp] theorem respond_dictSize (b : Bool) (v : Word) (s : State) : (respond b v s).dictSize = s.dictSize := rfl
@[simp] theorem respond_lastCode (b : Bool) (v : Word) (s : State) : (respond b v s).lastCode = s.lastCode := rfl
@[simp] theorem respond_lzwCode (b : Bool) (v : Word) (s : State) : (respond b v s).lzwCode = s.lzwCode := rfl
@[simp] theorem respond_outLen (b : Bool) (v : Word) (s : State) : (respond b v s).outLen = s.outLen := rfl
@[simp] theorem respond_ilWidth (b : Bool) (v : Word) (s : State) : (respond b v s).ilWidth = s.ilWidth := rfl
@[simp] theorem respond_ilHeight (b : Bool) (v : Word) (s : State) : (respond b v s).ilHeight = s.ilHeight := rfl
@[simp] theorem respond_interlace (b : Bool) (v : Word) (s : State) : (respond b v s).interlace = s.interlace := rfl
@[simp] theorem respond_ilIndex (b : Bool) (v : Word) (s : State) : (respond b v s).ilIndex = s.ilIndex := rfl
@[simp] theorem respond_env_resetIn (b : Bool) (v : Word) (s : State) : (respond b v s).env.resetIn = s.env.resetIn := rfl
@[simp] theorem respond_env_inputs (b : Bool) (v : Word) (s : State) : (respond b v s).env.inputs = s.env.inputs := rfl
@[simp] theorem respond_env_stalled (b : Bool) (v : Word) (s : State) : (respond b v s).env.stalled = s.env.stalled := rfl
@[simp] theorem respond_env_response (b : Bool) (v : Word) (s : State) : (respond b v s).env.response = some { error := b, data := v } := rfl
@[simp] theorem respond_env_resets (b : Bool) (v : Word) (s : State) : (respond b v s).env.resets = s.env.resets := rfl
@[simp] theorem respond_env_draws (b : Bool) (v : Word) (s : State) : (respond b v s).env.draws = s.env.draws := rfl

/-! ### releaseReset -/

@[simp] theorem releaseReset_ibufCap (s : State) : (releaseReset s).ibufCap = s.ibufCap := rfl
@[simp] theorem releaseReset_obufCap (s : State) : (releaseReset s).obufCap = s.obufCap := rfl
@[simp] theorem releaseReset_ibuf (s : State) : (releaseReset s).ibuf = s.ibuf := rfl
@[simp] theorem releaseReset_obuf (s : State) : (releaseReset s).obuf = s.obuf := rfl
@[simp] theorem releaseReset_dict (s : State) : (releaseReset s).dict = s.dict := rfl
@[simp] theorem releaseReset_running (s : State) : (releaseReset s).running = s.running := rfl
@[simp] theorem releaseReset_err (s : State) : (releaseReset s).err = s.err := rfl
@[simp] theorem releaseReset_errcode (s : State) : (releaseReset s).errcode = s.errcode := rfl
@[simp] theorem releaseReset_phase (s : State) : (releaseReset s).phase = s.phase := rfl
@[simp] theorem releaseReset_result (s : State) : (releaseReset s).result = s.result := rfl
@[simp] theorem releaseReset_bufLen (s : State) : (releaseReset s).bufLen = s.bufLen := rfl
@[simp] theorem releaseReset_brPos (s : State) : (releaseReset s).brPos = s.brPos := rfl
@[simp] theorem releaseReset_minCodeSize (s : State) : (releaseReset s).minCodeSize = s.minCodeSize := rfl
@[simp] theorem releaseReset_codeWidth (s : State) : (releaseReset s).codeWidth = s.codeWidth := rfl
@[simp] theorem releaseReset_clearCode (s : State) : (releaseReset s).clearCode = s.clearCode := rfl
@[simp] theorem releaseReset_endCode (s : State) : (releaseReset s).endCode = s.endCode := rfl
@[simp] theorem releaseReset_dictSize (s : State) : (releaseReset s).dictSize = s.dictSize := rfl
@[simp] theorem releaseReset_lastCode (s : State) : (releaseReset s).lastCode = s.lastCode := rfl
@[simp] theorem releaseReset_lzwCode (s : State) : (releaseReset s).lzwCode = s.lzwCode := rfl
@[simp] theorem releaseReset_outLen (s : State) : (releaseReset s).outLen = s.outLen := rfl
@[simp] theorem releaseReset_ilWidth (s : State) : (releaseReset s).ilWidth = s.ilWidth := rfl
@[simp] theorem releaseReset_ilHeight (s : State) : (releaseReset s).ilHeight = s.ilHeight := rfl
@[simp] theorem releaseReset_interlace (s : State) : (releaseReset s).interlace = s.interlace := rfl
@[simp] theorem releaseReset_ilIndex (s : State) : (releaseReset s).ilIndex = s.ilIndex := rfl
@[simp] theorem releaseReset_env_resetIn (s : State) : (releaseReset s).env.resetIn = false := rfl
@[simp] theorem releaseReset_env_inputs (s : State) : (releaseReset s).env.inputs = s.env.inputs := rfl
@[simp] theorem releaseReset_env_stalled (s : State) : (releaseReset s).env.stalled = s.env.stalled := rfl
@[simp] theorem releaseReset_env_response (s : State) : (releaseReset s).env.response = s.env.response := rfl
@[simp] theorem releaseReset_env_resets (s : State) : (releaseReset s).env.resets = s.env.resets := rfl
@[simp] theorem releaseReset_env_draws (s : State) : (releaseReset s).env.draws = s.env.draws := rfl

/-! ### recordError -/

@[simp] theorem recordError_ibufCap (e : ErrCode) (s : State) : (recordError e s).ibufCap = s.ibufCap := by unfold recordError; split <;> rfl
@[simp] theorem recordError_obufCap (e : ErrCode) (s : State) : (recordError e s).obufCap = s.obufCap := by unfold recordError; split <;> rfl
@[simp] theorem recordError_ibuf (e : ErrCode) (s : State) : (recordError e s).ibuf = s.ibuf := by unfold recordError; split <;> rfl
@[simp] theorem recordError_obuf (e : ErrCode) (s : State) : (recordError e s).obuf = s.obuf := by unfold recordError; split <;> rfl
@[simp] theorem recordError_dict (e : ErrCode) (s : State) : (recordError e s).dict = s.dict := by unfold recordError; split <;> rfl
@[simp] theorem recordError_running (e : ErrCode) (s : State) : (recordError e s).running = s.running := by unfold recordError; split <;> rfl
@[simp] theorem recordError_phase (e : ErrCode) (s : State) : (recordError e s).phase = s.phase := by unfold recordError; split <;> rfl
@[simp] theorem recordError_result (e : ErrCode) (s : State) : (recordError e s).result = s.result := by unfold recordError; split <;> rfl
@[simp] theorem recordError_bufLen (e : ErrCode) (s : State) : (recordError e s).bufLen = s.bufLen := by unfold recordError; split <;> rfl
@[simp] theorem recordError_brPos (e : ErrCode) (s : State) : (recordError e s).brPos = s.brPos := by unfold recordError; split <;> rfl
@[simp] theorem recordError_minCodeSize (e : ErrCode) (s : State) : (recordError e s).minCodeSize = s.minCodeSize := by unfold recordError; split <;> rfl
@[simp] theorem recordError_codeWidth (e : ErrCode) (s : State) : (recordError e s).codeWidth = s.codeWidth := by unfold recordError; split <;> rfl
@[simp] theorem recordError_clearCode (e : ErrCode) (s : State) : (recordError e s).clearCode = s.clearCode := by unfold recordError; split <;> rfl
@[simp] theorem recordError_endCode (e : ErrCode) (s : State) : (recordError e s).endCode = s.endCode := by unfold recordError; split <;> rfl
@[simp] theorem recordError_dictSize (e : ErrCode) (s : State) : (recordError e s).dictSize = s.dictSize := by unfold recordError; split <;> rfl
@[simp] theorem recordError_lastCode (e : ErrCode) (s : State) : (recordError e s).lastCode = s.lastCode := by unfold recordError; split <;> rfl
@[simp] theorem recordError_lzwCode (e : ErrCode) (s : State) : (recordError e s).lzwCode = s.lzwCode := by unfold recordError; split <;> rfl
@[simp] theorem recordError_outLen (e : ErrCode) (s : State) : (recordError e s).outLen = s.outLen := by unfold recordError; split <;> rfl
@[simp] theorem recordError_ilWidth (e : ErrCode) (s : State) : (recordError e s).ilWidth = s.ilWidth := by unfold recordError; split <;> rfl
@[simp] theorem recordError_ilHeight (e : ErrCode) (s : State) : (recordError e s).ilHeight = s.ilHeight := by unfold recordError; split <;> rfl
@[simp] theorem recordError_interlace (e : ErrCode) (s : State) : (recordError e s).interlace = s.interlace := by unfold recordError; split <;> rfl
@[simp] theorem recordError_ilIndex (e : ErrCode) (s : State) : (recordError e s).ilIndex = s.ilIndex := by unfold recordError; split <;> rfl
@[simp] theorem recordError_env (e : ErrCode) (s : State) : (recordError e s).env = s.env := by unfold recordError; split <;> rfl

/-! ### growWidth -/

@[simp] theorem growWidth_ibufCap (s : State) : (growWidth s).ibufCap = s.ibufCap := by unfold growWidth; split <;> rfl
@[simp] theorem growWidth_obufCap (s : State) : (growWidth s).obufCap = s.obufCap := by unfold growWidth; split <;> rfl
@[simp] theorem growWidth_ibuf (s : State) : (growWidth s).ibuf = s.ibuf := by unfold growWidth; split <;> rfl
@[simp] theorem growWidth_obuf (s : State) : (growWidth s).obuf = s.obuf := by unfold growWidth; split <;> rfl
@[simp] theorem growWidth_dict (s : State) : (growWidth s).dict = s.dict := by unfold growWidth; split <;> rfl
@[simp] theorem growWidth_running (s : State) : (growWidth s).running = s.running := by unfold growWidth; split <;> rfl
@[simp] theorem growWidth_err (s : State) : (growWidth s).err = s.err := by unfold growWidth; split <;> rfl
@[simp] theorem growWidth_errcode (s : State) : (growWidth s).errcode = s.errcode := by unfold growWidth; split <;> rfl
@[simp] theorem growWidth_phase (s : State) : (growWidth s).phase = s.phase := by unfold growWidth; split <;> rfl
@[simp] theorem growWidth_result (s : State) : (growWidth s).result = s.result := by unfold growWidth; split <;> rfl
@[simp] theorem growWidth_bufLen (s : State) : (growWidth s).bufLen = s.bufLen := by unfold growWidth; split <;> rfl
@[simp] theorem growWidth_brPos (s : State) : (growWidth s).brPos = s.brPos := by unfold growWidth; split <;> rfl
@[simp] theorem growWidth_minCodeSize (s : State) : (growWidth s).minCodeSize = s.minCodeSize := by unfold growWidth; split <;> rfl
@[simp] theorem growWidth_clearCode (s : State) : (growWidth s).clearCode = s.clearCode := by unfold growWidth; split <;> rfl
@[simp] theorem growWidth_endCode (s : State) : (growWidth s).endCode = s.endCode := by unfold growWidth; split <;> rfl
@[simp] theorem growWidth_dictSize (s : State) : (growWidth s).dictSize = s.dictSize := by unfold growWidth; split <;> rfl
@[simp] theorem growWidth_lastCode (s : State) : (growWidth s).lastCode = s.lastCode := by unfold growWidth; split <;> rfl
@[simp] theorem growWidth_lzwCode (s : State) : (growWidth s).lzwCode = s.lzwCode := by unfold growWidth; split <;> rfl
@[simp] theorem growWidth_outLen (s : State) : (growWidth s).outLen = s.outLen := by unfold growWidth; split <;> rfl
@[simp] theorem growWidth_ilWidth (s : State) : (growWidth s).ilWidth = s.ilWidth := by unfold growWidth; split <;> rfl
@[simp] theorem growWidth_ilHeight (s : State) : (growWidth s).ilHeight = s.ilHeight := by unfold growWidth; split <;> rfl
@[simp] theorem growWidth_interlace (s : State) : (growWidth s).interlace = s.interlace := by unfold growWidth; split <;> rfl
@[simp] theorem growWidth_ilIndex (s : State) : (growWidth s).ilIndex = s.ilIndex := by unfold growWidth; split <;> rfl
@[simp] theorem growWidth_env (s : State) : (growWidth s).env = s.env := by unfold growWidth; split <;> rfl

@[simp] theorem recordError_err (e : ErrCode) (s : State) : (recordError e s).err = true := by
  unfold recordError; split <;> simp_all

/-- The first error wins: a later one leaves ERRCODE as it is (R109). -/
@[simp] theorem recordError_errcode (e : ErrCode) (s : State) :
    (recordError e s).errcode = if s.err then s.errcode else e := by
  unfold recordError; split <;> simp_all

end Sys2Proof.Machine
end

