-- ==== Sys2Proof/Laws/Ops.lean ====
section
/-! SUPPORT. What each shared operation does, said once: the test of ERR, raising an error, an illegal word, and the
primitives of the LZW unit. -/
namespace Sys2Proof.Machine

/-! ### The test of ERR and raising an error -/

/-- With ERR = 0 a command runs. -/
theorem unlessErr_clear {s : State} {f : State → Result} (h : s.err = false) : unlessErr s f = f s := by
  simp [unlessErr, h]

/-- With ERR = 1 it is dropped (R111). -/
theorem unlessErr_set {s : State} {f : State → Result} (h : s.err = true) : unlessErr s f = .next s := by
  simp [unlessErr, h]

/-- The first error of a command outside the decode loop changes STATUS.ERR and STATUS.ERRCODE and nothing else (R109, R110). -/
theorem raise_command {e : ErrCode} {s : State} (h : s.err = false) :
    raise e .command s = { s with err := true, errcode := e } := by
  simp [raise, recordError, h]

/-- The first error inside a step also sets PHASE to FAILED (R109, R110). -/
theorem raise_decodeStep {e : ErrCode} {s : State} (h : s.err = false) :
    raise e .decodeStep s = { s with err := true, errcode := e, phase := .failed } := by
  simp [raise, recordError, h, setPhase]

/-- A later error outside the decode loop changes nothing (R109). -/
theorem raise_command_again {e : ErrCode} {s : State} (h : s.err = true) : raise e .command s = s := by
  simp [raise, recordError, h]

theorem illegalCommand_clear {op : BitVec 8} {s : State} (h : s.err = false) :
    illegalCommand op s = { s with err := true, errcode := .illegalCommand } := by
  simp [illegalCommand, h, raise_command h]

/-- While ERR = 1 no illegal word changes anything: it is dropped, or its raise is ignored (R68, R109). -/
theorem illegalCommand_set {op : BitVec 8} {s : State} (h : s.err = true) : illegalCommand op s = s := by
  unfold illegalCommand
  split
  · rfl
  · exact raise_command_again h

theorem whileDecoding_true {s : State} {f : State → Result} (h : s.phase.decoding = true) : whileDecoding s f = f s := by
  simp [whileDecoding, h]

theorem whileDecoding_false {s : State} {f : State → Result} (h : s.phase.decoding = false) :
    whileDecoding s f = .next (raise .sequenceError .command s) := by
  simp [whileDecoding, h]

/-- A command either is dropped or runs. -/
theorem unlessErr_next {s t : State} {f : State → Result} (h : unlessErr s f = .next t) :
    s.err = true ∧ t = s ∨ s.err = false ∧ f s = .next t := by
  cases he : s.err
  · rw [unlessErr_clear he] at h; exact .inr ⟨rfl, h⟩
  · rw [unlessErr_set he] at h; cases h; exact .inl ⟨rfl, rfl⟩

/-- A step outside a decode raises SEQUENCE_ERROR, one inside runs. -/
theorem whileDecoding_next {s t : State} {f : State → Result} (h : whileDecoding s f = .next t) :
    s.phase.decoding = false ∧ t = raise .sequenceError .command s ∨ s.phase.decoding = true ∧ f s = .next t := by
  cases hd : s.phase.decoding
  · rw [whileDecoding_false hd] at h; cases h; exact .inl ⟨rfl, rfl⟩
  · rw [whileDecoding_true hd] at h; exact .inr ⟨rfl, h⟩

theorem decoding_iff (p : Phase) : p.decoding = true ↔ p = .literal ∨ p = .normal := by cases p <;> decide

/-! ### The dictionary -/

theorem dictEntry_setEntry (s : State) (c d : Nat) (e : Expansion) :
    dictEntry (setEntry c e s) d = if d = c then some e else dictEntry s d := sparseGet_sparseSet _ _ _ _

theorem dictEntry_dictInit (s : State) (c : Nat) :
    dictEntry (dictInit s) c = if c < s.clearCode.toNat then some (Expansion.literal c) else none :=
  sparseGet_literals _ _

theorem dictEntry_congr {s t : State} (h : t.dict = s.dict) (c : Nat) : dictEntry t c = dictEntry s c := by
  simp [dictEntry, h]

@[simp] theorem indices_append (e : Expansion) (k : Byte) : (e.append k).indices = e.indices ++ [k] := rfl

@[simp] theorem indices_literal (c : Nat) : (Expansion.literal c).indices = [BitVec.ofNat 8 c] := rfl

theorem indices_length_pos (e : Expansion) : 0 < e.indices.length := by simp [Expansion.indices]

/-! ### Emit (R82) -/

theorem emit_some {xs : List Byte} {s : State} (h : s.outLen.toNat + xs.length ≤ s.obufCap.toNat) :
    emit xs s = some
      { s with
        obuf := Memory.writeAll s.obuf s.outLen.toNat xs
        outLen := BitVec.ofNat 25 (s.outLen.toNat + xs.length) } := by
  unfold emit; rw [if_neg (by omega)]

theorem emit_none {xs : List Byte} {s : State} (h : s.obufCap.toNat < s.outLen.toNat + xs.length) : emit xs s = none := by
  unfold emit; rw [if_pos (by omega)]

/-- OUT_LEN after an Emit counts the new indices. -/
theorem emit_outLen (s : State) (xs : List Byte) (h : s.outLen.toNat + xs.length ≤ s.obufCap.toNat) :
    (BitVec.ofNat 25 (s.outLen.toNat + xs.length)).toNat = s.outLen.toNat + xs.length := by
  have := s.obufCap.isLt
  rw [BitVec.toNat_ofNat]; omega

/-! ### Register (R83) -/

/-- What the first half of Register leaves in DICT: the new entry at DICT_SIZE below 4096, everything else as it was. -/
theorem dictEntry_addEntry (e : Expansion) (s : State) (c : Nat) :
    dictEntry (addEntry e s) c =
      if c = s.dictSize.toNat ∧ s.dictSize.toNat < 4096 then some e else dictEntry s c := by
  by_cases h : s.dictSize.toNat < 4096
  · simpa [addEntry, h, dictEntry] using dictEntry_setEntry s s.dictSize.toNat c e
  · simp [addEntry, h, dictEntry]

/-- The first half of Register changes DICT and DICT_SIZE only. -/
theorem addEntry_eq (e : Expansion) (s : State) :
    addEntry e s = { s with dict := (addEntry e s).dict, dictSize := s.dictSize + 1#32 } := by
  unfold addEntry; split <;> rfl

/-- The second half changes CODE_WIDTH only. -/
theorem growWidth_eq (s : State) : growWidth s = { s with codeWidth := (growWidth s).codeWidth } := by
  unfold growWidth; split <;> rfl

/-- Register changes DICT, DICT_SIZE and CODE_WIDTH only. -/
theorem register_eq (e : Expansion) (s : State) :
    register e s =
      { s with
        dict := (addEntry e s).dict
        dictSize := s.dictSize + 1#32
        codeWidth := (register e s).codeWidth } := by
  have h : register e s = { addEntry e s with codeWidth := (register e s).codeWidth } := growWidth_eq _
  generalize (register e s).codeWidth = w at h
  rw [h, addEntry_eq]

theorem dictEntry_register (e : Expansion) (s : State) (c : Nat) :
    dictEntry (register e s) c =
      if c = s.dictSize.toNat ∧ s.dictSize.toNat < 4096 then some e else dictEntry s c := by
  rw [← dictEntry_addEntry]; exact dictEntry_congr (by simp [register]) c

/-- The growth rule: after the registration, `dictSize = 2^width` and `width < 12` raise the width by one (R83, R91). -/
theorem register_codeWidth (e : Expansion) (s : State) :
    (register e s).codeWidth =
      if (s.dictSize + 1#32).toNat = 2 ^ s.codeWidth.toNat ∧ s.codeWidth.toNat < 12 then s.codeWidth + 1#4
      else s.codeWidth := by
  have h : (addEntry e s).dictSize = s.dictSize + 1#32 := by rw [addEntry_eq]
  have h' : (addEntry e s).codeWidth = s.codeWidth := by rw [addEntry_eq]
  rw [register, growWidth, h, h']
  split <;> simp_all

theorem addEntry_dict_rising (e : Expansion) (s : State) (w : rising s.dict = true) : rising (addEntry e s).dict = true := by
  unfold addEntry
  split
  · exact sparseSet_rising _ _ _ w
  · exact w

end Sys2Proof.Machine
end

