-- ==== Sys2Proof/Laws/Stream.lean ====
section
/-! SUPPORT. The bit stream: the loop of BitRead collects the bits of the stream's little-endian integer (R48, R49, R74). -/
namespace Sys2Proof.Machine

/-- Bit `i` of the field read at `p` is bit `p + i` of the stream. -/
theorem field_getLsbD (s : State) (p n i : Nat) :
    (field s p n).getLsbD i = (decide (i < n) && decide (i < 32) && bitAt s (p + i)) := by
  induction n with
  | zero => simp [field]
  | succ n ih =>
    rw [field, BitVec.getLsbD_or, ih, BitVec.getLsbD_shiftLeft, BitVec.getLsbD_setWidth]
    by_cases hi : i < 32
    · rcases Nat.lt_trichotomy i n with h | h | h
      · have : i < n + 1 := by omega
        simp [h, hi, this]
      · subst h; simp [hi]
      · have h1 : ¬ i < n := by omega
        have h2 : ¬ i < n + 1 := by omega
        have h3 : i - n ≠ 0 := by omega
        simp [h1, h2, h3, BitVec.getLsbD_ofBool]
    · simp [hi]

/-- Bit `p` of the little-endian integer of a buffer is bit `p mod 8` of byte `p / 8`. -/
theorem streamInteger_testBit (bs : List Byte) (p : Nat) :
    (streamInteger bs).testBit p = ((bs[p / 8]?).getD 0#8).getLsbD (p % 8) := by
  induction bs generalizing p with
  | nil => simp [streamInteger]
  | cons b bs ih =>
    have hb : b.toNat < 2 ^ 8 := b.isLt
    rw [streamInteger, Nat.add_comm, Nat.testBit_two_pow_mul_add _ hb]
    by_cases h : p < 8
    · have h0 : p / 8 = 0 := by omega
      have h1 : p % 8 = p := by omega
      simp [h, h0, h1, BitVec.getLsbD]
    · have h0 : p / 8 = (p - 8) / 8 + 1 := by omega
      have h1 : p % 8 = (p - 8) % 8 := by omega
      simp [h, ih, h0, h1]

/-- Bit `p` of the stream's integer, inside the stream. -/
theorem stream_testBit (s : State) {p : Nat} (h : p < 8 * s.bufLen.toNat) :
    (streamInteger s.stream).testBit p = bitAt s p := by
  have hp : p / 8 < s.bufLen.toNat := by omega
  rw [streamInteger_testBit]
  simp [State.stream, bitAt, List.getElem?_range hp]

/-- A field of at most 32 bits inside the stream is `floor(S / 2^p) mod 2^n` (R49, R74). -/
theorem field_toNat (s : State) {p n : Nat} (h32 : n ≤ 32) (h : p + n ≤ 8 * s.bufLen.toNat) :
    (field s p n).toNat = streamInteger s.stream / 2 ^ p % 2 ^ n := by
  apply Nat.eq_of_testBit_eq
  intro i
  rw [Nat.testBit_mod_two_pow, Nat.testBit_div_two_pow]
  change (field s p n).getLsbD i = _
  rw [field_getLsbD]
  by_cases hi : i < n
  · have h3 : i < 32 := by omega
    have : p + i < 8 * s.bufLen.toNat := by omega
    simp [hi, h3, ← stream_testBit s this, Nat.add_comm]
  · simp [hi]

theorem field_lt (s : State) (p n : Nat) : (field s p n).toNat < 2 ^ n := by
  apply Nat.lt_pow_two_of_testBit
  intro i hi
  change (field s p n).getLsbD i = _
  rw [field_getLsbD]
  have : ¬ i < n := by omega
  simp [this]

/-- The field does not depend on anything but IBUF and the reset that its unwritten bytes are drawn for. -/
theorem field_congr {s t : State} (hi : t.ibuf = s.ibuf) (hr : t.env.resets = s.env.resets) (p n : Nat) :
    field t p n = field s p n := by
  have hb : ∀ q, bitAt t q = bitAt s q := fun q => by simp [bitAt, ibufByte, hi, hr]
  induction n with
  | zero => rfl
  | succ n ih => rw [field, field, ih, hb]

theorem stream_length (s : State) : s.stream.length = s.bufLen.toNat := by simp [State.stream]

/-- BitRead, when the bits are there (R74). -/
theorem bitRead_some {n : Nat} {s : State} (h : s.hasBits n) :
    bitRead n s = some (field s s.brPos.toNat n, setCursor (s.brPos.toNat + n) s) := by
  unfold bitRead State.hasBits at *; rw [if_neg (by omega)]

/-- BitRead, when they are not: nothing is consumed (R74). -/
theorem bitRead_none {n : Nat} {s : State} (h : ¬ s.hasBits n) : bitRead n s = none := by
  unfold bitRead State.hasBits at *; rw [if_pos (by omega)]

/-- BitRead's value, when the bits are there: the bits at the cursor (R49, R74). -/
theorem field_atCursor {n : Nat} {s : State} (h32 : n ≤ 32) (h : s.hasBits n) :
    (field s s.brPos.toNat n).toNat = s.bitsAtCursor n := field_toNat s h32 h

end Sys2Proof.Machine
end

