-- ==== Sys2Proof/Laws/Lzw.lean ====
section
/-! SUPPORT. One code of the LZW unit, case by case: what the body of a step does with it, and which entries the invariant of
R45 gives for it. -/
namespace Sys2Proof.Machine

/-- The code a step reads, as the 12-bit LZW_CODE (R84). -/
def readCode (s : State) : Code := (field s s.brPos.toNat s.codeWidth.toNat).setWidth 12

/-- The state once the code has been read and recorded: the cursor past it, LZW_CODE = code (R84). -/
def afterRead (s : State) : State := setLzwCode (readCode s) (setCursor (s.brPos.toNat + s.codeWidth.toNat) s)

theorem readCode_toNat {s : State} (w : s.codeWidth.toNat ≤ 12) (h : s.hasBits s.codeWidth.toNat) :
    (readCode s).toNat = s.nextCode := by
  have hlt := field_lt s s.brPos.toNat s.codeWidth.toNat
  have : 2 ^ s.codeWidth.toNat ≤ 2 ^ 12 := Nat.pow_le_pow_right (by norm_num) w
  rw [readCode, BitVec.toNat_setWidth, Nat.mod_eq_of_lt (by omega)]
  exact field_atCursor (by omega) h

/-- A step with too few bits left: OUT_OF_DATA, nothing consumed (R84). -/
theorem stepBody_outOfData {s : State} (h : ¬ s.hasBits s.codeWidth.toNat) :
    stepBody s = .next (raise .outOfData .decodeStep s) := by
  simp [stepBody, bitRead_none h]

/-- A step in phase LITERAL. -/
theorem stepBody_literal {s : State} (h : s.hasBits s.codeWidth.toNat) (p : s.phase = .literal) :
    stepBody s = .next (literalCode (readCode s) (afterRead s)) := by
  simp [stepBody, bitRead_some h, p, readCode, afterRead]

/-- A step in phase NORMAL. -/
theorem stepBody_normal {s : State} (h : s.hasBits s.codeWidth.toNat) (p : s.phase = .normal) :
    stepBody s = normalCode (readCode s) (afterRead s) := by
  simp [stepBody, bitRead_some h, p, readCode, afterRead]

/-! ### The entries the invariant gives -/

/-- A code below DICT_SIZE and 4096 other than the sentinels has an entry (R41, R45 item 5). -/
theorem State.LzwActive.entry {s : State} (a : s.LzwActive) {c : Nat} (lt : c < s.dictSize.toNat) (lt' : c < 4096)
    (nc : c ≠ s.clearCode.toNat) (ne : c ≠ s.endCode.toNat) :
    ∃ e, dictEntry s c = some e ∧ e.indices.length ≤ c + 1 ∧ ∀ b ∈ e.indices, b.toNat < s.clearCode.toNat := by
  by_cases hl : c < s.clearCode.toNat
  · refine ⟨_, a.literal_entry c hl, by simp, ?_⟩
    intro b hb
    simp only [indices_literal, List.mem_singleton] at hb
    subst hb
    rw [BitVec.toNat_ofNat]
    exact Nat.lt_of_le_of_lt (Nat.mod_le _ _) hl
  · have := a.endCode
    obtain ⟨e, he, _, h2, h3⟩ := a.registered_entry c (by omega) lt lt'
    exact ⟨e, he, by omega, h3⟩

/-- A code that has an entry is below DICT_SIZE and 4096, and is no sentinel (R45 item 6). -/
theorem State.LzwActive.lt_of_entry {s : State} (a : s.LzwActive) {c : Nat} {e : Expansion} (h : dictEntry s c = some e) :
    c < s.dictSize.toNat ∧ c < 4096 ∧ c ≠ s.clearCode.toNat ∧ c ≠ s.endCode.toNat := by
  refine ⟨?_, ?_, ?_, ?_⟩
  · by_contra hc
    rw [a.no_entry c (by omega)] at h; cases h
  · by_contra hc
    rw [a.no_entry c (by omega)] at h; cases h
  · rintro rfl; rw [a.sentinel_entry.1] at h; cases h
  · rintro rfl; rw [a.sentinel_entry.2] at h; cases h

/-- The sentinels stay inside a byte's worth of literals: CLEAR_CODE <= 256 (R30). -/
theorem State.LzwActive.clear_le {s : State} (a : s.LzwActive) : s.clearCode.toNat ≤ 256 := by
  rw [a.clearCode]
  exact Nat.pow_le_pow_right (by norm_num) a.minCodeSize_le (n := 2)

theorem State.LzwActive.clear_ge {s : State} (a : s.LzwActive) : 2 ≤ s.clearCode.toNat := by
  rw [a.clearCode]
  exact Nat.pow_le_pow_right (by norm_num) a.minCodeSize_pos (n := 2)

/-! ### One code in phase LITERAL (R85) -/

theorem literalCode_clear {c : Code} {s : State} (h : c.toNat = s.clearCode.toNat) : literalCode c s = dictInit s := by
  simp [literalCode, h]

theorem literalCode_end {c : Code} {s : State} (hc : c.toNat ≠ s.clearCode.toNat) (h : c.toNat = s.endCode.toNat) :
    literalCode c s = setPhase .done s := by
  unfold literalCode; rw [if_neg hc, if_pos h]

theorem literalCode_literal {c : Code} {s : State} (he : c.toNat ≠ s.endCode.toNat) (h : c.toNat < s.clearCode.toNat)
    (room : s.outLen.toNat + 1 ≤ s.obufCap.toNat) :
    literalCode c s = setPhase .normal (setLastCode c
      { s with
        obuf := Memory.writeAll s.obuf s.outLen.toNat [c.setWidth 8]
        outLen := BitVec.ofNat 25 (s.outLen.toNat + 1) }) := by
  unfold literalCode
  rw [if_neg (by omega), if_neg he, if_pos h, emit_some (by simpa using room)]
  simp

theorem literalCode_overflow {c : Code} {s : State} (he : c.toNat ≠ s.endCode.toNat) (h : c.toNat < s.clearCode.toNat)
    (full : s.obufCap.toNat < s.outLen.toNat + 1) : literalCode c s = raise .outputOverflow .decodeStep s := by
  unfold literalCode
  rw [if_neg (by omega), if_neg he, if_pos h, emit_none (by simpa using full)]

theorem literalCode_corrupt {c : Code} {s : State} (he : c.toNat ≠ s.endCode.toNat) (h : s.clearCode.toNat < c.toNat) :
    literalCode c s = raise .corruptStream .decodeStep s := by
  unfold literalCode
  rw [if_neg (by omega), if_neg he, if_neg (by omega)]

/-! ### One code in phase NORMAL (R86 to R90) -/

theorem emitAndRegister_room {c : Code} {out entry : Expansion} {s : State}
    (room : s.outLen.toNat + out.indices.length ≤ s.obufCap.toNat) :
    emitAndRegister c out entry s = setLastCode c (register entry
      { s with
        obuf := Memory.writeAll s.obuf s.outLen.toNat out.indices
        outLen := BitVec.ofNat 25 (s.outLen.toNat + out.indices.length) }) := by
  unfold emitAndRegister; rw [emit_some room]

theorem emitAndRegister_overflow {c : Code} {out entry : Expansion} {s : State}
    (full : s.obufCap.toNat < s.outLen.toNat + out.indices.length) :
    emitAndRegister c out entry s = raise .outputOverflow .decodeStep s := by
  unfold emitAndRegister; rw [emit_none full]

theorem normalCode_end {c : Code} {s : State} (h : c.toNat = s.endCode.toNat) :
    normalCode c s = .next (setPhase .done s) := by
  simp [normalCode, h]

theorem normalCode_clear {c : Code} {s : State} (he : c.toNat ≠ s.endCode.toNat) (h : c.toNat = s.clearCode.toNat) :
    normalCode c s = .next (setPhase .literal (dictInit s)) := by
  unfold normalCode; rw [if_neg he, if_pos h]

theorem normalCode_known {c : Code} {s : State} {e l : Expansion} (he : c.toNat ≠ s.endCode.toNat)
    (hc : c.toNat ≠ s.clearCode.toNat) (h : c.toNat < s.dictSize.toNat) (entry : dictEntry s c.toNat = some e)
    (last : dictEntry s s.lastCode.toNat = some l) :
    normalCode c s = .next (emitAndRegister c e (l.append e.first) s) := by
  unfold normalCode; rw [if_neg he, if_neg hc, if_pos h, entry, last]

theorem normalCode_next {c : Code} {s : State} {l : Expansion} (he : c.toNat ≠ s.endCode.toNat)
    (hc : c.toNat ≠ s.clearCode.toNat) (h : c.toNat = s.dictSize.toNat) (last : dictEntry s s.lastCode.toNat = some l) :
    normalCode c s = .next (emitAndRegister c (l.append l.first) (l.append l.first) s) := by
  unfold normalCode; rw [if_neg he, if_neg hc, if_neg (by omega), if_pos h, last]

theorem normalCode_corrupt {c : Code} {s : State} (he : c.toNat ≠ s.endCode.toNat) (hc : c.toNat ≠ s.clearCode.toNat)
    (h : s.dictSize.toNat < c.toNat) : normalCode c s = .next (raise .corruptStream .decodeStep s) := by
  unfold normalCode; rw [if_neg he, if_neg hc, if_neg (by omega), if_neg (by omega)]

/-! ### The loop of LZW_RUN (R94) -/

/-- A run that finds no decode in progress ends where it is. -/
theorem runLoop_stop {k : Nat} {s : State} (h : s.phase.decoding = false) : runLoop k s = .next s := by
  cases k <;> simp [runLoop, h]

/-- A run makes one step and goes on from there. -/
theorem runLoop_step {k : Nat} {s t : State} (h : s.phase.decoding = true) (one : stepBody s = .next t) :
    runLoop (k + 1) s = runLoop k t := by
  simp [runLoop, h, one]

end Sys2Proof.Machine
end

