-- ==== Sys2Proof/Laws/Invariant.lean ====
section
/-! SUPPORT. The pieces of the invariant of R45: which updates keep it, and that one code of a decode keeps it and never stops. -/
namespace Sys2Proof.Machine

/-- The bit length between two powers of two. -/
theorem bitLength_eq {n b : Nat} (hb : 1 ≤ b) (h1 : 2 ^ (b-1) ≤ n) (h2 : n < 2 ^ b) : bitLength n = b := by
  have hn : n ≠ 0 := by have := Nat.two_pow_pos (b-1); omega
  have : Nat.log2 n = b - 1 := by
    apply Nat.le_antisymm
    · have : Nat.log2 n < b := (Nat.log2_lt hn).2 h2
      omega
    · exact (Nat.le_log2 hn).2 h1
  simp [bitLength, hn, this]; omega

/-- The bit length `b` of `n` has `2^(b-1) ≤ n < 2^b` (R45 item 4). -/
theorem bitLength_bounds {n : Nat} (hn : n ≠ 0) : 1 ≤ bitLength n ∧ 2 ^ (bitLength n - 1) ≤ n ∧ n < 2 ^ bitLength n := by
  simp only [bitLength, hn, if_false]
  refine ⟨by omega, ?_, ?_⟩
  · simpa using (Nat.le_log2 hn).1 (le_refl _)
  · exact (Nat.log2_lt hn).1 (Nat.lt_succ_self _)

/-- The bit length grows exactly where the next number is a power of two. -/
theorem bitLength_succ {n : Nat} (hn : n ≠ 0) :
    bitLength (n+1) = if n + 1 = 2 ^ bitLength n then bitLength n + 1 else bitLength n := by
  obtain ⟨h0, h1, h2⟩ := bitLength_bounds hn
  split
  · rename_i h
    apply bitLength_eq (by omega)
    · simp; omega
    · rw [pow_succ]; have := Nat.two_pow_pos (bitLength n); omega
  · exact bitLength_eq h0 (by omega) (by omega)

/-- The width after a registration is again the capped bit length of DICT_SIZE (R45 item 4, R91). -/
theorem width_grown_register {D w : Nat} (hD : D ≠ 0) (h : w = min 12 (bitLength D)) :
    (if D + 1 = 2 ^ w ∧ w < 12 then w + 1 else w) = min 12 (bitLength (D+1)) := by
  rw [bitLength_succ hD]
  obtain ⟨h0, h1, h2⟩ := bitLength_bounds hD
  by_cases hw : bitLength D < 12
  · have : w = bitLength D := by omega
    subst this
    split <;> split <;> omega
  · have : w = 12 := by omega
    rw [if_neg (by omega)]
    split <;> omega

/-- The decode invariant depends on the LZW registers, DICT and OBUF, and on LAST_CODE in phase NORMAL only. -/
theorem active_congr {s t : State} (a : s.LzwActive)
    (m : t.minCodeSize = s.minCodeSize) (w : t.codeWidth = s.codeWidth) (c : t.clearCode = s.clearCode)
    (e : t.endCode = s.endCode) (d : t.dict = s.dict) (ds : t.dictSize = s.dictSize) (o : t.obuf = s.obuf)
    (ol : t.outLen = s.outLen) (p : t.phase = .normal → s.phase = .normal ∧ t.lastCode = s.lastCode) : t.LzwActive := by
  have hd : ∀ x, dictEntry t x = dictEntry s x := fun x => dictEntry_congr d x
  constructor <;> simp only [m, w, c, e, ds, o, ol, hd]
  · exact a.minCodeSize_pos
  · exact a.minCodeSize_le
  · exact a.clearCode
  · exact a.endCode
  · exact a.width_ge
  · exact a.width_le
  · exact a.dictSize_ge
  · exact a.dictSize_le
  · exact a.width_grown
  · exact a.width_one
  · exact a.literal_entry
  · exact a.registered_entry
  · exact a.sentinel_entry
  · exact a.no_entry
  · intro hp; rw [(p hp).2]; exact a.last_entry (p hp).1
  · exact a.output_entry

/-- Init() establishes the decode invariant for any phase but NORMAL (R80). -/
theorem active_dictInit {s : State} (m1 : 1 ≤ s.minCodeSize.toNat) (m8 : s.minCodeSize.toNat ≤ 8)
    (c : s.clearCode.toNat = 2 ^ s.minCodeSize.toNat) (e : s.endCode.toNat = s.clearCode.toNat + 1)
    (out : ∀ j, j < s.outLen.toNat → ∃ b, Memory.read s.obuf j = some b ∧ b.toNat < s.clearCode.toNat)
    {p : Phase} (hp : p ≠ .normal) : (setPhase p (dictInit s)).LzwActive := by
  have hc : s.clearCode.toNat ≤ 256 := by rw [c]; exact Nat.pow_le_pow_right (by norm_num) m8 (n := 2)
  have hw : (s.minCodeSize + 1#4).toNat = s.minCodeSize.toNat + 1 := by
    rw [BitVec.toNat_add]; simp; omega
  have hds : (s.clearCode.setWidth 32 + 2#32).toNat = s.clearCode.toNat + 2 := by
    rw [BitVec.toNat_add, BitVec.toNat_setWidth]; simp; omega
  have hd : ∀ x, dictEntry (setPhase p (dictInit s)) x = if x < s.clearCode.toNat then some (Expansion.literal x) else none := by
    intro x; rw [← dictEntry_dictInit]; rfl
  have hcle : s.clearCode.toNat < 4096 := by omega
  constructor <;> simp only [setPhase_minCodeSize, setPhase_codeWidth, setPhase_clearCode, setPhase_endCode, setPhase_dictSize, setPhase_obuf, setPhase_outLen, setPhase_phase, setPhase_lastCode, dictInit_minCodeSize, dictInit_codeWidth, dictInit_clearCode, dictInit_endCode, dictInit_dictSize, dictInit_obuf, dictInit_outLen, hd, hw, hds]
  · exact m1
  · exact m8
  · exact c
  · exact e
  · omega
  · omega
  · omega
  · omega
  · intro h2
    have h : bitLength (s.clearCode.toNat + 2) = s.minCodeSize.toNat + 1 := by
      apply bitLength_eq (by omega)
      · rw [c]; simp
      · rw [pow_succ, ← c]
        have : 2 ^ 2 ≤ 2 ^ s.minCodeSize.toNat := Nat.pow_le_pow_right (by norm_num) h2
        omega
    rw [h]; omega
  · omega
  · intro x hx; simp [hx]
  · intro x h1 h2 h3; omega
  · constructor <;> rw [if_neg (by omega)]
  · intro x hx; rw [if_neg (by omega)]
  · intro h; exact absurd h hp
  · exact out

/-- The emitted indices stay below a bound when the appended ones do (R45 item 8). -/
theorem output_after_emit {s : State} {xs : List Byte} {k : Nat}
    (out : ∀ j, j < s.outLen.toNat → ∃ b, Memory.read s.obuf j = some b ∧ b.toNat < k)
    (hx : ∀ b ∈ xs, b.toNat < k) (j : Nat) (hj : j < s.outLen.toNat + xs.length) :
    ∃ b, Memory.read (Memory.writeAll s.obuf s.outLen.toNat xs) j = some b ∧ b.toNat < k := by
  rw [Memory.read_writeAll]
  split
  · rename_i h
    have hl : j - s.outLen.toNat < xs.length := by omega
    refine ⟨xs[j - s.outLen.toNat], ?_, hx _ (List.getElem_mem hl)⟩
    rw [List.getElem?_eq_getElem hl]
  · exact out j (by omega)

/-- Emitting and registering keeps the decode invariant (R88, R89). -/
theorem active_emitAndRegister {s : State} (cap : s.obufCap.toNat ≤ 2 ^ 24) (a : s.LzwActive) {c : Code} {out entry : Expansion}
    (room : s.outLen.toNat + out.indices.length ≤ s.obufCap.toNat)
    (ho : ∀ b ∈ out.indices, b.toNat < s.clearCode.toNat)
    (he : ∀ b ∈ entry.indices, b.toNat < s.clearCode.toNat)
    (hl : 2 ≤ entry.indices.length) (hl' : s.dictSize.toNat < 4096 → entry.indices.length ≤ s.dictSize.toNat - s.clearCode.toNat)
    (hc : c.toNat ≤ s.dictSize.toNat) (hcc : c.toNat ≠ s.clearCode.toNat) (hce : c.toNat ≠ s.endCode.toNat) :
    (emitAndRegister c out entry s).LzwActive := by
  rw [emitAndRegister_room room]
  set u : State := { s with
        obuf := Memory.writeAll s.obuf s.outLen.toNat out.indices
        outLen := BitVec.ofNat 25 (s.outLen.toNat + out.indices.length) } with hu
  have hol : (BitVec.ofNat 25 (s.outLen.toNat + out.indices.length)).toNat = s.outLen.toNat + out.indices.length :=
    emit_outLen s _ room
  have hud : ∀ x, dictEntry u x = dictEntry s x := fun x => rfl
  have hpos := indices_length_pos out
  have hdle := a.dictSize_le
  have hdge := a.dictSize_ge
  have hclear := a.clear_le
  have hen := a.endCode
  have hcap' := s.obufCap.isLt
  have hds : (s.dictSize + 1#32).toNat = s.dictSize.toNat + 1 := by
    rw [BitVec.toNat_add]; simp
    omega
  have hD : ∀ x, dictEntry (setLastCode c (register entry u)) x = if x = s.dictSize.toNat ∧ s.dictSize.toNat < 4096 then some entry else dictEntry s x := by
    intro x; rw [← hud x]; exact dictEntry_register entry u x
  have hreg := register_eq entry u
  have hcw : (register entry u).codeWidth.toNat = if s.dictSize.toNat + 1 = 2 ^ s.codeWidth.toNat ∧ s.codeWidth.toNat < 12 then s.codeWidth.toNat + 1 else s.codeWidth.toNat := by
    rw [register_codeWidth]
    simp only [hu, hds]
    split
    · rename_i h
      rw [BitVec.toNat_add]; simp; omega
    · rfl
  have hwle := a.width_le
  have hwge := a.width_ge
  have f1 : (register entry u).minCodeSize = s.minCodeSize := by rw [hreg]
  have f2 : (register entry u).clearCode = s.clearCode := by rw [hreg]
  have f3 : (register entry u).endCode = s.endCode := by rw [hreg]
  have f4 : (register entry u).dictSize = s.dictSize + 1#32 := by rw [hreg]
  have f5 : (register entry u).obuf = Memory.writeAll s.obuf s.outLen.toNat out.indices := by rw [hreg]
  have f6 : (register entry u).outLen = BitVec.ofNat 25 (s.outLen.toNat + out.indices.length) := by rw [hreg]
  constructor <;> simp only [setLastCode_minCodeSize, setLastCode_codeWidth, setLastCode_clearCode, setLastCode_endCode, setLastCode_dictSize, setLastCode_obuf, setLastCode_outLen, setLastCode_phase, setLastCode_lastCode, f1, f2, f3, f4, f5, f6, hD, hds, hol, hcw]
  · exact a.minCodeSize_pos
  · exact a.minCodeSize_le
  · exact a.clearCode
  · exact a.endCode
  · split <;> omega
  · split <;> omega
  · omega
  · omega
  · intro h2; exact width_grown_register (by omega) (a.width_grown h2)
  · intro h1
    have := a.width_one h1
    have hc2 : s.clearCode.toNat = 2 := by rw [a.clearCode, h1]; rfl
    rw [if_neg]; exact this
    rw [this]; omega
  · intro x hx; rw [if_neg (by rintro ⟨h1, _⟩; omega)]; exact a.literal_entry x hx
  · intro x h1 h2 h4
    by_cases hx : x = s.dictSize.toNat
    · subst hx
      exact ⟨entry, by simp [h4], hl, hl' h4, he⟩
    · simp only [hx, false_and, if_false]
      exact a.registered_entry x h1 (by omega) h4
  · constructor <;> rw [if_neg (by omega)]
    · exact a.sentinel_entry.1
    · exact a.sentinel_entry.2
  · intro x hx
    rw [if_neg (by omega)]; exact a.no_entry x (by omega)
  · intro _
    by_cases hx : c.toNat = s.dictSize.toNat
    · have : s.dictSize.toNat < 4096 := by have := c.isLt; omega
      exact ⟨entry, by simp [hx, this]⟩
    · simp only [hx, false_and, if_false]
      obtain ⟨e, h, _⟩ := a.entry (c := c.toNat) (by omega) c.isLt hcc hce
      exact ⟨e, h⟩
  · exact output_after_emit a.output_entry ho

/-- The capacities decide `Configured`. -/
theorem configured_congr {s t : State} (h : s.Configured) (a : t.ibufCap = s.ibufCap) (b : t.obufCap = s.obufCap) : t.Configured := by
  constructor <;> simp only [a, b]
  exacts [h.1, h.2, h.3, h.4]

/-- The decode registers decide `LzwIdle`. -/
theorem idle_congr {s t : State} (h : s.LzwIdle) (m : t.minCodeSize = s.minCodeSize) (w : t.codeWidth = s.codeWidth) (c : t.clearCode = s.clearCode)
    (e : t.endCode = s.endCode) (ds : t.dictSize = s.dictSize) (l : t.lastCode = s.lastCode) (lc : t.lzwCode = s.lzwCode)
    (ol : t.outLen = s.outLen) : t.LzwIdle := by
  constructor <;> simp only [m, w, c, e, ds, l, lc, ol]
  exacts [h.1, h.2, h.3, h.4, h.5, h.6, h.7, h.8]

/-- Two states that differ outside the LZW unit only. -/
structure LzwSame (s t : State) : Prop where
  ibufCap : t.ibufCap = s.ibufCap
  obufCap : t.obufCap = s.obufCap
  obuf : t.obuf = s.obuf
  dict : t.dict = s.dict
  phase : t.phase = s.phase
  minCodeSize : t.minCodeSize = s.minCodeSize
  codeWidth : t.codeWidth = s.codeWidth
  clearCode : t.clearCode = s.clearCode
  endCode : t.endCode = s.endCode
  dictSize : t.dictSize = s.dictSize
  lastCode : t.lastCode = s.lastCode
  lzwCode : t.lzwCode = s.lzwCode
  outLen : t.outLen = s.outLen

/-- An update outside the LZW unit keeps the invariant when it keeps the ranges. -/
theorem inv_of_lzwSame {s t : State} (h : s.Inv) (q : LzwSame s t) (r : t.Ranged) : t.Inv where
  configured := configured_congr h.configured q.ibufCap q.obufCap
  ranged := r
  idle := fun hp => idle_congr (h.idle (by rw [← q.phase]; exact hp)) q.minCodeSize q.codeWidth q.clearCode q.endCode q.dictSize q.lastCode q.lzwCode q.outLen
  active := fun hp => active_congr (h.active (by rw [← q.phase]; exact hp)) q.minCodeSize q.codeWidth q.clearCode q.endCode q.dict q.dictSize q.obuf q.outLen
    (fun hn => ⟨by rw [← q.phase]; exact hn, q.lastCode⟩)

/-- Recording an error keeps the invariant. -/
theorem recordError_inv {s : State} {e : ErrCode} (he : e ≠ .none) (h : s.Inv) : (recordError e s).Inv := by
  refine inv_of_lzwSame h (by constructor <;> simp) ?_
  have r := h.ranged
  constructor <;> simp
  exacts [r.1, r.2, r.3, r.4, r.5, r.6, r.7, r.8, by split; · rename_i hs; rw [r.9]; simp [hs]
                                                     · exact he]

/-- PHASE <- FAILED keeps the invariant once a decode has been started. -/
theorem failed_inv {s : State} (h : s.Inv) (hp : s.phase ≠ .idle) : (setPhase .failed s).Inv where
  configured := configured_congr h.configured rfl rfl
  ranged := ⟨h.ranged.1, h.ranged.2, h.ranged.3, h.ranged.4, h.ranged.5, h.ranged.6, h.ranged.7, h.ranged.8, h.ranged.9⟩
  idle := fun h => by cases h
  active := fun _ => active_congr (h.active hp) rfl rfl rfl rfl rfl rfl rfl rfl (by simp)

/-- Raising an error keeps the invariant (R109, R110). -/
theorem raise_inv {s : State} {e : ErrCode} {b : RaisedBy} (he : e ≠ .none) (h : s.Inv) (hp : b = .decodeStep → s.phase ≠ .idle) :
    (raise e b s).Inv := by
  cases b with
  | command => exact recordError_inv he h
  | decodeStep => exact failed_inv (recordError_inv he h) (by simpa using hp rfl)

/-- A read that has its bits leaves the cursor inside IBUF (R29). -/
theorem cursor_le {s : State} (h : s.Inv) {n : Nat} (hb : s.hasBits n) :
    s.brPos.toNat + n < 2 ^ 28 ∧ s.brPos.toNat + n ≤ 8 * s.ibufCap.toNat := by
  have := h.ranged.bufLen_le
  have := h.configured.ibufCap_le
  unfold State.hasBits at hb
  constructor <;> omega

/-- A cursor inside IBUF keeps the invariant. -/
theorem setCursor_inv {s : State} (h : s.Inv) {p : Nat} (hp : p ≤ 8 * s.ibufCap.toNat) : (setCursor p s).Inv := by
  refine inv_of_lzwSame h (by constructor <;> rfl) ?_
  have r := h.ranged
  refine ⟨r.1, ?_, r.3, r.4, r.5, r.6, r.7, r.8, r.9⟩
  simp only [setCursor_brPos, setCursor_ibufCap, BitVec.toNat_ofNat]
  exact le_trans (Nat.mod_le _ _) hp

/-- Writing RESULT keeps the invariant. -/
theorem setResult_inv {s : State} (h : s.Inv) (v : Word) : (setResult v s).Inv := by
  refine inv_of_lzwSame h (by constructor <;> rfl) ?_
  have r := h.ranged
  exact ⟨r.1, r.2, r.3, r.4, r.5, r.6, r.7, r.8, r.9⟩

/-- A read to RESULT keeps the invariant. -/
theorem readToResult_inv {s : State} (h : s.Inv) (n : Nat) : (readToResult n s).Inv := by
  unfold readToResult
  by_cases hb : s.hasBits n
  · rw [bitRead_some hb]
    exact setResult_inv (setCursor_inv h (cursor_le h hb).2) _
  · rw [bitRead_none hb]
    exact raise_inv (by simp) h (by simp)

/-- Reading a code keeps the invariant. -/
theorem afterRead_inv {s : State} (h : s.Inv) (hp : s.phase ≠ .idle) (hb : s.hasBits s.codeWidth.toNat) : (afterRead s).Inv := by
  have h1 := setCursor_inv h (cursor_le h hb).2
  refine ⟨configured_congr h1.configured rfl rfl, ?_, fun h => absurd h hp, fun _ => ?_⟩
  · have r := h1.ranged
    exact ⟨r.1, r.2, r.3, r.4, r.5, r.6, r.7, r.8, r.9⟩
  · exact active_congr (h1.active hp) rfl rfl rfl rfl rfl rfl rfl rfl (fun h => ⟨h, rfl⟩)

/-- A reinitialisation keeps the invariant. -/
theorem dictInit_inv {s : State} (h : s.Inv) (hp : s.phase ≠ .idle) {p : Phase} (hn : p ≠ .normal) (hi : p ≠ .idle) :
    (setPhase p (dictInit s)).Inv := by
  have a := h.active hp
  refine ⟨configured_congr h.configured rfl rfl, ?_, fun h => absurd h hi, fun _ => ?_⟩
  · have r := h.ranged
    exact ⟨r.1, r.2, r.3, r.4, r.5, literals_rising _, r.7, r.8, r.9⟩
  · exact active_dictInit a.minCodeSize_pos a.minCodeSize_le a.clearCode a.endCode a.output_entry hn

/-- PHASE <- DONE keeps the invariant once a decode has been started. -/
theorem done_inv {s : State} (h : s.Inv) (hp : s.phase ≠ .idle) : (setPhase .done s).Inv where
  configured := configured_congr h.configured rfl rfl
  ranged := ⟨h.ranged.1, h.ranged.2, h.ranged.3, h.ranged.4, h.ranged.5, h.ranged.6, h.ranged.7, h.ranged.8, h.ranged.9⟩
  idle := fun h => by cases h
  active := fun _ => active_congr (h.active hp) rfl rfl rfl rfl rfl rfl rfl rfl (by simp)

/-- Emit keeps the ranges (R82). -/
theorem emit_ranged {s : State} (h : s.Ranged) {xs : List Byte} (room : s.outLen.toNat + xs.length ≤ s.obufCap.toNat) :
    State.Ranged { s with
        obuf := Memory.writeAll s.obuf s.outLen.toNat xs
        outLen := BitVec.ofNat 25 (s.outLen.toNat + xs.length) } := by
  refine ⟨h.1, h.2, ?_, h.4, Memory.writeAll_wf _ _ _ h.5, h.6, h.7, ?_, h.9⟩
  · show (BitVec.ofNat 25 _).toNat ≤ _
    rw [emit_outLen s xs room]; exact room
  · intro j hj
    have hj' : s.obufCap.toNat ≤ j := hj
    show Memory.read (Memory.writeAll _ _ _) _ = _
    rw [Memory.read_writeAll_outside _ _ (by omega)]
    exact h.8 j hj'

/-- One code in phase LITERAL keeps the invariant. -/
theorem literalCode_inv {s : State} (h : s.Inv) (hp : s.phase = .literal) (c : Code) : (literalCode c s).Inv := by
  have hi : s.phase ≠ .idle := by simp [hp]
  have a := h.active hi
  by_cases h1 : c.toNat = s.clearCode.toNat
  · rw [literalCode_clear h1]
    have : dictInit s = setPhase .literal (dictInit s) := by
      show _ = ({ dictInit s with phase := .literal } : State)
      rw [← hp]; rfl
    rw [this]; exact dictInit_inv h hi (by simp) (by simp)
  by_cases h2 : c.toNat = s.endCode.toNat
  · rw [literalCode_end h1 h2]; exact done_inv h hi
  by_cases h3 : c.toNat < s.clearCode.toNat
  · by_cases room : s.outLen.toNat + 1 ≤ s.obufCap.toNat
    · rw [literalCode_literal h2 h3 room]
      have room' : s.outLen.toNat + [c.setWidth 8].length ≤ s.obufCap.toNat := room
      have r := emit_ranged h.ranged room'
      refine ⟨configured_congr h.configured rfl rfl, ⟨r.1, r.2, r.3, r.4, r.5, r.6, r.7, r.8, r.9⟩, (fun h => by cases h), fun _ => ?_⟩
      have ho := emit_outLen s _ room'
      have hout := output_after_emit (xs := [c.setWidth 8]) a.output_entry (by
          intro b hb; simp at hb; subst hb; rw [BitVec.toNat_setWidth]; exact lt_of_le_of_lt (Nat.mod_le _ _) h3)
      refine ⟨a.1, a.2, a.3, a.4, a.5, a.6, a.7, ?_, a.9, a.10, a.11, a.12, a.13, a.14, ?_, ?_⟩
      · have := a.dictSize_le
        show s.dictSize.toNat ≤ s.clearCode.toNat + 2 + (BitVec.ofNat 25 (s.outLen.toNat + [c.setWidth 8].length)).toNat
        rw [ho]; omega
      · intro _; exact ⟨_, a.literal_entry c.toNat h3⟩
      · intro j hj
        exact hout j (by rw [← ho]; exact hj)
    · rw [literalCode_overflow h2 h3 (by omega)]; exact raise_inv (by simp) h (fun _ => hi)
  · rw [literalCode_corrupt h2 (by omega)]; exact raise_inv (by simp) h (fun _ => hi)

/-- Emitting and registering keeps the invariant. -/
theorem emitAndRegister_inv {s : State} (h : s.Inv) (hp : s.phase = .normal) {c : Code} {out entry : Expansion}
    (ho : ∀ b ∈ out.indices, b.toNat < s.clearCode.toNat)
    (he : ∀ b ∈ entry.indices, b.toNat < s.clearCode.toNat)
    (hl : 2 ≤ entry.indices.length) (hl' : s.dictSize.toNat < 4096 → entry.indices.length ≤ s.dictSize.toNat - s.clearCode.toNat)
    (hc : c.toNat ≤ s.dictSize.toNat) (hcc : c.toNat ≠ s.clearCode.toNat) (hce : c.toNat ≠ s.endCode.toNat) :
    (emitAndRegister c out entry s).Inv := by
  have hi : s.phase ≠ .idle := by simp [hp]
  by_cases room : s.outLen.toNat + out.indices.length ≤ s.obufCap.toNat
  · have act := active_emitAndRegister h.configured.obufCap_le (h.active hi) room ho he hl hl' hc hcc hce
    have r := emit_ranged h.ranged room
    rw [emitAndRegister_room room] at act ⊢
    set u : State := { s with
        obuf := Memory.writeAll s.obuf s.outLen.toNat out.indices
        outLen := BitVec.ofNat 25 (s.outLen.toNat + out.indices.length) } with hu
    have hreg := register_eq entry u
    refine ⟨?_, ?_, fun hh => ?_, fun _ => act⟩
    · rw [hreg]; exact configured_congr h.configured rfl rfl
    · have hd := addEntry_dict_rising entry u r.6
      rw [hreg]
      exact ⟨r.1, r.2, r.3, r.4, r.5, hd, r.7, r.8, r.9⟩
    · rw [hreg] at hh; exact absurd hh hi
  · rw [emitAndRegister_overflow (by omega)]; exact raise_inv (by simp) h (fun _ => hi)

/-- The first index of an expansion is one of its indices. -/
theorem first_mem (e : Expansion) : e.first ∈ e.indices := by simp [Expansion.indices]

/-- The entry of LAST_CODE leaves room for one more index in the length bound of the next entry (R45 item 5). -/
theorem last_length {s : State} (a : s.LzwActive) {l : Expansion} (h : dictEntry s s.lastCode.toNat = some l) :
    l.indices.length + 1 ≤ s.dictSize.toNat - s.clearCode.toNat ∧ ∀ b ∈ l.indices, b.toNat < s.clearCode.toNat := by
  obtain ⟨h1, h2, h3, h4⟩ := a.lt_of_entry h
  have := a.dictSize_ge
  have := a.endCode
  by_cases hl : s.lastCode.toNat < s.clearCode.toNat
  · have e := a.literal_entry _ hl
    rw [h] at e; cases e
    refine ⟨by simp; omega, ?_⟩
    intro b hb; simp at hb; subst hb
    rw [BitVec.toNat_setWidth]; exact lt_of_le_of_lt (Nat.mod_le _ _) hl
  · obtain ⟨e, he, k1, k2, k3⟩ := a.registered_entry s.lastCode.toNat (by omega) h1 h2
    rw [h] at he; cases he
    exact ⟨by omega, k3⟩

/-- One code in phase NORMAL never stops and keeps the invariant. -/
theorem normalCode_inv {s : State} (h : s.Inv) (hp : s.phase = .normal) (c : Code) : ∃ t, normalCode c s = .next t ∧ t.Inv := by
  have hi : s.phase ≠ .idle := by simp [hp]
  have a := h.active hi
  by_cases h1 : c.toNat = s.endCode.toNat
  · exact ⟨_, normalCode_end h1, done_inv h hi⟩
  by_cases h2 : c.toNat = s.clearCode.toNat
  · exact ⟨_, normalCode_clear h1 h2, dictInit_inv h hi (by simp) (by simp)⟩
  obtain ⟨l, hl⟩ := a.last_entry hp
  obtain ⟨ll, lb⟩ := last_length a hl
  have lpos := indices_length_pos l
  rcases Nat.lt_trichotomy c.toNat s.dictSize.toNat with h3 | h3 | h3
  · obtain ⟨e, he, _, eb⟩ := a.entry h3 c.isLt h2 h1
    refine ⟨_, normalCode_known h1 h2 h3 he hl, emitAndRegister_inv h hp eb ?_ ?_ ?_ (by omega) h2 h1⟩
    · intro b hb; simp at hb
      rcases hb with hb | hb
      · exact lb b hb
      · subst hb; exact eb _ (first_mem e)
    · simp; omega
    · intro _; simp; omega
  · have hb' : ∀ b ∈ (l.append l.first).indices, b.toNat < s.clearCode.toNat := by
      intro b hb; simp at hb
      rcases hb with hb | hb
      · exact lb b hb
      · subst hb; exact lb _ (first_mem l)
    refine ⟨_, normalCode_next h1 h2 h3 hl, emitAndRegister_inv h hp hb' hb' ?_ ?_ (by omega) h2 h1⟩
    · simp; omega
    · intro _; simp; omega
  · exact ⟨_, normalCode_corrupt h1 h2 h3, raise_inv (by simp) h (fun _ => hi)⟩

/-- The body of a step never stops and keeps the invariant. -/
theorem stepBody_inv {s : State} (h : s.Inv) (hp : s.phase.decoding = true) : ∃ t, stepBody s = .next t ∧ t.Inv := by
  have hi : s.phase ≠ .idle := by intro h; rw [h] at hp; cases hp
  by_cases hb : s.hasBits s.codeWidth.toNat
  · have ha := afterRead_inv h hi hb
    rcases (decoding_iff _).1 hp with hl | hn
    · exact ⟨_, stepBody_literal hb hl, literalCode_inv ha hl _⟩
    · rw [stepBody_normal hb hn]; exact normalCode_inv ha hn _
  · exact ⟨_, stepBody_outOfData hb, raise_inv (by simp) h (fun _ => hi)⟩

/-- What no LZW step writes (R19). -/
structure HostSame (s t : State) : Prop where
  ibufCap : t.ibufCap = s.ibufCap
  obufCap : t.obufCap = s.obufCap
  ibuf : t.ibuf = s.ibuf
  running : t.running = s.running
  result : t.result = s.result
  bufLen : t.bufLen = s.bufLen
  ilWidth : t.ilWidth = s.ilWidth
  ilHeight : t.ilHeight = s.ilHeight
  interlace : t.interlace = s.interlace
  ilIndex : t.ilIndex = s.ilIndex
  env : t.env = s.env

/-- Nothing written. -/
theorem HostSame.refl (s : State) : HostSame s s := by constructor <;> rfl

/-- One step after another. -/
theorem HostSame.trans {s t u : State} (a : HostSame s t) (b : HostSame t u) : HostSame s u := by
  constructor
  exacts [b.1.trans a.1, b.2.trans a.2, b.3.trans a.3, b.4.trans a.4, b.5.trans a.5, b.6.trans a.6, b.7.trans a.7, b.8.trans a.8, b.9.trans a.9, b.10.trans a.10, b.11.trans a.11]

/-- Raising an error writes neither the host's state nor the cursor. -/
theorem raise_host (e : ErrCode) (b : RaisedBy) (s : State) : HostSame s (raise e b s) ∧ (raise e b s).brPos = s.brPos := by
  cases b <;> simp only [raise] <;> refine ⟨?_, by simp⟩ <;> constructor <;> simp

/-- One code in phase LITERAL writes neither the host's state nor the cursor. -/
theorem literalCode_host (c : Code) (s : State) : HostSame s (literalCode c s) ∧ (literalCode c s).brPos = s.brPos := by
  unfold literalCode
  split
  · exact ⟨by constructor <;> rfl, rfl⟩
  split
  · exact ⟨by constructor <;> rfl, rfl⟩
  split
  · split
    · exact raise_host ..
    · rename_i t ht
      unfold emit at ht
      split at ht
      · cases ht
      · cases ht; exact ⟨by constructor <;> rfl, rfl⟩
  · exact raise_host ..

/-- Emitting and registering writes neither the host's state nor the cursor. -/
theorem emitAndRegister_host (c : Code) (o e : Expansion) (s : State) : HostSame s (emitAndRegister c o e s) ∧ (emitAndRegister c o e s).brPos = s.brPos := by
  by_cases room : s.outLen.toNat + o.indices.length ≤ s.obufCap.toNat
  · rw [emitAndRegister_room room, register_eq]; exact ⟨by constructor <;> rfl, rfl⟩
  · rw [emitAndRegister_overflow (by omega)]; exact raise_host ..

/-- One code in phase NORMAL writes neither the host's state nor the cursor. -/
theorem normalCode_host {c : Code} {s t : State} (h : normalCode c s = .next t) : HostSame s t ∧ t.brPos = s.brPos := by
  unfold normalCode at h
  split at h
  · cases h; exact ⟨by constructor <;> rfl, rfl⟩
  split at h
  · cases h; exact ⟨by constructor <;> rfl, rfl⟩
  split at h
  · split at h
    · cases h; exact emitAndRegister_host ..
    · cases h
  split at h
  · split at h
    · cases h; exact emitAndRegister_host ..
    · cases h
  · cases h; exact raise_host ..

/-- The body of a step leaves the host's state, and either consumes its code or fails. -/
theorem stepBody_host {s t : State} (h : stepBody s = .next t) : HostSame s t ∧
    (t.brPos = BitVec.ofNat 28 (s.brPos.toNat + s.codeWidth.toNat) ∧ s.hasBits s.codeWidth.toNat ∨ t.brPos = s.brPos ∧ t.phase = .failed) := by
  by_cases hb : s.hasBits s.codeWidth.toNat
  · simp only [stepBody, bitRead_some hb] at h
    have key : ∀ u, HostSame (afterRead s) u ∧ u.brPos = (afterRead s).brPos → HostSame s u ∧ (u.brPos = BitVec.ofNat 28 (s.brPos.toNat + s.codeWidth.toNat) ∧ s.hasBits s.codeWidth.toNat ∨ u.brPos = s.brPos ∧ u.phase = .failed) := by
      rintro u ⟨h1, h2⟩
      exact ⟨HostSame.trans (by constructor <;> rfl) h1, .inl ⟨h2, hb⟩⟩
    split at h
    · cases h; exact key _ (literalCode_host ..)
    all_goals exact key _ (normalCode_host h)
  · rw [stepBody_outOfData hb] at h
    cases h
    obtain ⟨a, b⟩ := raise_host .outOfData .decodeStep s
    exact ⟨a, .inr ⟨b, rfl⟩⟩

/-- LZW_INIT establishes the invariant (R81). -/
theorem startDecode_inv {s : State} (h : s.Inv) {m : Nat} (m1 : 1 ≤ m) (m8 : m ≤ 8) : (startDecode m s).Inv := by
  have hm : (BitVec.ofNat 4 m).toNat = m := by rw [BitVec.toNat_ofNat]; omega
  have hp : 2 ^ m ≤ 2 ^ 8 := Nat.pow_le_pow_right (by norm_num) m8
  have hpos := Nat.two_pow_pos m
  have hc : (BitVec.ofNat 9 (2 ^ m)).toNat = 2 ^ m := by rw [BitVec.toNat_ofNat]; omega
  have he : (BitVec.ofNat 9 (2 ^ m + 1)).toNat = 2 ^ m + 1 := by rw [BitVec.toNat_ofNat]; omega
  let u : State := { s with minCodeSize := BitVec.ofNat 4 m, clearCode := BitVec.ofNat 9 (2 ^ m), endCode := BitVec.ofNat 9 (2 ^ m + 1), outLen := 0#25 }
  have a : (setPhase .literal (dictInit u)).LzwActive := by
    apply active_dictInit (s := u)
    · show 1 ≤ (BitVec.ofNat 4 m).toNat; omega
    · show (BitVec.ofNat 4 m).toNat ≤ 8; omega
    · show (BitVec.ofNat 9 (2 ^ m)).toNat = 2 ^ (BitVec.ofNat 4 m).toNat; rw [hc, hm]
    · show (BitVec.ofNat 9 (2 ^ m + 1)).toNat = (BitVec.ofNat 9 (2 ^ m)).toNat + 1; rw [hc, he]
    · intro j hj; exact absurd hj (by show ¬ j < (0#25).toNat; simp)
    · simp
  have r := h.ranged
  refine ⟨configured_congr h.configured rfl rfl, ⟨r.1, ?_, ?_, r.4, r.5, literals_rising _, r.7, r.8, r.9⟩, (fun h => by cases h), fun _ => ?_⟩
  · show (0#28).toNat ≤ _; simp
  · show (0#25).toNat ≤ _; simp
  · exact active_congr a rfl rfl rfl rfl rfl rfl rfl rfl (fun h => by cases h)

/-- CLR_ERR keeps the invariant. -/
theorem clearError_inv {s : State} (h : s.Inv) : (clearError s).Inv := by
  refine inv_of_lzwSame h (by constructor <;> rfl) ?_
  have r := h.ranged
  exact ⟨r.1, r.2, r.3, r.4, r.5, r.6, r.7, r.8, by simp⟩

/-! ### The port, CLR_ERR and reset -/
/-- A write of IBUF inside its capacity keeps the invariant. -/
theorem inv_of_ibuf {s t : State} (h : s.Inv) (q : LzwSame s t) (hb : t.bufLen = s.bufLen) (hp : t.brPos = s.brPos)
    (he : t.err = s.err) (hc : t.errcode = s.errcode) (w : Memory.wf t.ibuf = true)
    (ins : ∀ i, s.ibufCap.toNat ≤ i → Memory.read t.ibuf i = none) : t.Inv := by
  refine inv_of_lzwSame h q ?_
  have r := h.ranged
  constructor <;> (try simp only [q.ibufCap, q.obufCap, q.obuf, q.dict, q.outLen, hb, hp, he, hc])
  exacts [r.1, r.2, r.3, w, r.5, r.6, ins, r.8, r.9]

/-- The port and the running command are outside the invariant. -/
theorem env_inv {s : State} (h : s.Inv) (e : Env) (r : Option Word) : State.Inv { s with env := e, running := r } :=
  inv_of_ibuf h (by constructor <;> rfl) rfl rfl rfl rfl h.ranged.4 h.ranged.7

/-- The reset values have the invariant, for capacities in the range of R9. -/
theorem reset_inv (a b : BitVec 25) (e : Env) (c : (State.resetWith a b e).Configured) : (State.resetWith a b e).Inv := by
  refine ⟨c, ?_, fun _ => ?_, fun h => absurd rfl h⟩
  · constructor <;> simp [State.resetWith, Memory.wf, rising, Memory.read, sparseGet, Memory.unlisted]
  · constructor <;> rfl

end Sys2Proof.Machine
end

