-- ==== Sys2Proof/Laws/PerInstr.lean ====
section
/-! SUPPORT. What is said of every command, one lemma for each constructor: the family of encodings. -/
namespace Sys2Proof.Laws.OneWord

/-- The word of a command has RSV = 0, the command's OP and ARG in their fields, and decodes to the command, whatever its ARG is
(R64, R66, R69). -/
def Statement (i : Instr) : Prop :=
  wordRsv (encode i) = 0#16 ∧ wordOp (encode i) = opcode i ∧ wordArg (encode i) = argument i ∧
    decodeBytes (bytesOfWord (encode i)) = .ok (i, [])

theorem nop : Statement .nop := by unfold Statement; decide

theorem brRewind : Statement .brRewind := by unfold Statement; decide

theorem brReadbit : Statement .brReadbit := by unfold Statement; decide

theorem brReadbits (n : BitVec 8) : Statement (.brReadbits n) := by
  unfold Statement; revert n; decide

theorem lzwInit (m : BitVec 8) : Statement (.lzwInit m) := by
  unfold Statement; revert m; decide

theorem lzwStep : Statement .lzwStep := by unfold Statement; decide

theorem lzwRun : Statement .lzwRun := by unfold Statement; decide

theorem ilRow : Statement .ilRow := by unfold Statement; decide

theorem ilElem : Statement .ilElem := by unfold Statement; decide

theorem clrErr : Statement .clrErr := by unfold Statement; decide

end Sys2Proof.Laws.OneWord
end

