-- ==== Sys2Proof/Laws/Port.lean ====
section
/-! SUPPORT. The port: which window an address lies in (R47), what an IBUF write stores (R53), what a buffer read gathers
from its lanes (R50), and what the block does while a command runs (R57). -/
namespace Sys2Proof.Machine

/-- Every offset below 2^24 is an address of the IBUF window (R47). -/
theorem windowOf_ibuf {off : Nat} (h : off < 2 ^ 24) :
    windowOf (BitVec.ofNat 32 (0x01000000 + off)) = .ibuf off ∧
      (BitVec.ofNat 32 (0x01000000 + off)).toNat = 0x01000000 + off := by
  have e : (BitVec.ofNat 32 (0x01000000 + off)).toNat = 0x01000000 + off := by rw [BitVec.toNat_ofNat]; omega
  refine ⟨?_, e⟩
  unfold windowOf
  rw [e]; dsimp only
  rw [if_neg (by omega), if_neg (by omega), if_pos (by omega)]
  simp

/-- Every offset below 2^24 is an address of the OBUF window (R47). -/
theorem windowOf_obuf {off : Nat} (h : off < 2 ^ 24) :
    windowOf (BitVec.ofNat 32 (0x02000000 + off)) = .obuf off ∧
      (BitVec.ofNat 32 (0x02000000 + off)).toNat = 0x02000000 + off := by
  have e : (BitVec.ofNat 32 (0x02000000 + off)).toNat = 0x02000000 + off := by rw [BitVec.toNat_ofNat]; omega
  refine ⟨?_, e⟩
  unfold windowOf
  rw [e]; dsimp only
  rw [if_neg (by omega), if_neg (by omega), if_neg (by omega), if_pos (by omega)]
  simp

/-- Alignment of an address is alignment of its offset, in a window that starts at a multiple of four (R53). -/
theorem aligned_iff {base off : Nat} {size : Size} {addr : Word} (h : addr.toNat = base + off) (hb : base % 4 = 0) :
    aligned addr size = true ↔ off % size.bytes = 0 := by
  simp only [aligned, h, decide_eq_true_eq]
  cases size <;> simp only [Size.bytes] <;> omega

/-- An IBUF write changes IBUF only, keeps its canonical form, stores the strobed addressed bytes from their lanes,
and leaves every other byte (R53). -/
theorem storeLanes_read {addr off : Nat} (d : Word) (st : BitVec 4) (s : State) (hm : addr % 4 = off % 4) (n : Nat) :
    ∃ m, storeLanes addr off d st s n = { s with ibuf := m } ∧
      (Memory.wf s.ibuf = true → Memory.wf m = true) ∧
      ∀ i, Memory.read m i =
        if off ≤ i ∧ i < off + n ∧ st.getLsbD (i % 4) then some (d.extractLsb' (8 * (i % 4)) 8) else Memory.read s.ibuf i := by
  induction n with
  | zero => exact ⟨s.ibuf, rfl, id, fun i => by rw [if_neg (by omega)]⟩
  | succ n ih =>
    obtain ⟨m, hm', c, w⟩ := ih
    have hmod : (addr + n) % 4 = (off + n) % 4 := by omega
    simp only [storeLanes, hm', hmod]
    by_cases hst : st.getLsbD ((off + n) % 4) = true
    · rw [if_pos hst]
      refine ⟨_, rfl, fun h => Memory.write_wf _ _ _ (c h), fun i => ?_⟩
      change Memory.read (Memory.write m _ _) i = _
      rw [Memory.read_write]
      by_cases hi : i = off + n
      · subst hi; simp [hst, laneByte, hmod]
      · have : i < off + (n + 1) ↔ i < off + n := by omega
        rw [if_neg hi, w]; simp only [this]
    · rw [if_neg hst]
      refine ⟨m, rfl, c, fun i => ?_⟩
      rw [w]
      by_cases hi : i = off + n
      · subst hi; simp [hst]
      · have : i < off + (n + 1) ↔ i < off + n := by omega
        simp only [this]

/-- Bit `i` of a gathered value is bit `i mod 8` of the byte on lane `i / 8` (R50). -/
theorem gather_getLsbD (f : Nat → Byte) (n i : Nat) (hn : n ≤ 4) :
    (gather f n).getLsbD i = (decide (i < 8 * n) && (f (i / 8)).getLsbD (i % 8)) := by
  induction n with
  | zero => simp [gather]
  | succ n ih =>
    rw [gather, BitVec.getLsbD_or, ih (by omega), BitVec.getLsbD_shiftLeft, BitVec.getLsbD_setWidth]
    by_cases h1 : i < 8 * n
    · have h2 : i < 8 * (n + 1) := by omega
      simp [h1, h2]
    · by_cases h2 : i < 8 * (n + 1)
      · have h3 : i / 8 = n := by omega
        have h4 : i - 8 * n = i % 8 := by omega
        have h5 : i < 32 := by omega
        have h6 : i % 8 < 32 := by omega
        simp [h1, h2, h3, h4, h5, h6]
      · have h3 : (f n).getLsbD (i - 8 * n) = false := BitVec.getLsbD_of_ge _ _ (by omega)
        simp [h1, h2, h3]

/-- A gathered value is the little-endian integer of its bytes (R50). -/
theorem gather_toNat (f : Nat → Byte) (n : Nat) (hn : n ≤ 4) :
    (gather f n).toNat = streamInteger ((List.range n).map f) := by
  apply Nat.eq_of_testBit_eq
  intro i
  rw [streamInteger_testBit, BitVec.testBit_toNat, gather_getLsbD f n i hn]
  by_cases hi : i < 8 * n
  · have : i / 8 < n := by omega
    simp [hi, List.getElem?_range this]
  · have : ¬ i / 8 < n := by omega
    simp [hi, this]

/-- Lane `i` of a gathered value (R50). -/
theorem gather_lane (f : Nat → Byte) {n i : Nat} (hn : n ≤ 4) (hi : i < n) :
    (gather f n).extractLsb' (8 * i) 8 = f i := by
  apply BitVec.eq_of_getLsbD_eq
  intro k hk
  rw [BitVec.getLsbD_extractLsb', gather_getLsbD f n _ hn]
  have h1 : (8 * i + k) / 8 = i := by omega
  have h2 : (8 * i + k) % 8 = k := by omega
  have h3 : 8 * i + k < 8 * n := by omega
  simp [h1, h2, h3, hk]

/-- The one access that counts as a read of STATUS (R57, log 18). -/
theorem isStatusRead_iff (a : Access) : isStatusRead a = true ↔ a = .read 0x04#32 .word := by
  cases a <;> simp [isStatusRead]

/-- The first STATUS read that waits is taken, and the others keep their order. -/
theorem takeStatusRead_first {before after : List Access} (h : Access.read 0x04#32 .word ∉ before) :
    takeStatusRead (before ++ .read 0x04#32 .word :: after) = some (before ++ after) := by
  induction before with
  | nil => simp [takeStatusRead, isStatusRead]
  | cons b before ih =>
    rw [List.mem_cons, not_or] at h
    have hb : ¬ isStatusRead b = true := fun e => h.1 ((isStatusRead_iff b).1 e).symm
    simp [takeStatusRead, hb, ih h.2]

/-- None is taken exactly when no STATUS read waits. -/
theorem takeStatusRead_none {waiting : List Access} : takeStatusRead waiting = none ↔ Access.read 0x04#32 .word ∉ waiting := by
  induction waiting with
  | nil => simp [takeStatusRead]
  | cons a waiting ih =>
    by_cases ha : isStatusRead a = true
    · obtain rfl := (isStatusRead_iff a).1 ha
      simp [takeStatusRead, isStatusRead]
    · have hne : Access.read 0x04#32 .word ≠ a := fun e => ha ((isStatusRead_iff a).2 e.symm)
      simp [takeStatusRead, ha, hne, ih]

/-- What the block does while a command runs: it serves a STATUS read that waits, or takes one access that arrives, or, with no
STATUS read waiting, runs the command (R57). -/
theorem whileBusy_cases (w : Word) (inputs : List Input) (s : State) :
    (∃ others, takeStatusRead s.env.stalled = some others ∧ whileBusy w inputs s = .move (pollStatus (setStalled others s))) ∨
    (∃ a rest, takeStatusRead s.env.stalled = none ∧ inputs = .access a :: rest ∧ whileBusy w inputs s =
      .move (if isStatusRead a then pollStatus (setInputs rest s) else stall a (setInputs rest s))) ∨
    takeStatusRead s.env.stalled = none ∧ (∀ a rest, inputs ≠ .access a :: rest) ∧ whileBusy w inputs s = .run w := by
  unfold whileBusy
  split
  · exact .inl ⟨_, ‹_›, rfl⟩
  · rename_i h
    split
    · refine .inr (.inl ⟨_, _, h, rfl, ?_⟩); split <;> rfl
    all_goals exact .inr (.inr ⟨h, by simp, rfl⟩)

/-- After `commandIssued` the block runs the command. -/
theorem nextAction_commandIssued (w : Word) (s : State) : nextAction (commandIssued w s) = .run w := by
  have h : takeStatusRead (s.env.stalled.filter fun a => !isStatusRead a) = none := by
    rw [takeStatusRead_none, List.mem_filter]; simp [isStatusRead]
  simp [nextAction, commandIssued, startCommand, whileBusy, h]

theorem Size.bytes_le (z : Size) : z.bytes ≤ 4 := by cases z <;> decide

end Sys2Proof.Machine
end

