-- ==== Sys2Proof/Tests/Slice0.lean ====
section
/-! SUPPORT. The model's own tests: ill-formed commands refused, words written out from the opcode map, single steps with the
results of spec/95_test_vectors.md, and for each statement with hypotheses a state and operands that meet them. -/
namespace Sys2Proof.Tests
open Sys2Proof Sys2Proof.Machine

/-! ### Small states -/

/-- A block with IBUF_CAP = 8 and a small OBUF_CAP, just out of reset, that holds a stream. -/
def bench (bytes : List Byte) (obufCap : BitVec 25) : State :=
  { State.resetWith 8#25 obufCap Env.quiet with
    ibuf := Memory.writeAll [] 0 bytes, bufLen := BitVec.ofNat 25 bytes.length }

/-- The block after `LZW_INIT m`. -/
def started (bytes : List Byte) (m : Nat) (obufCap : BitVec 25) : State := startDecode m (bench bytes obufCap)

/-- The block after that many codes of a decode. -/
def afterCodes : Nat → State → State
  | 0, s => s
  | k + 1, s =>
    if s.phase.decoding then
      match stepBody s with
      | .next t => afterCodes k t
      | .fault _ => s
      | .refused _ => s
    else s

/-- The state a command leads to. -/
def nextOf : Result → Option State
  | .next t => some t
  | .fault _ => none
  | .refused _ => none

theorem bench_inv (bytes : List Byte) (cap : BitVec 25) (hb : bytes.length ≤ 8) (h1 : 1 ≤ cap.toNat) (h2 : cap.toNat ≤ 2 ^ 24) :
    (bench bytes cap).Inv := by
  have hl : (BitVec.ofNat 25 bytes.length).toNat = bytes.length := by rw [BitVec.toNat_ofNat]; omega
  have c1 : 1 ≤ (8#25).toNat := by decide
  have c2 : (8#25).toNat ≤ 2 ^ 24 := by decide
  refine ⟨⟨c1, c2, h1, h2⟩, ⟨?_, Nat.zero_le _, ?_, ?_, rfl, rfl, ?_, fun _ _ => rfl, ⟨fun _ => rfl, fun _ => rfl⟩⟩,
    fun _ => ⟨rfl, rfl, rfl, rfl, rfl, rfl, rfl, rfl⟩, fun h => absurd rfl h⟩
  · change (BitVec.ofNat 25 bytes.length).toNat ≤ 8
    omega
  · exact Nat.zero_le _
  · exact Memory.writeAll_wf [] 0 bytes rfl
  · intro i hi
    have hi : 8 ≤ i := hi
    change Memory.read (Memory.writeAll [] 0 bytes) i = none
    rw [Memory.read_writeAll_outside _ _ (by omega)]
    rfl

theorem started_inv (bytes : List Byte) (m : Nat) (cap : BitVec 25)
    (h : bytes.length ≤ 8 ∧ 1 ≤ cap.toNat ∧ cap.toNat ≤ 2 ^ 24 ∧ 1 ≤ m ∧ m ≤ 8) : (started bytes m cap).Inv :=
  startDecode_inv (bench_inv bytes cap h.1 h.2.1 h.2.2.1) h.2.2.2.1 h.2.2.2.2

theorem afterCodes_inv (k : Nat) (s : State) (h : s.Inv) : (afterCodes k s).Inv := by
  induction k generalizing s with
  | zero => exact h
  | succ k ih =>
    unfold afterCodes
    split
    · rename_i hp
      obtain ⟨t, ht, hi⟩ := stepBody_inv h hp
      rw [ht]; exact ih t hi
    · exact h

/-- The block with that many codes of a stream decoded. -/
def decoding (bytes : List Byte) (m : Nat) (cap : BitVec 25) (k : Nat) : State := afterCodes k (started bytes m cap)

theorem decoding_inv (bytes : List Byte) (m : Nat) (cap : BitVec 25) (k : Nat)
    (h : bytes.length ≤ 8 ∧ 1 ≤ cap.toNat ∧ cap.toNat ≤ 2 ^ 24 ∧ 1 ≤ m ∧ m ≤ 8) : (decoding bytes m cap k).Inv :=
  afterCodes_inv k _ (started_inv bytes m cap h)

/-! ### Ill-formed commands are refused (R65) -/

theorem test_count_33_is_ill_formed : (Instr.brReadbits 33#8).wellFormed = false := by decide

theorem test_count_32_is_well_formed : (Instr.brReadbits 32#8).wellFormed = true := by decide

theorem test_code_size_0_is_ill_formed : (Instr.lzwInit 0#8).wellFormed = false := by decide

theorem test_code_size_9_is_ill_formed : (Instr.lzwInit 9#8).wellFormed = false := by decide

theorem test_code_sizes_1_and_8_are_well_formed :
    (Instr.lzwInit 1#8).wellFormed = true ∧ (Instr.lzwInit 8#8).wellFormed = true := by decide

/-- R70: the assembler refuses what is not well formed, and a word address that is no multiple of 4. -/
theorem test_assembler_refuses_ill_formed_lines :
    HostLine.accepted (.command (.brReadbits 33#8)) = false ∧ HostLine.accepted (.lzwDecode 9#8) = false ∧
      HostLine.accepted (.wrw 2 0#32) = false ∧ HostLine.accepted (.rdw 3) = false := by decide

/-! ### Words written out from the opcode map (R66, R72) -/

theorem test_decode_nop : decode 0x00000000#32 = .ok .nop := by decide

theorem test_decode_brRewind : decode 0x00000001#32 = .ok .brRewind := by decide

theorem test_decode_brReadbit : decode 0x00000002#32 = .ok .brReadbit := by decide

theorem test_decode_brReadbits : decode 0x00000C03#32 = .ok (.brReadbits 12#8) := by decide

theorem test_decode_lzwInit : decode 0x00000810#32 = .ok (.lzwInit 8#8) := by decide

theorem test_decode_lzwStep : decode 0x00000011#32 = .ok .lzwStep := by decide

theorem test_decode_lzwRun : decode 0x00000012#32 = .ok .lzwRun := by decide

theorem test_decode_ilRow : decode 0x00000020#32 = .ok .ilRow := by decide

theorem test_decode_ilElem : decode 0x00000021#32 = .ok .ilElem := by decide

theorem test_decode_clrErr : decode 0x00000030#32 = .ok .clrErr := by decide

/-- R72: the words of its table that are no command, or a command out of its range. -/
theorem test_decode_illegal_words :
    decode 0x00010000#32 = .error .reservedBits ∧ decode 0x00000111#32 = .error .unexpectedArg ∧
      decode 0x00000013#32 = .error .reservedOp ∧ decode 0x00002103#32 = .ok (.brReadbits 33#8) ∧
      decode 0x00000910#32 = .ok (.lzwInit 9#8) ∧ decodeBytes [0x30#8, 0x00#8, 0x00#8] = .error .shortWord := by decide

/-! ### Single steps (95_test_vectors.md) -/

/-- V-CTL-1: NOP leaves a failed STATUS. -/
theorem test_nop :
    (nextOf (exec .nop ((bench [] 16#25).withDecodeError .corruptStream))).map (fun t => regRead t .status) =
      some 0x422#32 := by decide

/-- V-CTL-1: CLR_ERR takes STATUS 0x0422 to 0x0400. -/
theorem test_clrErr :
    (nextOf (exec .clrErr ((bench [] 16#25).withDecodeError .corruptStream))).map (fun t => regRead t .status) =
      some 0x400#32 := by decide

/-- V-BR-5: BR_REWIND from BR_POS = 13. -/
theorem test_brRewind :
    (nextOf (exec .brRewind (setCursor 13 (bench [0xA5#8, 0x3C#8] 16#25)))).map (fun t => t.brPos) = some 0#28 := by decide

/-- V-BR-5: a bit read at BIT_OFF = 7 carries into BYTE_OFF. -/
theorem test_brReadbit :
    (nextOf (exec .brReadbit (setCursor 7 (bench [0xA5#8, 0x3C#8] 16#25)))).map (fun t => (t.result, regRead t .brPos)) =
      some (1#32, 8#32) := by decide

/-- V-BR-1: no bit is left at BR_POS = 16. -/
theorem test_brReadbit_outOfData :
    (nextOf (exec .brReadbit (setCursor 16 (bench [0xA5#8, 0x3C#8] 16#25)))).map (fun t => (regRead t .status, t.brPos)) =
      some (0x12#32, 16#28) := by decide

/-- V-BR-4: `0x3CA5 >> 2`. -/
theorem test_brReadbits :
    (nextOf (exec (.brReadbits 14#8) (setCursor 2 (bench [0xA5#8, 0x3C#8] 16#25)))).map (fun t => (t.result, t.brPos)) =
      some (0xF29#32, 16#28) := by decide

/-- V-BR-2: 32 bits that end exactly at the end of the stream. -/
theorem test_brReadbits_whole_word :
    (nextOf (exec (.brReadbits 32#8) (setCursor 8 (bench [0x78#8, 0x56#8, 0x34#8, 0x12#8, 0xF0#8] 16#25)))).map
      (fun t => (t.result, t.brPos)) = some (0xF0123456#32, 40#28) := by decide

/-- V-LZW-0: LZW_CFG and DICT_SIZE after `LZW_INIT 8` and `LZW_INIT 1`. -/
theorem test_lzwInit :
    (nextOf (exec (.lzwInit 8#8) (bench [] 16#25))).map (fun t => (regRead t .lzwCfg, t.dictSize)) =
        some (0x02030098#32, 258#32) ∧
      (nextOf (exec (.lzwInit 1#8) (bench [] 16#25))).map (fun t => (regRead t .lzwCfg, t.dictSize)) =
        some (0x00060221#32, 4#32) := by decide

/-- V-LZW-1, step 4: code 6 emits [0, 1], registers [1, 0] and raises the width to 4. -/
theorem test_lzwStep :
    (nextOf (exec .lzwStep (decoding [0x44#8, 0x5C#8] 2 16#25 3))).map
      (fun t => (regRead t .lzwCfg, t.dictSize, dictEntry t 7, t.output)) =
        some (0x000A0442#32, 8#32, some ⟨1#8, [0#8]⟩, [0#8, 1#8, 0#8, 1#8]) := by decide

/-- V-LZW-4: code 7 with DICT_SIZE = 6. -/
theorem test_lzwStep_corrupt :
    (nextOf (exec .lzwStep (decoding [0xC4#8, 0x01#8] 2 16#25 2))).map
      (fun t => (regRead t .status, t.brPos, t.lzwCode, t.outLen)) = some (0x422#32, 9#28, 7#12, 1#25) := by decide

/-- V-LZW-2: the KwKwK case, twice. -/
theorem test_lzwRun :
    (nextOf (exec .lzwRun (started [0x84#8, 0x5F#8] 2 16#25))).map
      (fun t => (regRead t .status, t.dictSize, t.lastCode, t.output)) =
        some (0x300#32, 8#32, 7#12, [0#8, 0#8, 0#8, 0#8, 0#8, 0#8]) := by decide

/-- V-LZW-6: OUTPUT_OVERFLOW with OBUF_CAP = 3. -/
theorem test_lzwRun_overflow :
    (nextOf (exec .lzwRun (started [0x44#8, 0x5C#8] 2 3#25))).map
      (fun t => (regRead t .status, t.brPos, t.dictSize, t.output)) = some (0x462#32, 12#28, 7#32, [0#8, 1#8]) := by decide

/-- V-IL-1, H = 10, decoded row 4, and V-IL-5, H = 65535, decoded row 65534. -/
theorem test_ilRow :
    (nextOf (exec .ilRow { bench [] 16#25 with ilHeight := 10#16, interlace := true, ilIndex := 4#32 })).map
        (fun t => t.result) = some 6#32 ∧
      (nextOf (exec .ilRow { bench [] 16#25 with ilHeight := 65535#16, interlace := true, ilIndex := 65534#32 })).map
        (fun t => t.result) = some 65533#32 := by decide

/-- V-IL-2: element 14 of a 3 by 5 frame; V-IL-4: element 15. -/
theorem test_ilElem :
    (nextOf (exec .ilElem { bench [] 16#25 with ilWidth := 3#16, ilHeight := 5#16, interlace := true, ilIndex := 14#32 })).map
        (fun t => t.result) = some 11#32 ∧
      (nextOf (exec .ilElem { bench [] 16#25 with ilWidth := 3#16, ilHeight := 5#16, ilIndex := 15#32 })).map
        (fun t => t.errcode) = some .rangeError := by decide

/-- V-CTL-1: LZW_STEP spelt with an ARG, in phase LITERAL. -/
theorem test_misspelt_word :
    (nextOf (runWord 0x00000111#32 (started [] 2 16#25))).map (fun t => (regRead t .status, t.brPos)) =
      some (0x132#32, 0#28) := by decide

/-- V-MEM-1: a 16-bit read of IBUF, one that is misaligned, and a clipped BUF_LEN. -/
theorem test_port :
    (serve (memRead 0x01000002#32 .half) (bench [0x78#8, 0x56#8, 0x34#8, 0x12#8] 16#25)).env.response =
        some ⟨false, 0x1234#32⟩ ∧
      (serve (memRead 0x01000001#32 .half) (bench [0x78#8, 0x56#8, 0x34#8, 0x12#8] 16#25)).env.response =
        some ⟨true, 0#32⟩ ∧
      (serve (writeReg .bufLen 0xFFFFFFFF#32) (bench [] 16#25)).bufLen = 8#25 := by decide

/-- The word the host asks about is the one the next step runs. -/
theorem test_withFetchWord :
    (nextOf (step (State.withFetchWord (bench [0xA5#8, 0x3C#8] 16#25) 32 0x0503))).map (fun t => (t.result, t.brPos)) =
      some (5#32, 5#28) := by decide

/-- R70, R71: the text of two lines. -/
theorem test_assemble :
    assemble "LZW_DECODE 2 ; whole stream\n wrb IBUF[3], 0x2C" = some [.lzwDecode 2#8, .wrb 3 0x2C#8] ∧
      assemble "BR_READBITS 33" = none := by decide

/-! ### For each statement with hypotheses: a state and operands that meet them -/

/-- The side conditions of `decoding_inv` for the states below. -/
theorem decoding_inv' (bytes : List Byte) (m : Nat) (cap : BitVec 25) (k : Nat)
    (h : (decide (bytes.length ≤ 8) && decide (1 ≤ cap.toNat) && decide (cap.toNat ≤ 2 ^ 24) && decide (1 ≤ m) &&
      decide (m ≤ 8)) = true) : (decoding bytes m cap k).Inv := by
  simp only [Bool.and_eq_true, decide_eq_true_eq] at h
  exact decoding_inv bytes m cap k ⟨h.1.1.1.1, h.1.1.1.2, h.1.1.2, h.1.2, h.2⟩

/-- A state of a decode is ready for its next code. -/
theorem decoding_ready (bytes : List Byte) (m : Nat) (cap : BitVec 25) (k : Nat) (p : Phase)
    (h : (decide (bytes.length ≤ 8) && decide (1 ≤ cap.toNat) && decide (cap.toNat ≤ 2 ^ 24) && decide (1 ≤ m) &&
      decide (m ≤ 8)) = true)
    (r : (!(decoding bytes m cap k).err && decide ((decoding bytes m cap k).phase = p) &&
      decide ((decoding bytes m cap k).brPos.toNat + (decoding bytes m cap k).codeWidth.toNat ≤
        8 * (decoding bytes m cap k).bufLen.toNat)) = true) : readyForCode (decoding bytes m cap k) p := by
  simp only [Bool.and_eq_true, Bool.not_eq_true', decide_eq_true_eq] at r
  exact ⟨decoding_inv' bytes m cap k h, r.1.1, r.1.2, r.2⟩

theorem witness_DecodedWordIsTheEncodingOfItsCommand : ∃ w i, decode w = .ok i := ⟨0x2003#32, .brReadbits 32#8, by decide⟩

/-- Each of the three cases of R67 and the two of BAD_PARAMETER, at the ends of their ranges. -/
theorem witness_IllegalWordsRaiseIllegalCommand :
    (bench [] 16#25).err = false ∧ (∃ r, decode 0x80000000#32 = .error r) ∧ (∃ r, decode 0x00000004#32 = .error r) ∧
      (∃ r, decode 0x000000FF#32 = .error r) ∧ (∃ r, decode 0x00000130#32 = .error r) ∧
      32 < (33#8).toNat ∧ 32 < (255#8).toNat ∧ ((0#8).toNat = 0 ∨ 8 < (0#8).toNat) ∧ ((9#8).toNat = 0 ∨ 8 < (9#8).toNat) :=
  ⟨rfl, ⟨.reservedBits, by decide⟩, ⟨.reservedOp, by decide⟩, ⟨.reservedOp, by decide⟩, ⟨.unexpectedArg, by decide⟩,
    by decide, by decide, by decide, by decide⟩

theorem witness_StepRunsTheDecodedCommand :
    let s := startCommand 0x0803#32 (bench [] 16#25)
    s.running = some 0x0803#32 ∧ s.undisturbed ∧ decode 0x0803#32 = .ok (.brReadbits 8#8) :=
  ⟨rfl, ⟨rfl, by decide, .inl rfl⟩, by decide⟩

theorem witness_CmdWriteStartsTheCommand : Size.byte ≠ .word ∧ Size.half ≠ .word := by decide

/-- R57, R124: a CMD write and a STATUS poll arrive during reset; after it the write is served, then the poll, which reads
BUSY = 1. -/
theorem test_poll_that_waits :
    let s := releaseReset (stall (readReg .status) (stall (writeReg .cmd 0x00#32) (assertReset (bench [] 16#25))))
    ∃ v : BitVec 31, ((nextOf (step s)).bind fun t => nextOf (step t)).map
      (fun u => (u.running, u.env.stalled, u.env.response)) = some (some 0x00#32, [], some ⟨false, v ++ 1#1⟩) :=
  ⟨_, rfl⟩

/-- A poll that waits behind another access (the first place and a later one), and a poll and another read that arrive, each
while a command runs. -/
theorem witness_BusyServesStatusReadsAndStallsTheRest :
    let first := stall (readReg .status) (startCommand 0x12#32 (bench [] 16#25))
    let later := stall (readReg .status) (stall (readReg .result) (startCommand 0x12#32 (bench [] 16#25)))
    let poll := setInputs [.access (readReg .status)] (startCommand 0x12#32 (bench [] 16#25))
    let other := setInputs [.access (readReg .result)] (startCommand 0x12#32 (bench [] 16#25))
    (first.running = some 0x12#32 ∧ first.env.resetIn = false ∧ first.env.stalled = [] ++ .read 0x04#32 .word :: [] ∧
        first.env.inputs = []) ∧
      (later.running = some 0x12#32 ∧ later.env.resetIn = false ∧
        later.env.stalled = [.read 0x08#32 .word] ++ .read 0x04#32 .word :: [] ∧
        Access.read 0x04#32 .word ∉ [Access.read 0x08#32 .word] ∧ later.env.inputs = []) ∧
      (poll.running = some 0x12#32 ∧ poll.env.resetIn = false ∧ poll.env.stalled = [] ∧ poll.env.inputs = [.access (.read 0x04#32 .word)]) ∧
      (other.running = some 0x12#32 ∧ other.env.resetIn = false ∧ other.env.stalled = [] ∧ other.env.inputs = [.access (.read 0x08#32 .word)] ∧
        Access.read 0x08#32 .word ≠ .read 0x04#32 .word) :=
  by decide

/-- An access that waits, and one that arrives when none does. -/
theorem witness_StalledAccessesAreServedInArrivalOrder :
    let waiting := stall (readReg .result) (bench [] 16#25)
    let arriving := setInputs [.access (readReg .result)] (bench [] 16#25)
    (waiting.running = none ∧ waiting.env.resetIn = false ∧ (∀ b rest, waiting.env.inputs ≠ .reset b :: rest) ∧
        waiting.env.stalled = [readReg .result]) ∧
      (arriving.running = none ∧ arriving.env.resetIn = false ∧ (∀ b rest, arriving.env.inputs ≠ .reset b :: rest) ∧
        arriving.env.stalled = [] ∧ arriving.env.inputs = [.access (readReg .result)]) :=
  ⟨⟨rfl, rfl, (fun _ _ h => by cases h), rfl⟩, rfl, rfl, (fun _ _ h => by cases h), rfl, rfl⟩

theorem witness_CommandsAreDroppedWhileErr :
    ((bench [] 16#25).withError .rangeError).err = true ∧ wordOp 0xFFFFFF01#32 ≠ 0x00#8 ∧ wordOp 0xFFFFFF01#32 ≠ 0x30#8 ∧
      Reg.result ≠ .status := by decide

theorem witness_FirstErrorIsKept :
    (bench [] 16#25).err = false ∧ ((bench [] 16#25).withError .rangeError).err = true := by decide

theorem witness_NopChangesNothing : wordOp 0x00000100#32 = 0x00#8 ∧ 0x00000100#32 ≠ 0#32 := by decide

theorem witness_ClrErrClearsOnlyTheError :
    ((bench [] 16#25).withDecodeError .corruptStream).phase = .failed ∧ wordOp 0x80000030#32 = 0x30#8 ∧
      0x80000030#32 ≠ 0x30#32 := by decide

theorem witness_BrRewindSetsTheCursorToTheStart : (setCursor 13 (bench [0xA5#8, 0x3C#8] 16#25)).err = false := by decide

/-- The last bit of a stream, and none left. -/
theorem witness_BrReadbitReturnsTheNextBit :
    (setCursor 7 (bench [0xA5#8] 16#25)).err = false ∧ (setCursor 7 (bench [0xA5#8] 16#25)).hasBits 1 ∧
      (setCursor 8 (bench [0xA5#8] 16#25)).err = false ∧ ¬ (setCursor 8 (bench [0xA5#8] 16#25)).hasBits 1 := by
  unfold State.hasBits; decide

/-- 32 bits to the end of the stream, no bits at its end, one bit too many, and n = 33. -/
theorem witness_BrReadbitsReturnsTheStreamField :
    let s := bench [0x78#8, 0x56#8, 0x34#8, 0x12#8] 16#25
    s.err = false ∧ ((32#8).toNat ≤ 32 ∧ s.hasBits (32#8).toNat) ∧ ((0#8).toNat ≤ 32 ∧ (setCursor 32 s).hasBits (0#8).toNat) ∧
      ((32#8).toNat ≤ 32 ∧ ¬ (setCursor 1 s).hasBits (32#8).toNat) ∧ 32 < (33#8).toNat := by
  unfold State.hasBits; decide

theorem witness_ConsecutiveReadsJoin :
    let s := bench [0x78#8, 0x56#8, 0x34#8, 0x12#8] 16#25
    s.err = false ∧ (5#8).toNat + (27#8).toNat ≤ 32 ∧ s.hasBits ((5#8).toNat + (27#8).toNat) := by
  unfold State.hasBits; decide

theorem witness_LzwInitStartsADecode :
    (bench [] 16#25).err = false ∧ (1 ≤ (1#8).toNat ∧ (1#8).toNat ≤ 8) ∧ (1 ≤ (8#8).toNat ∧ (8#8).toNat ≤ 8) ∧
      ((0#8).toNat = 0 ∨ 8 < (0#8).toNat) ∧ ((9#8).toNat = 0 ∨ 8 < (9#8).toNat) := by decide

/-- After reset, after the End Code (V-LZW-10), and after a corrupt code that was acknowledged (V-LZW-14). -/
theorem witness_StepsOutsideADecodeRaiseSequenceError :
    ((bench [] 16#25).err = false ∧ (bench [] 16#25).phase ∉ [.literal, .normal]) ∧
      ((decoding [0x05#8] 2 16#25 1).err = false ∧ (decoding [0x05#8] 2 16#25 1).phase ∉ [.literal, .normal]) ∧
      (let s := acknowledgeError (decoding [0x06#8] 2 16#25 1)
       s.err = false ∧ s.phase ∉ [.literal, .normal]) := by decide

/-- Out of data in phase LITERAL, and in phase NORMAL. -/
theorem witness_LzwStepOutOfData :
    (let s := decoding [] 2 16#25 0
     s.err = false ∧ s.phase = .literal ∧ ¬ s.hasBits s.codeWidth.toNat) ∧
      (let s := decoding [0x00#8] 7 16#25 1
       s.err = false ∧ s.phase = .normal ∧ ¬ s.hasBits s.codeWidth.toNat) := by
  unfold State.hasBits; decide

/-- A Clear Code, an End Code, the highest literal with room, a literal with OBUF full, the lowest corrupt code. -/
theorem witness_LzwStepLiteralPosition :
    (readyForCode (decoding [0x04#8] 2 16#25 0) .literal ∧
        (decoding [0x04#8] 2 16#25 0).nextCode = (decoding [0x04#8] 2 16#25 0).clearCode.toNat) ∧
      (readyForCode (decoding [0x05#8] 2 16#25 0) .literal ∧
        (decoding [0x05#8] 2 16#25 0).nextCode = (decoding [0x05#8] 2 16#25 0).endCode.toNat) ∧
      (readyForCode (decoding [0x03#8] 2 1#25 0) .literal ∧
        (decoding [0x03#8] 2 1#25 0).nextCode < (decoding [0x03#8] 2 1#25 0).clearCode.toNat ∧
        (decoding [0x03#8] 2 1#25 0).outLen.toNat + 1 ≤ (decoding [0x03#8] 2 1#25 0).obufCap.toNat) ∧
      (readyForCode (decoding [0x20#8, 0x00#8] 2 1#25 2) .literal ∧
        (decoding [0x20#8, 0x00#8] 2 1#25 2).nextCode < (decoding [0x20#8, 0x00#8] 2 1#25 2).clearCode.toNat ∧
        (decoding [0x20#8, 0x00#8] 2 1#25 2).obufCap.toNat < (decoding [0x20#8, 0x00#8] 2 1#25 2).outLen.toNat + 1) ∧
      (readyForCode (decoding [0x06#8] 2 16#25 0) .literal ∧
        (decoding [0x06#8] 2 16#25 0).endCode.toNat < (decoding [0x06#8] 2 16#25 0).nextCode) :=
  ⟨⟨decoding_ready _ _ _ _ _ rfl (by decide), by decide⟩, ⟨decoding_ready _ _ _ _ _ rfl (by decide), by decide⟩,
    ⟨decoding_ready _ _ _ _ _ rfl (by decide), by decide, by decide⟩,
    ⟨decoding_ready _ _ _ _ _ rfl (by decide), by decide, by decide⟩,
    decoding_ready _ _ _ _ _ rfl (by decide), by decide⟩

theorem witness_LzwStepEndCodeTerminates :
    readyForCode (decoding [0x28#8] 2 16#25 1) .normal ∧
      (decoding [0x28#8] 2 16#25 1).nextCode = (decoding [0x28#8] 2 16#25 1).endCode.toNat :=
  ⟨decoding_ready _ _ _ _ _ rfl (by decide), by decide⟩

theorem witness_LzwStepClearCodeReinitialises :
    readyForCode (decoding [0x20#8] 2 16#25 1) .normal ∧
      (decoding [0x20#8] 2 16#25 1).nextCode = (decoding [0x20#8] 2 16#25 1).clearCode.toNat :=
  ⟨decoding_ready _ _ _ _ _ rfl (by decide), by decide⟩

/-- V-LZW-1 step 4, where the code is DICT_SIZE - 1, with OBUF exactly large enough and one entry too small. -/
theorem witness_LzwStepKnownCode :
    let s := decoding [0x44#8, 0x5C#8] 2 4#25 3
    let u := decoding [0x44#8, 0x5C#8] 2 3#25 3
    (readyForCode s .normal ∧ s.nextCode ≠ s.clearCode.toNat ∧ s.nextCode ≠ s.endCode.toNat ∧
        s.nextCode + 1 = s.dictSize.toNat ∧ dictEntry s s.nextCode = some ⟨0#8, [1#8]⟩ ∧
        s.outLen.toNat + 2 = s.obufCap.toNat) ∧
      (readyForCode u .normal ∧ u.nextCode + 1 = u.dictSize.toNat ∧ dictEntry u u.nextCode = some ⟨0#8, [1#8]⟩ ∧
        u.obufCap.toNat < u.outLen.toNat + 2) :=
  ⟨⟨decoding_ready _ _ _ _ _ rfl (by decide), by decide, by decide, by decide, by decide, by decide⟩,
    decoding_ready _ _ _ _ _ rfl (by decide), by decide, by decide, by decide⟩

/-- V-LZW-2 step 3, with OBUF exactly large enough and one entry too small. -/
theorem witness_LzwStepCodeAboutToBeDefined :
    let s := decoding [0x84#8, 0x5F#8] 2 3#25 2
    let u := decoding [0x84#8, 0x5F#8] 2 2#25 2
    (readyForCode s .normal ∧ s.nextCode = s.dictSize.toNat ∧ dictEntry s s.lastCode.toNat = some ⟨0#8, []⟩ ∧
        s.outLen.toNat + 1 + 1 = s.obufCap.toNat) ∧
      (readyForCode u .normal ∧ u.nextCode = u.dictSize.toNat ∧ dictEntry u u.lastCode.toNat = some ⟨0#8, []⟩ ∧
        u.obufCap.toNat < u.outLen.toNat + 1 + 1) := by
  refine ⟨⟨decoding_ready _ _ _ _ _ rfl (by decide), by decide, by decide, ?_⟩,
    decoding_ready _ _ _ _ _ rfl (by decide), by decide, by decide, by decide⟩
  decide

/-- V-LZW-4: the code DICT_SIZE + 1. -/
theorem witness_LzwStepCorruptCode :
    readyForCode (decoding [0xC4#8, 0x01#8] 2 16#25 2) .normal ∧
      (decoding [0xC4#8, 0x01#8] 2 16#25 2).dictSize.toNat < (decoding [0xC4#8, 0x01#8] 2 16#25 2).nextCode :=
  ⟨decoding_ready _ _ _ _ _ rfl (by decide), by decide⟩

/-- V-LZW-3: the registration that grows the width (step 4), and the Clear Code that resets it (step 5). -/
theorem witness_CodeWidthChangesOnlyByInitOrGrowth :
    (let s := decoding [0x44#8, 0x4C#8, 0x2B#8] 2 16#25 3
     s.Inv ∧ (nextOf (exec .lzwStep s)).map (fun t => t.codeWidth) = some 4#4 ∧ s.codeWidth = 3#4) ∧
      (let s := decoding [0x44#8, 0x4C#8, 0x2B#8] 2 16#25 4
       s.Inv ∧ (nextOf (exec .lzwStep s)).map (fun t => t.codeWidth) = some 3#4 ∧ s.codeWidth = 4#4) :=
  ⟨⟨decoding_inv' _ _ _ _ rfl, by decide, by decide⟩, decoding_inv' _ _ _ _ rfl, by decide, by decide⟩

/-- V-LZW-8, after its second code. -/
theorem witness_MinimumCodeSizeOneStaysAtWidthTwo :
    let s := decoding [0x46#8, 0x0D#8] 1 16#25 2
    readyForCode s .normal ∧ s.minCodeSize = 1#4 ∧ s.nextCode < 2 ∧ s.outLen.toNat + 1 ≤ s.obufCap.toNat :=
  ⟨decoding_ready _ _ _ _ _ rfl (by decide), by decide, by decide, by decide⟩

/-- The codes that have an entry once DICT_SIZE is 4096, for MIN_CODE_SIZE = 2. -/
def fullCodes : List Nat := List.range' 0 4 ++ List.range' 6 4090

/-- An entry for each of them: the singletons, and sequences of two indices. -/
def fullEntry (c : Nat) : Expansion := if c < 4 then Expansion.literal c else ⟨0#8, [0#8]⟩

/-- A decode with a full dictionary, at the start of a stream of zeros (V-LZW-9 from n = 4090 on). -/
def full : State :=
  { started [0x00#8, 0x00#8] 2 8192#25 with
    dict := fullCodes.map fun c => (c, fullEntry c), dictSize := 4096#32, codeWidth := 12#4, phase := .normal
    obuf := (List.range' 0 4091).map (fun j => (j, 0#8)), outLen := 4091#25 }

theorem full_entry (c : Nat) : dictEntry full c = if c ∈ fullCodes then some (fullEntry c) else none :=
  sparseGet_map _ _ _

theorem mem_fullCodes (c : Nat) : c ∈ fullCodes ↔ c < 4 ∨ 6 ≤ c ∧ c < 4096 := by
  simp only [fullCodes, List.mem_append, List.mem_range'_1]; omega

theorem full_inv : full.Inv := by
  have h := started_inv [0x00#8, 0x00#8] 2 8192#25 (by decide)
  have a := h.active (by decide)
  have hc : full.clearCode.toNat = 4 := by decide
  have hm : full.minCodeSize.toNat = 2 := by decide
  have hd : full.dictSize.toNat = 4096 := by decide
  have ho : full.outLen.toNat = 4091 := by decide
  have hcap : full.obufCap.toNat = 8192 := by decide
  have hobuf : ∀ j, Memory.read full.obuf j = if j < 4091 then some 0#8 else none := by
    intro j
    change Memory.read ((List.range' 0 4091).map fun j => (j, 0#8)) j = _
    rw [Memory.read_eq, sparseGet_map (fun _ => 0#8)]
    simp [List.mem_range'_1]
  refine ⟨configured_congr h.configured rfl rfl, ⟨h.ranged.1, h.ranged.2, ?_, h.ranged.4,
    rising_range' (fun _ => 0#8) 0 4091, ?_, h.ranged.7, ?_, h.ranged.9⟩, (fun h => by cases h), fun _ => ⟨a.1, a.2, a.3, a.4, ?_, ?_, ?_, ?_, ?_, ?_, ?_, ?_, ?_, ?_, ?_, ?_⟩⟩
  · omega
  · have := risingAbove_range' fullEntry (k := 3) (a := 6) (by omega) 4090
    change rising (fullCodes.map fun c => (c, fullEntry c)) = true
    rw [fullCodes, List.map_append]
    generalize (List.range' 6 4090).map (fun c => (c, fullEntry c)) = rest at this ⊢
    change (decide (0 < 1) && (decide (1 < 2) && (decide (2 < 3) && risingAbove 3 rest))) = true
    simp [this]
  · intro j hj
    rw [hobuf, if_neg (by omega)]
  · rw [hm]; decide
  · decide
  · omega
  · omega
  · intro _; rw [hd]; decide
  · omega
  · intro c hlt
    rw [full_entry, if_pos ((mem_fullCodes c).2 (by omega)), fullEntry, if_pos (by omega)]
  · intro c h1 h2 h3
    refine ⟨_, by rw [full_entry, if_pos ((mem_fullCodes c).2 (by omega))], ?_⟩
    rw [fullEntry, if_neg (by omega), hc]
    refine ⟨by decide, ?_, by decide⟩
    change 2 ≤ c - 4
    omega
  · have he : full.endCode.toNat = 5 := by decide
    rw [full_entry, full_entry, hc, he, if_neg (by rw [mem_fullCodes]; omega), if_neg (by rw [mem_fullCodes]; omega)]
    exact ⟨rfl, rfl⟩
  · intro c hx
    rw [full_entry, if_neg (by rw [mem_fullCodes]; omega)]
  · intro _
    exact ⟨_, by rw [full_entry, if_pos ((mem_fullCodes _).2 (.inl (by decide)))]⟩
  · intro j hj
    exact ⟨0#8, by rw [hobuf, if_pos (by omega)], by rw [hc]; decide⟩

theorem witness_FullDictionaryStoresNothing :
    readyForCode full .normal ∧ 2 ≤ full.minCodeSize.toNat ∧ 4096 ≤ full.dictSize.toNat ∧
      full.nextCode ≠ full.clearCode.toNat ∧ full.nextCode ≠ full.endCode.toNat ∧
      dictEntry full full.nextCode = some (Expansion.literal 0) ∧ full.outLen.toNat + 1 ≤ full.obufCap.toNat := by
  have hn : full.nextCode = 0 := by decide
  refine ⟨⟨full_inv, by decide, by decide, by unfold State.hasBits; decide⟩, by decide, by decide, ?_, ?_, ?_, by decide⟩
  · rw [hn]; decide
  · rw [hn]; decide
  · rw [hn, full_entry, if_pos ((mem_fullCodes 0).2 (by omega))]; rfl

/-- A run from phase LITERAL, and one that goes on from phase NORMAL. -/
theorem witness_LzwRunIsRepeatedLzwStep :
    ((decoding [0x44#8, 0x5C#8] 2 16#25 0).Inv ∧ (decoding [0x44#8, 0x5C#8] 2 16#25 0).err = false ∧
        (decoding [0x44#8, 0x5C#8] 2 16#25 0).phase = .literal) ∧
      ((decoding [0x44#8, 0x5C#8] 2 16#25 3).Inv ∧ (decoding [0x44#8, 0x5C#8] 2 16#25 3).err = false ∧
        (decoding [0x44#8, 0x5C#8] 2 16#25 3).phase = .normal) :=
  ⟨⟨decoding_inv' _ _ _ _ rfl, by decide, by decide⟩, decoding_inv' _ _ _ _ rfl, by decide, by decide⟩

/-- A stream that ends DONE (V-LZW-1) and one that runs out of data. -/
theorem witness_LzwRunEndsDoneOrFailed :
    ((decoding [0x44#8, 0x5C#8] 2 16#25 0).Inv ∧ (decoding [0x44#8, 0x5C#8] 2 16#25 0).err = false ∧
        (decoding [0x44#8, 0x5C#8] 2 16#25 0).phase = .literal) ∧
      ((decoding [] 2 16#25 0).Inv ∧ (decoding [] 2 16#25 0).err = false ∧ (decoding [] 2 16#25 0).phase = .literal) :=
  ⟨⟨decoding_inv' _ _ _ _ rfl, by decide, by decide⟩, decoding_inv' _ _ _ _ rfl, by decide, by decide⟩

/-- The streams of V-LZW-1 (an output, and with OBUF_CAP = 3 an overflow), V-LZW-4 (corrupt) and V-LZW-7 (out of data). -/
theorem witness_DecodeIsTheSourceLoop :
    (bench [0x44#8, 0x5C#8] 3#25).Inv ∧ (bench [0x44#8, 0x5C#8] 3#25).err = false ∧ 1 ≤ (2#8).toNat ∧ (2#8).toNat ≤ 8 ∧
      sourceDecode 2 (bench [0x44#8, 0x5C#8] 3#25).stream = some (.output [0#8, 1#8, 0#8, 1#8]) ∧
      sourceDecode 2 (bench [0xC4#8, 0x01#8] 16#25).stream = some .corruptStream ∧
      sourceDecode 2 (bench [0x44#8, 0x00#8] 16#25).stream = some .outOfData :=
  ⟨bench_inv _ _ (by decide) (by decide) (by decide), rfl, by decide, by decide, by decide, by decide, by decide⟩

/-- V-LZW-1 with OBUF exactly large enough. -/
theorem witness_LzwRunCompletesOnAGoodStream :
    let s := bench [0x44#8, 0x5C#8] 4#25
    s.Inv ∧ s.err = false ∧ 1 ≤ (2#8).toNat ∧ (2#8).toNat ≤ 8 ∧
      sourceDecode (2#8).toNat s.stream = some (.output [0#8, 1#8, 0#8, 1#8]) ∧
      [0#8, 1#8, 0#8, 1#8].length ≤ s.obufCap.toNat :=
  ⟨bench_inv _ _ (by decide) (by decide) (by decide), rfl, by decide, by decide, by decide, by decide⟩

/-- A step of a decode that has emitted an index. -/
theorem witness_EmittedOutputIsFinal :
    (∀ m, Instr.lzwStep ≠ .lzwInit m) ∧ (nextOf (exec .lzwStep (decoding [0x44#8, 0x5C#8] 2 16#25 2))).isSome = true ∧
      0 < (decoding [0x44#8, 0x5C#8] 2 16#25 2).outLen.toNat :=
  ⟨(fun _ h => by cases h), by decide, by decide⟩

/-- The last row, and the first index outside the frame. -/
theorem witness_IlRowMapsTheDecodedRow :
    let s := { bench [] 16#25 with ilHeight := 5#16, ilIndex := 4#32 }
    let u := { bench [] 16#25 with ilHeight := 5#16, ilIndex := 5#32 }
    (s.err = false ∧ s.ilIndex.toNat < s.ilHeight.toNat) ∧ (u.err = false ∧ u.ilHeight.toNat ≤ u.ilIndex.toNat) := by decide

/-- The last element, and the first index outside the frame. -/
theorem witness_IlElemMovesTheRowAndKeepsTheColumn :
    let s := { bench [] 16#25 with ilWidth := 3#16, ilHeight := 5#16, ilIndex := 14#32 }
    let u := { bench [] 16#25 with ilWidth := 3#16, ilHeight := 5#16, ilIndex := 15#32 }
    (s.err = false ∧ s.ilIndex.toNat < s.ilWidth.toNat * s.ilHeight.toNat) ∧
      (u.err = false ∧ u.ilWidth.toNat * u.ilHeight.toNat ≤ u.ilIndex.toNat) := by decide

theorem witness_PassCountsSplitTheFrame : (0 : Nat) ≤ 65535 ∧ 65535 ≤ 65535 := by decide

theorem witness_DestinationRowIsABijection :
    5 ≤ 65535 ∧ 4 < 5 ∧ ilDest 4 5 = ilDest 4 5 ∧ (1 : Nat) ≤ 5 := by decide

theorem witness_ScatterWritesEveryElementOnce :
    let s := { bench [] 16#25 with ilWidth := 3#16, ilHeight := 5#16 }
    s.err = false ∧ 14 < s.ilWidth.toNat * s.ilHeight.toNat ∧
      (nextOf (exec .ilElem { s with ilIndex := 14#32 })).map (fun t => t.result) = some 14#32 := by decide

/-- A command of each group that completes, and one that is dropped. -/
theorem witness_EachCommandWritesOnlyItsUnitsState :
    (nextOf (exec .ilRow (bench [] 16#25))).isSome = true ∧ (nextOf (exec .lzwStep (bench [] 16#25))).isSome = true ∧
      (nextOf (exec .lzwRun ((bench [] 16#25).withError .rangeError))).isSome = true ∧
      ((bench [] 16#25).withError .rangeError).err = true := by decide

/-- The three ways PHASE changes: LZW_INIT, a code, reset. -/
theorem witness_PhaseChangesOnlyByDecodeCommandsAndReset :
    (nextOf (step (startCommand 0x210#32 (bench [] 16#25)))).map (fun t => t.phase) = some .literal ∧
      (nextOf (step (startCommand 0x11#32 (decoding [0x05#8] 2 16#25 0)))).map (fun t => t.phase) = some .done ∧
      (nextOf (step (setInputs [.reset true] (decoding [0x05#8] 2 16#25 0)))).map (fun t => t.phase) = some .idle := by
  decide

/-- A dropped command, a reset and a CLR_ERR, each with ERR = 1. -/
theorem witness_ErrIsClearedOnlyByClrErrOrReset :
    let s := (bench [] 16#25).withError .rangeError
    s.err = true ∧ (nextOf (step (startCommand 0x01#32 s))).map (fun t => t.err) = some true ∧
      (nextOf (step (setInputs [.reset true] s))).map (fun t => t.err) = some false ∧
      (nextOf (step (startCommand 0x30#32 s))).map (fun t => t.err) = some false := by decide

theorem witness_CapacitiesNeverChange : (nextOf (step (setInputs [.reset true] (bench [] 16#25)))).isSome = true := by decide

theorem witness_StatusFieldsStandWhereTheSpecPutsThem : (bench [] 16#25).running = none := rfl

/-- A command that completes, so that it can be asked whether it wrote BUF_LEN. -/
theorem witness_BufLenIsClippedToTheCapacity : (nextOf (exec .lzwRun (bench [] 16#25))).isSome = true := by decide

/-- A narrow access, and a misaligned one at the end of the window. -/
theorem witness_RegisterWindowServesAlignedWordsOnly :
    ((0x3C#32).toNat < 0x40 ∧ Size.byte ≠ .word) ∧ ((0x3F#32).toNat < 0x40 ∧ (0x3F#32).toNat % 4 ≠ 0) ∧
      Reg.obufCapReg ∈ [Reg.status, .result, .brPos, .lzwCfg, .dictSize, .lastCode, .lzwCode, .outLen, .ibufCapReg, .obufCapReg] := by
  decide

/-- The last word of IBUF (IBUF_CAP = 8), a misaligned word, and the first byte beyond. -/
theorem witness_IbufWriteStoresTheStrobedBytes :
    (4 < 2 ^ 24 ∧ 4 % Size.word.bytes = 0 ∧ 4 + Size.word.bytes ≤ (bench [] 16#25).ibufCap.toNat) ∧
      (2 < 2 ^ 24 ∧ 2 % Size.word.bytes ≠ 0) ∧
      (8 < 2 ^ 24 ∧ (bench [] 16#25).ibufCap.toNat < 8 + Size.byte.bytes) := by decide

/-- The same places, read. -/
theorem witness_IbufReadReturnsItsBytes :
    (4 < 2 ^ 24 ∧ 4 % Size.word.bytes = 0 ∧ 4 + Size.word.bytes ≤ (bench [] 16#25).ibufCap.toNat) ∧
      (1 < 2 ^ 24 ∧ 1 % Size.half.bytes ≠ 0) ∧
      (2 ^ 24 - 1 < 2 ^ 24 ∧ (bench [] 16#25).ibufCap.toNat < 2 ^ 24 - 1 + Size.byte.bytes) := by decide

/-- An emitted index on lane 0, the last word of OBUF (OBUF_CAP = 16), and the first byte beyond. -/
theorem witness_ObufIsReadOnly :
    (let s := decoding [0x03#8] 2 16#25 1
     0 < 2 ^ 24 ∧ 0 % Size.word.bytes = 0 ∧ 0 + Size.word.bytes ≤ s.obufCap.toNat ∧ 0 < Size.word.bytes ∧
      0 + 0 < s.outLen.toNat ∧ Memory.read s.obuf (0 + 0) = some 3#8) ∧
      (12 < 2 ^ 24 ∧ 12 % Size.word.bytes = 0 ∧ 12 + Size.word.bytes ≤ (bench [] 16#25).obufCap.toNat) ∧
      (16 < 2 ^ 24 ∧ (bench [] 16#25).obufCap.toNat < 16 + Size.byte.bytes) := by decide

/-- The ends of each of the three holes of the address map, with IBUF_CAP = 8 and OBUF_CAP = 16. -/
theorem witness_UnmappedAccessesAreRefused :
    (bench [] 16#25).Inv ∧ (0x40 ≤ (0x40#32).toNat ∧ (0x40#32).toNat < 0x01000000) ∧
      (0x40 ≤ (0x00FFFFFF#32).toNat ∧ (0x00FFFFFF#32).toNat < 0x01000000) ∧
      (0x01000000 + (bench [] 16#25).ibufCap.toNat ≤ (0x01000008#32).toNat ∧ (0x01000008#32).toNat < 0x02000000) ∧
      0x02000000 + (bench [] 16#25).obufCap.toNat ≤ (0x02000010#32).toNat ∧
      0x02000000 + (bench [] 16#25).obufCap.toNat ≤ (0xFFFFFFFF#32).toNat :=
  ⟨bench_inv _ _ (by decide) (by decide) (by decide), by decide, by decide, by decide, by decide, by decide⟩

theorem witness_MixedWidthViewsAgree :
    4 * 1 + 4 ≤ (bench [] 16#25).ibufCap.toNat ∧ (bench [] 16#25).ibufCap.toNat ≤ 2 ^ 24 ∧ 3 < 4 := by decide

theorem witness_ResetGivesEveryRegisterItsResetValue :
    (setInputs [.reset true] (startCommand 0x12#32 (bench [] 16#25))).env.inputs = [.reset true] ∧ Reg.status ≠ .ibufCapReg ∧
      Reg.status ≠ .obufCapReg := by decide

/-- An access that arrives during reset, and the end of reset. -/
theorem witness_NothingIsServedDuringReset :
    (let s := setInputs [.access (readReg .status)] (assertReset (bench [] 16#25))
     s.env.resetIn = true ∧ s.env.inputs = [.access (readReg .status)]) ∧
      (let s := setInputs [.reset false] (assertReset (bench [] 16#25))
       s.env.resetIn = true ∧ s.env.inputs = [.reset false]) := by decide

theorem witness_CommandsRightAfterReset : 1 ≤ (1#8).toNat ∧ (1#8).toNat ≤ 8 ∧ 1 ≤ (8#8).toNat ∧ (8#8).toNat ≤ 8 := by decide

/-- A state in the middle of a decode, with the next step of it written to CMD. -/
theorem witness_EveryStepKeepsTheInvariant :
    (decoding [0x44#8, 0x5C#8] 2 16#25 3).Inv ∧
      (nextOf (step ((decoding [0x44#8, 0x5C#8] 2 16#25 3).withFetchWord 32 0x11))).isSome = true :=
  ⟨decoding_inv' _ _ _ _ rfl, by decide⟩

theorem witness_NoStepEverStops : (decoding [0x44#8, 0x5C#8] 2 16#25 5).Inv := decoding_inv' _ _ _ _ rfl

end Sys2Proof.Tests
end

section
/-! What one step can do, said once: the moves of the port and the reset input, what a served access writes, and what no
command writes (R19). The rules about the whole machine follow from these. -/
namespace Sys2Proof.Machine

/-! ### The moves of the port and the reset input -/

/-- What a move that runs no command can do. Besides reset and a served access it writes the model's own `env` only: a poll,
a stall, an idle input, the release of reset (R57, R124). -/
inductive PortMove (s : State) : State → Prop where
  | reset (rest : List Input) (h : s.env.inputs = .reset true :: rest) : PortMove s (assertReset (setInputs rest s))
  | env (e : Env) : PortMove s { s with env := e }
  | serve (a : Access) (e : Env) (h : s.running = none) : PortMove s (serve a { s with env := e })

theorem whileReset_move (inputs : List Input) (s : State) : PortMove s (whileReset inputs s) := by
  unfold whileReset
  split <;> exact .env _

theorem whileIdle_move (inputs : List Input) {s : State} (h : s.running = none) : PortMove s (whileIdle inputs s) := by
  unfold whileIdle
  split
  · exact .serve _ _ h
  · split
    · exact .serve _ _ h
    all_goals exact .env _

/-- The block runs the command it holds, or makes one move of the port or the reset input. -/
theorem nextAction_cases (s : State) :
    (∃ w, s.running = some w ∧ nextAction s = .run w) ∨ ∃ t, nextAction s = .move t ∧ PortMove s t := by
  unfold nextAction
  split
  · rename_i level rest h
    refine .inr ⟨_, rfl, ?_⟩
    cases level
    · exact .env _
    · exact .reset rest h
  split
  · exact .inr ⟨_, rfl, whileReset_move _ s⟩
  split
  · rename_i w hw
    obtain ⟨others, -, e⟩ | ⟨a, rest, -, -, e⟩ | ⟨-, -, e⟩ := whileBusy_cases w s.env.inputs s <;> rw [e]
    · exact .inr ⟨_, rfl, .env _⟩
    · refine .inr ⟨_, rfl, ?_⟩
      split <;> exact .env _
    · exact .inl ⟨w, hw, rfl⟩
  · rename_i hw
    exact .inr ⟨_, rfl, whileIdle_move _ hw⟩

/-- A step that completes ran the command word the block held, or was one move of the port or the reset input. -/
theorem step_cases {s t : State} (h : step s = .next t) :
    (∃ w, s.running = some w ∧ runWord w s = .next t) ∨ PortMove s t := by
  unfold step at h
  obtain ⟨w, hw, e⟩ | ⟨u, e, hu⟩ := nextAction_cases s <;> rw [e] at h
  · exact .inl ⟨w, hw, h⟩
  · cases h
    exact .inr hu

/-! ### What an access writes -/

/-- A write that is not refused writes a register, or the strobed bytes of IBUF (R52 to R54). -/
theorem writePort_cases {s t : State} {addr : Word} {size : Size} {data : Word} {strobes : BitVec 4}
    (h : writePort s addr size data strobes = some t) :
    (∃ off r, windowOf addr = .registers off ∧ size = .word ∧ regAt off = some r ∧ t = regWrite data s r) ∨
    ∃ off, windowOf addr = .ibuf off ∧ aligned addr size = true ∧ inBuffer off size s.ibufCap = true ∧
      t = storeLanes addr.toNat off data strobes s size.bytes := by
  unfold writePort at h
  split at h
  · rename_i off hw
    split at h
    · obtain ⟨r, hr, rfl⟩ := Option.map_eq_some_iff.1 h
      exact .inl ⟨off, r, hw, ‹_›, hr, rfl⟩
    · cases h
  · rename_i off hw
    split at h
    · rename_i hin
      cases h
      exact .inr ⟨off, hw, hin.1, hin.2, rfl⟩
    · cases h
  · cases h
  · cases h

/-- A served access answers, and is a write that took effect or changes the model's own `env` only. -/
theorem serve_cases (a : Access) (s : State) :
    (∃ e, serve a s = { s with env := e }) ∨
    ∃ addr size data strobes t, a = .write addr size data strobes ∧ writePort s addr size data strobes = some t ∧
      serve a s = respond false 0#32 t := by
  cases a with
  | read addr size =>
    refine .inl ?_
    simp only [serve]
    split <;> exact ⟨_, rfl⟩
  | write addr size data strobes =>
    cases h : writePort s addr size data strobes with
    | none => exact .inl ⟨_, by simp only [serve, h]; rfl⟩
    | some t => exact .inr ⟨addr, size, data, strobes, t, rfl, h, by simp only [serve, h]⟩

/-! ### What no command writes -/

/-- What no command writes (R19): all that no LZW step writes, except RESULT. -/
def CommandFrame (s t : State) : Prop := HostSame (setResult t.result s) t

theorem HostSame.commandFrame {s t : State} (h : HostSame s t) : CommandFrame s t := { h with result := rfl }

theorem raise_frame (e : ErrCode) (b : RaisedBy) (s : State) : CommandFrame s (raise e b s) :=
  (raise_host e b s).1.commandFrame

theorem setResult_frame (v : Word) (s : State) : CommandFrame s (setResult v s) := HostSame.refl _

theorem readToResult_frame (n : Nat) (s : State) : CommandFrame s (readToResult n s) := by
  unfold readToResult
  by_cases hb : s.hasBits n
  · rw [bitRead_some hb]
    constructor <;> rfl
  · rw [bitRead_none hb]
    exact raise_frame ..

/-- A command that is dropped writes nothing, so the frame of a command is that of its run. -/
theorem unlessErr_frame {s t : State} {run : State → Result} (h : unlessErr s run = .next t)
    (frame : run s = .next t → CommandFrame s t) : CommandFrame s t := by
  obtain ⟨-, rfl⟩ | ⟨-, h⟩ := unlessErr_next h
  · exact (HostSame.refl _).commandFrame
  · exact frame h

/-- A decode command outside a decode raises SEQUENCE_ERROR, so its frame is that of its run. -/
theorem whileDecoding_frame {s t : State} {run : State → Result} (h : whileDecoding s run = .next t)
    (frame : run s = .next t → CommandFrame s t) : CommandFrame s t := by
  obtain ⟨-, rfl⟩ | ⟨-, h⟩ := whileDecoding_next h
  · exact raise_frame ..
  · exact frame h

/-- A check that raises an error or goes on to `u`: the frame is that of `u`. -/
theorem check_frame {p : Prop} [Decidable p] {e : ErrCode} {s t u : State}
    (h : (if p then .next (raise e .command s) else .next u : Result) = .next t) (frame : CommandFrame s u) :
    CommandFrame s t := by
  split at h <;> cases h
  · exact raise_frame ..
  · exact frame

/-- A run of steps writes no more than its steps do. -/
theorem runLoop_host {k : Nat} {s t : State} (h : runLoop k s = .next t) : HostSame s t := by
  induction k generalizing s with
  | zero =>
    simp only [runLoop] at h
    split at h
    · cases h
    · cases h
      exact HostSame.refl _
  | succ k ih =>
    simp only [runLoop] at h
    split at h
    · split at h
      · rename_i u one
        exact (stepBody_host one).1.trans (ih h)
      · cases h
      · cases h
    · cases h
      exact HostSame.refl _

/-- No command writes the capacities, IBUF, the host's registers, BUSY or the connections of the block (R19). -/
theorem exec_frame {i : Instr} {s t : State} (h : exec i s = .next t) : CommandFrame s t := by
  cases i with
  | nop => cases h; exact (HostSame.refl _).commandFrame
  | clrErr => cases h; constructor <;> rfl
  | brRewind =>
    simp only [exec, execBrRewind] at h
    exact unlessErr_frame h fun h => by cases h; constructor <;> rfl
  | brReadbit =>
    simp only [exec, execBrReadbit] at h
    exact unlessErr_frame h fun h => by cases h; exact readToResult_frame ..
  | brReadbits n =>
    simp only [exec, execBrReadbits] at h
    exact unlessErr_frame h fun h => check_frame h (readToResult_frame ..)
  | lzwInit m =>
    simp only [exec, execLzwInit] at h
    exact unlessErr_frame h fun h => check_frame h (by constructor <;> rfl)
  | lzwStep =>
    simp only [exec, execLzwStep] at h
    exact unlessErr_frame h fun h => whileDecoding_frame h fun h => (stepBody_host h).1.commandFrame
  | lzwRun =>
    simp only [exec, execLzwRun] at h
    exact unlessErr_frame h fun h => whileDecoding_frame h fun h => (runLoop_host h).commandFrame
  | ilRow =>
    simp only [exec, execIlRow] at h
    exact unlessErr_frame h fun h => check_frame h (setResult_frame ..)
  | ilElem =>
    simp only [exec, execIlElem] at h
    exact unlessErr_frame h fun h => check_frame h (setResult_frame ..)

theorem illegalCommand_frame (op : BitVec 8) (s : State) : CommandFrame s (illegalCommand op s) := by
  unfold illegalCommand
  split
  · exact (HostSame.refl _).commandFrame
  · exact raise_frame ..

/-- Running a word, legal or not, ends the command and keeps the frame of a command. -/
theorem runWord_frame {w : Word} {s t : State} (h : runWord w s = .next t) : CommandFrame (endCommand s) t := by
  unfold runWord at h
  split at h
  · exact exec_frame h
  · cases h
    exact illegalCommand_frame ..

/-! ### The capacities (R9) -/

/-- The two states have the same capacities. -/
def SameCapacities (s t : State) : Prop := t.ibufCap = s.ibufCap ∧ t.obufCap = s.obufCap

theorem CommandFrame.capacities {s t : State} (h : CommandFrame s t) : SameCapacities s t := ⟨h.ibufCap, h.obufCap⟩

theorem regWrite_capacities (v : Word) (s : State) (r : Reg) : SameCapacities s (regWrite v s r) := by
  cases r <;> exact ⟨rfl, rfl⟩

theorem storeLanes_capacities (addr off : Nat) (d : Word) (st : BitVec 4) (s : State) (n : Nat) :
    SameCapacities s (storeLanes addr off d st s n) := by
  induction n with
  | zero => exact ⟨rfl, rfl⟩
  | succ n ih =>
    simp only [storeLanes]
    split <;> exact ih

theorem serve_capacities (a : Access) (s : State) : SameCapacities s (serve a s) := by
  obtain ⟨e, h⟩ | ⟨addr, size, data, strobes, t, -, hw, h⟩ := serve_cases a s <;> rw [h]
  · exact ⟨rfl, rfl⟩
  · obtain ⟨off, r, -, -, -, rfl⟩ | ⟨off, -, -, -, rfl⟩ := writePort_cases hw
    · exact regWrite_capacities data s r
    · exact storeLanes_capacities addr.toNat off data strobes s size.bytes

theorem PortMove.capacities {s t : State} (h : PortMove s t) : SameCapacities s t := by
  cases h with
  | reset rest _ => exact ⟨rfl, rfl⟩
  | env e => exact ⟨rfl, rfl⟩
  | serve a e _ => exact serve_capacities a { s with env := e }

/-- Settles O43: no command writes the capacities, no access does, and reset hands them on. -/
theorem capacitiesNeverChange : Obligations.CapacitiesNeverChange := by
  intro s t h
  obtain ⟨w, -, hw⟩ | hm := step_cases h
  · exact (runWord_frame hw).capacities
  · exact hm.capacities

end Sys2Proof.Machine
end

section
/-! What running a command can do, said once: one case per way a command can end, each with its guards. The frames of R19, the
kept error of R111 and the invariant of R45 follow from these cases. -/
namespace Sys2Proof.Machine

/-- How a command that completes has changed the state: dropped while ERR = 1 (R111), refused with an error that has no other
side effect (R110), or carried out. -/
inductive CommandEffect (s : State) : Instr → State → Prop where
  | nop : CommandEffect s .nop s
  | clrErr : CommandEffect s .clrErr (acknowledgeError s)
  | dropped (i : Instr) (err : s.err = true) (hi : i ≠ .clrErr) : CommandEffect s i s
  | refused (i : Instr) (e : ErrCode) (err : s.err = false) (he : e ≠ .none) : CommandEffect s i (raise e .command s)
  | rewind (err : s.err = false) : CommandEffect s .brRewind (setCursor 0 s)
  | read (i : Instr) (n : Nat) (err : s.err = false) (hi : i = .brReadbit ∨ ∃ m, i = .brReadbits m) (bits : s.hasBits n) :
      CommandEffect s i (setResult (field s s.brPos.toNat n) (setCursor (s.brPos.toNat + n) s))
  | place (i : Instr) (v : Word) (err : s.err = false) (hi : i = .ilRow ∨ i = .ilElem) : CommandEffect s i (setResult v s)
  | init (m : BitVec 8) (err : s.err = false) (legal : 1 ≤ argValue m ∧ argValue m ≤ 8) :
      CommandEffect s (.lzwInit m) (startDecode (argValue m) s)
  | decode (i : Instr) (t : State) (err : s.err = false) (decoding : s.phase.decoding = true)
      (run : i = .lzwStep ∧ stepBody s = .next t ∨ i = .lzwRun ∧ runLoop (runBound s) s = .next t) : CommandEffect s i t

/-- A command other than CLR_ERR is dropped while ERR = 1, and so ends as its run does. -/
theorem unlessErr_effect {i : Instr} {s t : State} {run : State → Result} (hi : i ≠ .clrErr)
    (h : unlessErr s run = .next t) (effect : s.err = false → run s = .next t → CommandEffect s i t) :
    CommandEffect s i t := by
  obtain ⟨he, rfl⟩ | ⟨he, h⟩ := unlessErr_next h
  · exact .dropped i he hi
  · exact effect he h

/-- A check that refuses the command with an error or goes on to `u`. -/
theorem check_effect {p : Prop} [Decidable p] {e : ErrCode} {i : Instr} {s t u : State} (err : s.err = false)
    (h : (if p then .next (raise e .command s) else .next u : Result) = .next t) (he : e ≠ .none) (effect : ¬ p → CommandEffect s i u) :
    CommandEffect s i t := by
  split at h <;> cases h
  · exact .refused i e err he
  · exact effect ‹_›

theorem readToResult_effect {i : Instr} (hi : i = .brReadbit ∨ ∃ m, i = .brReadbits m) (n : Nat) {s : State}
    (err : s.err = false) : CommandEffect s i (readToResult n s) := by
  unfold readToResult
  by_cases bits : s.hasBits n
  · rw [bitRead_some bits]
    exact .read i n err hi bits
  · rw [bitRead_none bits]
    exact .refused i _ err nofun

theorem whileDecoding_effect {i : Instr} {s t : State} {run : State → Result} (err : s.err = false)
    (h : whileDecoding s run = .next t) (hrun : run s = .next t → i = .lzwStep ∧ stepBody s = .next t ∨
      i = .lzwRun ∧ runLoop (runBound s) s = .next t) : CommandEffect s i t := by
  obtain ⟨-, rfl⟩ | ⟨hd, h⟩ := whileDecoding_next h
  · exact .refused i _ err nofun
  · exact .decode i t err hd (hrun h)

/-- What each command can do when it completes (R75 to R77, R81, R84, R94, R101, R102, R105, R106, R111). -/
theorem exec_cases {i : Instr} {s t : State} (h : exec i s = .next t) : CommandEffect s i t := by
  cases i with
  | nop => cases h; exact .nop
  | clrErr => cases h; exact .clrErr
  | brRewind =>
    simp only [exec, execBrRewind] at h
    exact unlessErr_effect nofun h fun err h => by cases h; exact .rewind err
  | brReadbit =>
    simp only [exec, execBrReadbit] at h
    exact unlessErr_effect nofun h fun err h => by cases h; exact readToResult_effect (.inl rfl) 1 err
  | brReadbits n =>
    simp only [exec, execBrReadbits] at h
    exact unlessErr_effect nofun h fun err h =>
      check_effect err h nofun fun _ => readToResult_effect (.inr ⟨n, rfl⟩) _ err
  | lzwInit m =>
    simp only [exec, execLzwInit] at h
    exact unlessErr_effect nofun h fun err h => check_effect err h nofun fun legal => .init m err (by omega)
  | lzwStep =>
    simp only [exec, execLzwStep] at h
    exact unlessErr_effect nofun h fun err h => whileDecoding_effect err h fun run => .inl ⟨rfl, run⟩
  | lzwRun =>
    simp only [exec, execLzwRun] at h
    exact unlessErr_effect nofun h fun err h => whileDecoding_effect err h fun run => .inr ⟨rfl, run⟩
  | ilRow =>
    simp only [exec, execIlRow] at h
    exact unlessErr_effect nofun h fun err h => check_effect err h nofun fun _ => .place _ _ err (.inl rfl)
  | ilElem =>
    simp only [exec, execIlElem] at h
    exact unlessErr_effect nofun h fun err h => check_effect err h nofun fun _ => .place _ _ err (.inr rfl)

/-- While ERR = 1 an illegal word changes nothing; while ERR = 0 it raises ILLEGAL_COMMAND (R68, R109, R111). -/
theorem illegalCommand_cases (op : BitVec 8) (s : State) :
    s.err = true ∧ illegalCommand op s = s ∨
      s.err = false ∧ illegalCommand op s = raise .illegalCommand .command s := by
  cases he : s.err
  · exact .inr ⟨rfl, by rw [illegalCommand_clear he, raise_command he]⟩
  · exact .inl ⟨rfl, illegalCommand_set he⟩

/-- Running a word ends the command and carries out the one it encodes, or refuses a word that is none (R67, R68). -/
theorem runWord_cases {w : Word} {s t : State} (h : runWord w s = .next t) :
    (∃ i, decode w = .ok i ∧ CommandEffect (endCommand s) i t) ∨
      ∃ r, decode w = .error r ∧ t = illegalCommand (wordOp w) (endCommand s) := by
  unfold runWord at h
  split at h
  · exact .inl ⟨_, ‹_›, exec_cases h⟩
  · cases h
    exact .inr ⟨_, ‹_›, rfl⟩

/-! ### The invariant (R45) -/

/-- A run of steps keeps the invariant. -/
theorem runLoop_inv {k : Nat} {s t : State} (h : s.Inv) (run : runLoop k s = .next t) : t.Inv := by
  induction k generalizing s with
  | zero =>
    cases hd : s.phase.decoding
    · rw [runLoop_stop hd] at run
      cases run
      exact h
    · simp [runLoop, hd] at run
  | succ k ih =>
    cases hd : s.phase.decoding
    · rw [runLoop_stop hd] at run
      cases run
      exact h
    · obtain ⟨u, one, hu⟩ := stepBody_inv h hd
      rw [runLoop_step hd one] at run
      exact ih hu run

/-- Every command keeps the invariant. -/
theorem CommandEffect.inv {i : Instr} {s t : State} (c : CommandEffect s i t) (h : s.Inv) : t.Inv := by
  cases c with
  | nop => exact h
  | clrErr => exact clearError_inv h
  | dropped => exact h
  | refused i e _ he => exact raise_inv he h nofun
  | rewind => exact setCursor_inv h (Nat.zero_le _)
  | read i n _ _ bits => exact setResult_inv (setCursor_inv h (cursor_le h bits).2) _
  | place i v => exact setResult_inv h v
  | init m _ legal => exact startDecode_inv h legal.1 legal.2
  | decode i t _ hd run =>
    obtain ⟨-, one⟩ | ⟨-, run⟩ := run
    · obtain ⟨u, one', hu⟩ := stepBody_inv h hd
      cases one.symm.trans one'
      exact hu
    · exact runLoop_inv h run

theorem illegalCommand_inv (op : BitVec 8) {s : State} (h : s.Inv) : (illegalCommand op s).Inv := by
  obtain ⟨-, e⟩ | ⟨-, e⟩ := illegalCommand_cases op s <;> rw [e]
  · exact h
  · exact raise_inv nofun h nofun

/-- Running a word, legal or not, keeps the invariant. -/
theorem runWord_inv {w : Word} {s t : State} (h : s.Inv) (run : runWord w s = .next t) : t.Inv := by
  have hend : (endCommand s).Inv := env_inv h s.env none
  obtain ⟨i, -, c⟩ | ⟨r, -, rfl⟩ := runWord_cases run
  · exact c.inv hend
  · exact illegalCommand_inv _ hend

/-- A write to BUF_LEN stores `min(v, IBUF_CAP)`: the clipped value fits in the register (R28). -/
theorem bufLen_clipped (v : Word) (cap : BitVec 25) :
    (BitVec.ofNat 25 (min v.toNat cap.toNat)).toNat = min v.toNat cap.toNat := by
  have := cap.isLt
  rw [BitVec.toNat_ofNat]
  omega

/-- The IBUF window starts at a multiple of four, so an address and its offset lie on the same lane (R47, R50). -/
theorem windowOf_ibuf_mod {addr : Word} {off : Nat} (h : windowOf addr = .ibuf off) : addr.toNat % 4 = off % 4 := by
  unfold windowOf at h
  dsimp only at h
  split_ifs at h
  have := Window.ibuf.inj h
  omega

/-- A write of a register keeps the invariant: BUF_LEN is clipped (R28), and no other register it writes is in the invariant. -/
theorem regWrite_inv (v : Word) {s : State} (h : s.Inv) (r : Reg) : (regWrite v s r).Inv := by
  have il : ∀ (w x : BitVec 16) (b : Bool) (y : Word),
      State.Inv { s with ilWidth := w, ilHeight := x, interlace := b, ilIndex := y } := fun _ _ _ _ =>
    inv_of_ibuf h (by constructor <;> rfl) rfl rfl rfl rfl h.ranged.ibuf_wf h.ranged.ibuf_inside
  cases r with
  | cmd => exact env_inv h s.env (some v)
  | bufLen =>
    have hr := h.ranged
    refine inv_of_lzwSame h (by constructor <;> rfl) { hr with bufLen_le := ?_ }
    exact (bufLen_clipped ..).trans_le (min_le_right _ _)
  | ilWidth => exact il _ _ _ _
  | ilHeight => exact il _ _ _ _
  | ilCtrl => exact il _ _ _ _
  | ilIndex => exact il _ _ _ _
  | status | result | brPos | lzwCfg | dictSize | lastCode | lzwCode | outLen | ibufCapReg | obufCapReg => exact h

/-- A write of IBUF inside its capacity keeps the invariant (R53). -/
theorem storeLanes_inv {addr : Word} {off : Nat} {size : Size} (d : Word) (st : BitVec 4) {s : State} (h : s.Inv)
    (hw : windowOf addr = .ibuf off) (hin : inBuffer off size s.ibufCap = true) :
    (storeLanes addr.toNat off d st s size.bytes).Inv := by
  obtain ⟨m, e, wf, read⟩ := storeLanes_read d st s (windowOf_ibuf_mod hw) size.bytes
  rw [e]
  refine inv_of_ibuf h (by constructor <;> rfl) rfl rfl rfl rfl (wf h.ranged.ibuf_wf) fun i hi => ?_
  have hcap : off + size.bytes ≤ s.ibufCap.toNat := by simpa [inBuffer] using hin
  rw [read, if_neg (by omega)]
  exact h.ranged.ibuf_inside i hi

/-- Every access keeps the invariant, served or refused. -/
theorem serve_inv (a : Access) {s : State} (h : s.Inv) : (serve a s).Inv := by
  obtain ⟨e, he⟩ | ⟨addr, size, data, strobes, t, -, hw, ht⟩ := serve_cases a s
  · rw [he]
    exact env_inv h e s.running
  · rw [ht]
    refine env_inv (s := t) ?_ _ t.running
    obtain ⟨off, r, -, -, -, rfl⟩ | ⟨off, hwin, -, hin, rfl⟩ := writePort_cases hw
    · exact regWrite_inv data h r
    · exact storeLanes_inv data strobes h hwin hin

/-- Every move of the port or the reset input keeps the invariant. -/
theorem PortMove.inv {s t : State} (m : PortMove s t) (h : s.Inv) : t.Inv := by
  cases m with
  | reset rest _ => exact reset_inv _ _ _ (configured_congr h.configured rfl rfl)
  | env e => exact env_inv h e s.running
  | serve a e _ => exact serve_inv a (env_inv h e s.running)

/-- Settles O59: a step runs a command, which keeps the invariant case by case, or makes one move of the port or the reset
input, which does too. -/
theorem everyStepKeepsTheInvariant : Obligations.EveryStepKeepsTheInvariant := by
  intro s t h run
  obtain ⟨w, -, hw⟩ | m := step_cases run
  · exact runWord_inv h hw
  · exact m.inv h

end Sys2Proof.Machine
end

section
/-! The rules about the whole machine (R19, R25, R26): what each command leaves as it was, what a served access can write, and
the steps that can change PHASE, ERR and ERRCODE. -/
namespace Sys2Proof.Machine

/-! ### What each command leaves as it was -/

/-- While ERR = 1 no command but CLR_ERR changes anything (R111). -/
theorem CommandEffect.eq_of_err {i : Instr} {s t : State} (c : CommandEffect s i t) (err : s.err = true)
    (hi : i ≠ .clrErr) : t = s := by
  cases c with
  | nop | dropped => rfl
  | clrErr => exact absurd rfl hi
  | refused | rewind | read | place | init | decode => simp_all

theorem raise_command_lzwSame (e : ErrCode) (s : State) : LzwSame s (raise e .command s) := by
  constructor <;> simp [raise]

/-- Only the LZW commands write OBUF, DICT, PHASE and the LZW registers (R19). -/
theorem CommandEffect.lzwSame {i : Instr} {s t : State} (c : CommandEffect s i t) (hinit : ∀ m, i ≠ .lzwInit m)
    (hstep : i ≠ .lzwStep) (hrun : i ≠ .lzwRun) : LzwSame s t := by
  cases c with
  | refused i e => exact raise_command_lzwSame e s
  | nop | clrErr | dropped | rewind | read | place => constructor <;> rfl
  | init m => exact absurd rfl (hinit m)
  | decode i t _ _ run =>
    obtain ⟨hi, -⟩ | ⟨hi, -⟩ := run
    · exact absurd hi hstep
    · exact absurd hi hrun

/-- Only the BR reads and the IL commands write RESULT (R27, R73, R104). -/
theorem CommandEffect.result {i : Instr} {s t : State} (c : CommandEffect s i t) (hbit : i ≠ .brReadbit)
    (hbits : ∀ n, i ≠ .brReadbits n) (hrow : i ≠ .ilRow) (helem : i ≠ .ilElem) : t.result = s.result := by
  cases c with
  | refused i e => exact (raise_host e .command s).1.result
  | nop | clrErr | dropped | rewind | init => rfl
  | read i n _ hi =>
    obtain hi | ⟨m, hi⟩ := hi
    · exact absurd hi hbit
    · exact absurd hi (hbits m)
  | place i v _ hi => exact (hi.elim hrow helem).elim
  | decode i t _ _ run =>
    obtain ⟨-, one⟩ | ⟨-, run⟩ := run
    · exact (stepBody_host one).1.result
    · exact (runLoop_host run).result

/-- NOP, CLR_ERR and the IL commands leave the cursor (R104 to R106). -/
theorem CommandEffect.brPos {i : Instr} {s t : State} (c : CommandEffect s i t)
    (hi : i = .nop ∨ i = .clrErr ∨ i = .ilRow ∨ i = .ilElem) : t.brPos = s.brPos := by
  cases c with
  | refused i e => exact (raise_host e .command s).2
  | nop | clrErr | dropped | place => rfl
  | rewind | init => simp at hi
  | read i n _ hread => rcases hread with rfl | ⟨m, rfl⟩ <;> simp at hi
  | decode i t _ _ run => rcases run with ⟨rfl, -⟩ | ⟨rfl, -⟩ <;> simp at hi

/-- Settles O39: each clause is one of the frames of a command. -/
theorem eachCommandWritesOnlyItsUnitsState : Obligations.EachCommandWritesOnlyItsUnitsState := by
  intro i s t h
  have f := exec_frame h
  have c := exec_cases h
  refine ⟨⟨f.ibufCap, f.obufCap, f.ibuf, f.running, f.bufLen, f.ilWidth, f.ilHeight, f.interlace, f.ilIndex, f.env⟩,
    fun hinit hstep hrun => ?_, c.result, c.brPos, fun hi err => ?_⟩
  · have l := c.lzwSame hinit hstep hrun
    exact ⟨l.obuf, l.dict, l.phase, l.minCodeSize, l.codeWidth, l.clearCode, l.endCode, l.dictSize, l.lastCode, l.lzwCode,
      l.outLen⟩
  · rw [c.eq_of_err err hi]
    exact ⟨err, rfl⟩

/-! ### What a served access can write -/

/-- `s` with all that an access can write as `t` has it: the running command, IBUF, BUF_LEN, the IL registers (R19), and the
model's own `env`. -/
def State.withHostState (s t : State) : State :=
  { s with
    running := t.running, ibuf := t.ibuf, bufLen := t.bufLen, ilWidth := t.ilWidth, ilHeight := t.ilHeight
    interlace := t.interlace, ilIndex := t.ilIndex, env := t.env }

theorem regWrite_hostState (v : Word) (s : State) (r : Reg) : regWrite v s r = s.withHostState (regWrite v s r) := by
  cases r <;> rfl

theorem storeLanes_hostState (addr off : Nat) (d : Word) (st : BitVec 4) (s : State) (n : Nat) :
    storeLanes addr off d st s n = s.withHostState (storeLanes addr off d st s n) := by
  induction n with
  | zero => rfl
  | succ n ih =>
    simp only [storeLanes]
    split
    · rw [ih]; rfl
    · exact ih

/-- A served access writes the host's state only (R19, R56, R123). -/
theorem serve_hostState (a : Access) (s : State) : serve a s = s.withHostState (serve a s) := by
  obtain ⟨e, h⟩ | ⟨addr, size, data, strobes, t, -, hw, h⟩ := serve_cases a s <;> rw [h]
  · rfl
  · have ht : t = s.withHostState t := by
      obtain ⟨off, r, -, -, -, rfl⟩ | ⟨off, -, -, -, rfl⟩ := writePort_cases hw
      · exact regWrite_hostState data s r
      · exact storeLanes_hostState addr.toNat off data strobes s size.bytes
    rw [ht]; rfl

/-- Settles O40: none of these fields is in the host's state. -/
theorem accessesWriteOnlyHostState : Obligations.AccessesWriteOnlyHostState := by
  intro a s
  dsimp only
  rw [serve_hostState a s]
  exact ⟨rfl, rfl, rfl, rfl, rfl, rfl, rfl, rfl, rfl, rfl, rfl, rfl, rfl, rfl, rfl, rfl, rfl⟩

/-- A move that runs no command and is not the assertion of reset writes the host's state only. -/
theorem PortMove.hostState {s t : State} (m : PortMove s t) :
    (∃ rest, s.env.inputs = .reset true :: rest ∧ t = assertReset (setInputs rest s)) ∨ t = s.withHostState t := by
  cases m with
  | reset rest h => exact .inl ⟨rest, h, rfl⟩
  | env e => exact .inr rfl
  | serve a e _ =>
    refine .inr ?_
    rw [serve_hostState a { s with env := e }]
    rfl

/-! ### The steps that can change PHASE, ERR and ERRCODE -/

/-- Only LZW_INIT (to LITERAL), LZW_STEP and LZW_RUN change PHASE (R25). -/
theorem CommandEffect.phase {i : Instr} {s t : State} (c : CommandEffect s i t) (h : t.phase ≠ s.phase) :
    (t.phase = .literal ∧ ∃ m, i = .lzwInit m) ∨ i = .lzwStep ∨ i = .lzwRun := by
  cases c with
  | refused i e => exact absurd (raise_command_lzwSame e s).phase h
  | nop | clrErr | dropped | rewind | read | place => exact absurd rfl h
  | init m => exact .inl ⟨rfl, m, rfl⟩
  | decode i t _ _ run => exact .inr (run.imp And.left And.left)

theorem illegalCommand_phase (op : BitVec 8) (s : State) : (illegalCommand op s).phase = s.phase := by
  obtain ⟨-, e⟩ | ⟨-, e⟩ := illegalCommand_cases op s <;> rw [e]
  exact (raise_command_lzwSame _ s).phase

/-- Settles O41: reset gives IDLE, no other move of the port writes PHASE, and of the commands only the LZW commands do. -/
theorem phaseChangesOnlyByDecodeCommandsAndReset : Obligations.PhaseChangesOnlyByDecodeCommandsAndReset := by
  intro s t h hne
  obtain ⟨w, hw, run⟩ | m := step_cases h
  · obtain ⟨i, hi, c⟩ | ⟨r, -, rfl⟩ := runWord_cases run
    · refine .inr ⟨w, hw, ?_⟩
      obtain ⟨hp, m, rfl⟩ | rfl | rfl := c.phase hne
      · exact .inl ⟨hp, m, hi⟩
      · exact .inr (.inl hi)
      · exact .inr (.inr hi)
    · exact absurd (illegalCommand_phase _ (endCommand s)) hne
  · obtain ⟨rest, hin, rfl⟩ | e := m.hostState
    · exact .inl ⟨rfl, rest, hin⟩
    · exact absurd (congrArg State.phase e) hne

/-- Settles O42: a word that runs while ERR = 1 changes nothing unless it is CLR_ERR, and no move of the port but reset writes
ERR or ERRCODE. -/
theorem errIsClearedOnlyByClrErrOrReset : Obligations.ErrIsClearedOnlyByClrErrOrReset := by
  intro s t h err
  obtain ⟨w, hw, run⟩ | m := step_cases h
  · obtain ⟨i, hi, c⟩ | ⟨r, -, rfl⟩ := runWord_cases run
    · by_cases hclr : i = .clrErr
      · exact .inr (.inr ⟨w, hw, hi.trans (congrArg _ hclr)⟩)
      · rw [c.eq_of_err err hclr]
        exact .inl ⟨err, rfl⟩
    · rw [illegalCommand_set (s := endCommand s) err]
      exact .inl ⟨err, rfl⟩
  · obtain ⟨rest, hin, -⟩ | e := m.hostState
    · exact .inr (.inl ⟨rest, hin⟩)
    · rw [e]
      exact .inl ⟨err, rfl⟩

end Sys2Proof.Machine
end

section
/-! The register window: the access that reaches each register (R22), and the fields that stand in it (R23, R24, R28 to R30,
R35 to R38). -/
namespace Sys2Proof.Machine

/-! ### The access that reaches a register -/

/-- The offset of a register is its address, and no other register starts there (R22, R47). -/
theorem regAt_offset (r : Reg) :
    windowOf (BitVec.ofNat 32 r.offset) = .registers r.offset ∧ regAt r.offset = some r := by
  cases r <;> decide

/-- A 32-bit write of a register is answered OK, whatever its strobes. -/
theorem serve_write_reg (r : Reg) (v : Word) (strobes : BitVec 4) (s : State) :
    serve (.write (BitVec.ofNat 32 r.offset) .word v strobes) s = respond false 0#32 (regWrite v s r) := by
  obtain ⟨hw, hr⟩ := regAt_offset r
  simp [serve, writePort, hw, hr]

/-- A 32-bit read of a register is answered OK with its value. -/
theorem serve_read_reg (r : Reg) (s : State) :
    serve (.read (BitVec.ofNat 32 r.offset) .word) s = nextDraw (respond false (regRead s r) s) := by
  obtain ⟨hw, hr⟩ := regAt_offset r
  simp [serve, readPort, hw, hr]

/-- A narrower access to the register window is refused (R52). -/
theorem serve_narrow_reg (r : Reg) {size : Size} (hsize : size ≠ .word) (v : Word) (strobes : BitVec 4) (s : State) :
    serve (.write (BitVec.ofNat 32 r.offset) size v strobes) s = respond true 0#32 s ∧
      serve (.read (BitVec.ofNat 32 r.offset) size) s = respond true 0#32 s := by
  obtain ⟨hw, -⟩ := regAt_offset r
  simp [serve, writePort, readPort, hw, hsize]

/-- Settles O46: the clipped value fits in the 25 bits of BUF_LEN, and BUF_LEN is in the frame of every command. -/
theorem bufLenIsClippedToTheCapacity : Obligations.BufLenIsClippedToTheCapacity := by
  refine ⟨fun s v strobes => ⟨_, serve_write_reg .bufLen v strobes s, bufLen_clipped v s.ibufCap, rfl, rfl⟩, fun s => ?_,
    fun i s t h => (exec_frame h).bufLen, rfl⟩
  exact congrArg (fun t => t.env.response) (serve_read_reg .bufLen s)

/-- Settles O6: CMD is a register that reads 0 and whose write starts the command. -/
theorem cmdWriteStartsTheCommand : Obligations.CmdWriteStartsTheCommand := fun s w strobes =>
  ⟨serve_write_reg .cmd w strobes s, serve_read_reg .cmd s, fun _ hsize => serve_narrow_reg .cmd hsize w strobes s⟩

/-! ### The fields of a register

A register is a concatenation, and a field of it starts where the widths of those below it end. Its width stays written as
their sum (`-Nat.reduceAdd`), which is the form the lemmas about concatenations match. -/

/-- The fields of STATUS, with the number of the error and of the phase (R24). -/
theorem statusWord_fields (s : State) :
    (statusWord s).getLsbD 0 = busy s ∧ (statusWord s).getLsbD 1 = s.err ∧ (statusWord s).extractLsb' 2 2 = 0#2 ∧
      (statusWord s).extractLsb' 4 4 = errNumber s.errcode ∧ (statusWord s).extractLsb' 8 3 = phaseNumber s.phase ∧
      (statusWord s).extractLsb' 11 21 = 0#21 := by
  simp (disch := decide) only [statusWord, BitVec.extractLsb'_append_eq_of_le, BitVec.extractLsb'_append_eq_of_add_le,
    BitVec.getLsbD_append, -Nat.reduceAdd]
  simp

/-- The fields of LZW_CFG (R30). -/
theorem lzwCfgWord_fields (s : State) :
    (lzwCfgWord s).extractLsb' 0 4 = s.minCodeSize ∧ (lzwCfgWord s).extractLsb' 4 4 = s.codeWidth ∧
      (lzwCfgWord s).extractLsb' 8 9 = s.clearCode ∧ (lzwCfgWord s).extractLsb' 17 9 = s.endCode ∧
      (lzwCfgWord s).extractLsb' 26 6 = 0#6 := by
  simp (disch := decide) only [lzwCfgWord, BitVec.extractLsb'_append_eq_of_le, BitVec.extractLsb'_append_eq_of_add_le,
    -Nat.reduceAdd]
  simp

/-- A field of a cursor of 28 bits read as a word: the digits of `p` from bit `start` on (R29). -/
theorem cursor_field (p : BitVec 28) (start len : Nat) :
    (p.setWidth 32).extractLsb' start len = BitVec.ofNat len (p.toNat / 2 ^ start) := by
  have hp : (p.setWidth 32).toNat = p.toNat := BitVec.toNat_setWidth_of_le (by decide)
  apply BitVec.eq_of_toNat_eq
  rw [BitVec.extractLsb'_toNat, hp, BitVec.toNat_ofNat, Nat.shiftRight_eq_div_pow]

/-- Settles O44: the numbers of the errors and of the phases are those of R107 and R25. -/
theorem statusFieldsStandWhereTheSpecPutsThem : Obligations.StatusFieldsStandWhereTheSpecPutsThem := by
  intro s hs
  obtain ⟨hbusy, herr, hzero, hcode, hphase, habove⟩ := statusWord_fields s
  refine ⟨hbusy.trans (by simp [busy, hs]), herr, hzero, hcode.trans ?_, hphase.trans ?_, habove⟩
  · cases s.errcode <;> rfl
  · cases s.phase <;> rfl

/-- Settles O45: the cursor is `8*BYTE_OFF + BIT_OFF`, so BIT_OFF is its last three bits and nothing is above bit 27. -/
theorem cursorAndConfigFieldsStandWhereTheSpecPutsThem : Obligations.CursorAndConfigFieldsStandWhereTheSpecPutsThem := by
  intro s
  refine ⟨(cursor_field s.brPos 0 3).trans ?_, cursor_field s.brPos 3 25, (cursor_field s.brPos 28 4).trans ?_,
    lzwCfgWord_fields s⟩
  · simp [BitVec.toNat_eq]
  · rw [Nat.div_eq_of_lt s.brPos.isLt]

/-- Settles O47: each field is narrower than a word, so a read returns its value with zeros above. -/
theorem interlaceRegistersStoreTheirFields : Obligations.InterlaceRegistersStoreTheirFields := fun s v strobes =>
  ⟨serve_write_reg .ilWidth v strobes s, serve_write_reg .ilHeight v strobes s, serve_write_reg .ilCtrl v strobes s,
    serve_write_reg .ilIndex v strobes s, BitVec.toNat_setWidth_of_le (by decide), BitVec.toNat_setWidth_of_le (by decide),
    (BitVec.toNat_setWidth_of_le (by decide)).trans (BitVec.toNat_ofBool _), rfl⟩

end Sys2Proof.Machine
end

section
/-! The host port (20_memory.md): which accesses are served and which are refused (R47, R50 to R54, R56), and the order in
which the block serves them, with a command running and without one (R57, R58). -/
namespace Sys2Proof.Machine

/-! ### Served and refused -/

theorem serve_read_some {s : State} {addr : Word} {size : Size} {v : Word} (h : readPort s addr size = some v) :
    serve (.read addr size) s = nextDraw (respond false v s) := by
  simp only [serve, h]

theorem serve_read_none {s : State} {addr : Word} {size : Size} (h : readPort s addr size = none) :
    serve (.read addr size) s = respond true 0#32 s := by
  simp only [serve, h]

theorem serve_write_some {s t : State} {addr : Word} {size : Size} {data : Word} {strobes : BitVec 4}
    (h : writePort s addr size data strobes = some t) :
    serve (.write addr size data strobes) s = respond false 0#32 t := by
  simp only [serve, h]

theorem serve_write_none {s : State} {addr : Word} {size : Size} {data : Word} {strobes : BitVec 4}
    (h : writePort s addr size data strobes = none) :
    serve (.write addr size data strobes) s = respond true 0#32 s := by
  simp only [serve, h]

/-- Every write is refused where a read of that size is; OBUF refuses writes where it serves reads (R52 to R54). -/
theorem writePort_none_of_readPort {s : State} {addr : Word} {size : Size} (h : readPort s addr size = none) (data : Word)
    (strobes : BitVec 4) : writePort s addr size data strobes = none := by
  cases hw : writePort s addr size data strobes with
  | none => rfl
  | some t =>
    obtain ⟨off, r, hwin, rfl, hr, -⟩ | ⟨off, hwin, hal, hin, -⟩ := writePort_cases hw
    · simp [readPort, hwin, hr] at h
    · simp [readPort, hwin, hal, hin] at h

/-- A refused access gets ERROR with data 0 and has no effect (R52, R123). -/
theorem serve_refused {s : State} {addr : Word} {size : Size} (h : readPort s addr size = none) (data : Word)
    (strobes : BitVec 4) :
    serve (.read addr size) s = respond true 0#32 s ∧ serve (.write addr size data strobes) s = respond true 0#32 s :=
  ⟨serve_read_none h, serve_write_none (writePort_none_of_readPort h data strobes)⟩

/-- Settles O54: a read is refused, or answered with a value and counted. -/
theorem readsHaveNoSideEffect : Obligations.ReadsHaveNoSideEffect := by
  intro s addr size
  cases h : readPort s addr size with
  | none => exact ⟨_, s.env.draws, serve_read_none h⟩
  | some v => exact ⟨_, s.env.draws + 1, serve_read_some h⟩

/-! ### The register window -/

theorem windowOf_registers {addr : Word} (h : addr.toNat < 0x40) : windowOf addr = .registers addr.toNat := if_pos h

/-- Every register starts at a multiple of four (R22). -/
theorem regAt_misaligned {off : Nat} (h : off % 4 ≠ 0) : regAt off = none := by
  rw [regAt, List.find?_eq_none]
  intro r _ hr
  have : r.offset % 4 = 0 := by cases r <;> rfl
  exact h (of_decide_eq_true hr ▸ this)

theorem readPort_registers_none (s : State) {addr : Word} {size : Size} (h : addr.toNat < 0x40)
    (hbad : size ≠ .word ∨ addr.toNat % 4 ≠ 0) : readPort s addr size = none := by
  rw [readPort, windowOf_registers h]
  obtain hsize | hal := hbad
  · exact if_neg hsize
  · simp [regAt_misaligned hal]

/-- Settles O48: no register starts at a misaligned offset, and a write to a read-only register is ignored. -/
theorem registerWindowServesAlignedWordsOnly : Obligations.RegisterWindowServesAlignedWordsOnly := by
  refine ⟨fun s addr size v strobes h hbad => serve_refused (readPort_registers_none s h hbad) v strobes,
    fun s r v strobes => ⟨congrArg (fun t => t.env.response) (serve_read_reg r s), fun hr => ?_⟩⟩
  have ignored : regWrite v s r = s := by
    cases r with
    | cmd | bufLen | ilWidth | ilHeight | ilCtrl | ilIndex => exact absurd hr (by decide)
    | status | result | brPos | lzwCfg | dictSize | lastCode | lzwCode | outLen | ibufCapReg | obufCapReg => rfl
  rw [serve_write_reg, ignored]
  rfl

/-! ### The buffer windows -/

/-- The OBUF window starts at a multiple of four too (R47, R50). -/
theorem windowOf_obuf_mod {addr : Word} {off : Nat} (h : windowOf addr = .obuf off) : addr.toNat % 4 = off % 4 := by
  unfold windowOf at h
  dsimp only at h
  split_ifs at h
  have := Window.obuf.inj h
  omega

/-- The guard of a buffer window, in terms of the offset: aligned, and inside the capacity (R53, R54). -/
theorem guard_iff {addr : Word} {off : Nat} (hmod : addr.toNat % 4 = off % 4) (size : Size) (cap : BitVec 25) :
    (aligned addr size = true ∧ inBuffer off size cap = true) ↔ off % size.bytes = 0 ∧ off + size.bytes ≤ cap.toNat := by
  have hdvd : size.bytes ∣ 4 := by cases size <;> decide
  have heq : addr.toNat % size.bytes = off % size.bytes := Nat.ModEq.of_dvd hdvd hmod
  simp only [aligned, inBuffer, decide_eq_true_eq, heq]

theorem readPort_ibuf {addr : Word} {off : Nat} (hw : windowOf addr = .ibuf off) (s : State) (size : Size) :
    readPort s addr size = if off % size.bytes = 0 ∧ off + size.bytes ≤ s.ibufCap.toNat
      then some (gather (fun i => ibufByte s (off + i)) size.bytes) else none := by
  simp only [readPort, hw, guard_iff (windowOf_ibuf_mod hw)]

theorem writePort_ibuf {addr : Word} {off : Nat} (hw : windowOf addr = .ibuf off) (s : State) (size : Size) (data : Word)
    (strobes : BitVec 4) :
    writePort s addr size data strobes = if off % size.bytes = 0 ∧ off + size.bytes ≤ s.ibufCap.toNat
      then some (storeLanes addr.toNat off data strobes s size.bytes) else none := by
  simp only [writePort, hw, guard_iff (windowOf_ibuf_mod hw)]

theorem readPort_obuf {addr : Word} {off : Nat} (hw : windowOf addr = .obuf off) (s : State) (size : Size) :
    readPort s addr size = if off % size.bytes = 0 ∧ off + size.bytes ≤ s.obufCap.toNat
      then some (gather (fun i => obufByte s (off + i)) size.bytes) else none := by
  simp only [readPort, hw, guard_iff (windowOf_obuf_mod hw)]

theorem writePort_obuf {addr : Word} {off : Nat} (hw : windowOf addr = .obuf off) (s : State) (size : Size) (data : Word)
    (strobes : BitVec 4) : writePort s addr size data strobes = none := by
  simp only [writePort, hw]

/-- Settles O49: the strobed bytes are those `storeLanes` stores. -/
theorem ibufWriteStoresTheStrobedBytes : Obligations.IbufWriteStoresTheStrobedBytes := by
  intro s off size data strobes hoff
  obtain ⟨hw, -⟩ := windowOf_ibuf hoff
  refine ⟨fun hal hin => ?_, fun hbad => serve_write_none ?_⟩
  · obtain ⟨m, stored, -, read⟩ := storeLanes_read data strobes s (windowOf_ibuf_mod hw) size.bytes
    have served := serve_write_some ((writePort_ibuf hw s size data strobes).trans (if_pos ⟨hal, hin⟩))
    rw [stored] at served
    exact ⟨_, served, rfl, read⟩
  · rw [writePort_ibuf hw, if_neg (by omega)]

/-- Settles O50: the gathered lanes are the little-endian integer of the bytes. -/
theorem ibufReadReturnsItsBytes : Obligations.IbufReadReturnsItsBytes := by
  intro s off size hoff
  obtain ⟨hw, -⟩ := windowOf_ibuf hoff
  refine ⟨fun hal hin => ⟨gather (fun i => ibufByte s (off + i)) size.bytes, ?_, gather_toNat _ _ size.bytes_le⟩,
    fun hbad => serve_read_none ?_⟩
  · rw [serve_read_some ((readPort_ibuf hw s size).trans (if_pos ⟨hal, hin⟩))]
    rfl
  · rw [readPort_ibuf hw, if_neg (by omega)]

/-- Below OUT_LEN a read of OBUF returns the emitted index (R54). -/
theorem obufByte_emitted {s : State} {j : Nat} {b : Byte} (hj : j < s.outLen.toNat) (hb : Memory.read s.obuf j = some b) :
    obufByte s j = b := by
  rw [obufByte, if_pos hj, hb]
  rfl

/-- Settles O51: no write has a meaning in OBUF, and lane `i` of a read is the byte at `off + i`. -/
theorem obufIsReadOnly : Obligations.ObufIsReadOnly := by
  intro s off size hoff
  obtain ⟨hw, -⟩ := windowOf_obuf hoff
  refine ⟨fun data strobes => serve_write_none (writePort_obuf hw s size data strobes), fun hal hin => ?_,
    fun hbad => serve_read_none ?_⟩
  · refine ⟨gather (fun i => obufByte s (off + i)) size.bytes, ?_, fun i b hi hout hb => ?_⟩
    · rw [serve_read_some ((readPort_obuf hw s size).trans (if_pos ⟨hal, hin⟩))]
      rfl
    · rw [gather_lane _ size.bytes_le hi]
      exact obufByte_emitted hout hb
  · rw [readPort_obuf hw, if_neg (by omega)]

/-! ### The holes of the address map -/

/-- An address in one of the holes of R47 is in no window, or beyond the capacity that cuts a buffer window short. -/
theorem windowOf_hole {addr : Word} {ibufCap obufCap : Nat}
    (h : 0x40 ≤ addr.toNat ∧ addr.toNat < 0x01000000 ∨ 0x01000000 + ibufCap ≤ addr.toNat ∧ addr.toNat < 0x02000000 ∨
      0x02000000 + obufCap ≤ addr.toNat) :
    windowOf addr = .unmapped ∨ (∃ off, windowOf addr = .ibuf off ∧ ibufCap ≤ off) ∨
      ∃ off, windowOf addr = .obuf off ∧ obufCap ≤ off := by
  unfold windowOf
  dsimp only
  split_ifs
  · omega
  · exact .inl rfl
  · exact .inr (.inl ⟨_, rfl, by omega⟩)
  · exact .inr (.inr ⟨_, rfl, by omega⟩)
  · exact .inl rfl

/-- Settles O52: an access covers at least one byte, so one that starts beyond a capacity is refused. -/
theorem unmappedAccessesAreRefused : Obligations.UnmappedAccessesAreRefused := by
  intro s addr size v strobes _ hole
  have hpos : 0 < size.bytes := by cases size <;> decide
  refine serve_refused ?_ v strobes
  obtain hw | ⟨off, hw, hoff⟩ | ⟨off, hw, hoff⟩ := windowOf_hole hole
  · simp only [readPort, hw]
  · rw [readPort_ibuf hw, if_neg (by omega)]
  · rw [readPort_obuf hw, if_neg (by omega)]

/-! ### A word written, its bytes read -/

/-- The word's bytes stand on their own lanes, and all four are strobed (R50). -/
theorem memWrite_word {addr : Word} (h : addr.toNat % 4 = 0) (v : Word) :
    memWrite addr .word v = .write addr .word v 15#4 := by
  simp [memWrite, lanesOf, h, Size.bytes]

/-- An 8-bit read of IBUF is never misaligned and returns the byte at its address (R50, R53). -/
theorem serve_read_ibuf_byte {s : State} {addr : Word} {off : Nat} (hw : windowOf addr = .ibuf off)
    (hin : off < s.ibufCap.toNat) :
    (serve (.read addr .byte) s).env.response = some ⟨false, (ibufByte s off).setWidth 32⟩ := by
  rw [serve_read_some ((readPort_ibuf hw s .byte).trans (if_pos ⟨Nat.mod_one off, hin⟩))]
  simp [gather, Size.bytes]

/-- Settles O53: the write stores byte `i` of the word at its lane, and an 8-bit read returns the byte at its address. -/
theorem mixedWidthViewsAgree : Obligations.MixedWidthViewsAgree := by
  intro s k v i hcap hcap' hi
  have hk : 4 * k < 2 ^ 24 := by omega
  have hlane : (ibufAddr (4 * k)).toNat % 4 = 0 := (windowOf_ibuf_mod (windowOf_ibuf hk).1).trans (Nat.mul_mod_right 4 k)
  have hmod : (4 * k + i) % 4 = i := by omega
  have strobed : (15#4).getLsbD i = true := by interval_cases i <;> rfl
  obtain ⟨t, served, -, stored⟩ :=
    (ibufWriteStoresTheStrobedBytes s (4 * k) .word v 15#4 hk).1 (Nat.mul_mod_right 4 k) hcap
  have cap : t.ibufCap = s.ibufCap := served ▸ (serve_capacities _ s).1
  have byte : ibufByte t (4 * k + i) = v.extractLsb' (8 * i) 8 := by
    rw [ibufByte, stored, hmod, if_pos ⟨Nat.le_add_right .., Nat.add_lt_add_left hi _, strobed⟩]
    rfl
  rw [memWrite_word hlane, ibufAddr, ibufAddr, served,
    serve_read_ibuf_byte (windowOf_ibuf (by omega)).1 (by rw [cap]; omega), byte]

/-! ### What the block does next -/

/-- With a command running the block serves the port as R57 says, unless reset is asserted or about to change (R124). -/
theorem nextAction_running {s : State} {w : Word} (hrun : s.running = some w) (hreset : s.env.resetIn = false)
    (hin : ∀ b rest, s.env.inputs ≠ .reset b :: rest) : nextAction s = whileBusy w s.env.inputs s := by
  unfold nextAction
  split
  · exact absurd ‹_› (hin _ _)
  · simp only [hreset, hrun, Bool.false_eq_true, if_false]

/-- With none running it serves the accesses in order, under the same conditions. -/
theorem nextAction_idle {s : State} (hrun : s.running = none) (hreset : s.env.resetIn = false)
    (hin : ∀ b rest, s.env.inputs ≠ .reset b :: rest) : nextAction s = .move (whileIdle s.env.inputs s) := by
  unfold nextAction
  split
  · exact absurd ‹_› (hin _ _)
  · simp only [hreset, hrun, Bool.false_eq_true, if_false]

theorem step_run {s : State} {w : Word} (h : nextAction s = .run w) : step s = runWord w s := by
  simp only [step, h]

theorem step_move {s t : State} (h : nextAction s = .move t) : step s = .next t := by
  simp only [step, h]

/-- Settles O5: nothing of what the port could do first is there, so the command runs. -/
theorem stepRunsTheDecodedCommand : Obligations.StepRunsTheDecodedCommand := by
  intro s w hrun ⟨hreset, hpoll, hin⟩
  have noReset : ∀ b rest, s.env.inputs ≠ .reset b :: rest := by
    obtain h | ⟨rest, h⟩ := hin <;> simp [h]
  have noAccess : ∀ a rest, s.env.inputs ≠ .access a :: rest := by
    obtain h | ⟨rest, h⟩ := hin <;> simp [h]
  have run : step s = runWord w s := by
    refine step_run ?_
    rw [nextAction_running hrun hreset noReset]
    obtain ⟨others, h, -⟩ | ⟨a, rest, -, h, -⟩ | ⟨-, -, e⟩ := whileBusy_cases w s.env.inputs s
    · rw [takeStatusRead_none.2 hpoll] at h
      cases h
    · exact absurd h (noAccess a rest)
    · exact e
  refine ⟨run, fun i hi => run.trans ?_⟩
  rw [runWord, hi]
  rfl

/-- A STATUS read that waits is served first, whatever arrives (R57). -/
theorem whileBusy_waiting {w : Word} {inputs : List Input} {s : State} {others : List Access}
    (h : takeStatusRead s.env.stalled = some others) : whileBusy w inputs s = .move (pollStatus (setStalled others s)) := by
  simp only [whileBusy, h]

/-- With none waiting, an access that arrives is served if it is a STATUS read, and stalls otherwise (R57). -/
theorem whileBusy_arriving {w : Word} {s : State} (a : Access) (rest : List Input)
    (h : takeStatusRead s.env.stalled = none) :
    whileBusy w (.access a :: rest) s =
      if isStatusRead a then .move (pollStatus (setInputs rest s)) else .move (stall a (setInputs rest s)) := by
  simp only [whileBusy, h]

/-- Settles O7: a poll that waits, a poll that arrives, an access that stalls. -/
theorem busyServesStatusReadsAndStallsTheRest : Obligations.BusyServesStatusReadsAndStallsTheRest := by
  intro s w hrun hreset
  refine ⟨fun before after hst hfirst hin => ⟨Config.statusBits s.env.draws, step_move ?_⟩, fun a rest hnone hin => ?_⟩
  · rw [nextAction_running hrun hreset hin, whileBusy_waiting (hst ▸ takeStatusRead_first hfirst)]
    rfl
  · have next := nextAction_running hrun hreset (by simp [hin])
    rw [hin, whileBusy_arriving a rest (takeStatusRead_none.2 hnone)] at next
    constructor
    · rintro rfl
      exact ⟨_, step_move next⟩
    · intro ha
      rw [if_neg (mt (isStatusRead_iff a).1 ha)] at next
      exact step_move next

/-- Settles O8: the block serves the first stalled access, and one that arrives only when none is stalled. -/
theorem stalledAccessesAreServedInArrivalOrder : Obligations.StalledAccessesAreServedInArrivalOrder := by
  intro s hrun hreset hin
  have next := step_move (nextAction_idle hrun hreset hin)
  constructor
  · intro a more hst
    simp only [whileIdle, hst] at next
    exact next
  · intro a rest hst hacc
    simp only [whileIdle, hst, hacc] at next
    exact next

end Sys2Proof.Machine
end

section
/-! The command words: OP, ARG and RSV fill the word (R64), and the decoder and the encoder read the opcode map of R66 the same
way. So each undoes the other, the words that are no command are those of R67, and running one of them, or a command with its
ARG out of range, raises an error and changes STATUS only. -/
namespace Sys2Proof

/-! ### The fields of a word -/

/-- RSV, ARG and OP fill the word (R64). -/
theorem word_eq_fields (w : Word) : wordRsv w ++ wordArg w ++ wordOp w = w := by
  have low : wordArg w ++ wordOp w = w.extractLsb' 0 16 := BitVec.extractLsb'_append_extractLsb'_eq_extractLsb' rfl
  have all : wordRsv w ++ w.extractLsb' 0 16 = w.extractLsb' 0 32 := BitVec.extractLsb'_append_extractLsb'_eq_extractLsb' rfl
  rw [BitVec.append_assoc, low]
  exact all.trans BitVec.extractLsb'_eq_self

/-- The family of encodings, for every command. -/
theorem oneWord (i : Instr) : Laws.OneWord.Statement i := by
  cases i with
  | nop => exact Laws.OneWord.nop
  | brRewind => exact Laws.OneWord.brRewind
  | brReadbit => exact Laws.OneWord.brReadbit
  | brReadbits n => exact Laws.OneWord.brReadbits n
  | lzwInit m => exact Laws.OneWord.lzwInit m
  | lzwStep => exact Laws.OneWord.lzwStep
  | lzwRun => exact Laws.OneWord.lzwRun
  | ilRow => exact Laws.OneWord.ilRow
  | ilElem => exact Laws.OneWord.ilElem
  | clrErr => exact Laws.OneWord.clrErr

/-! ### The opcode map, read both ways (R66) -/

/-- The decoder's map gives back every command from its OP and ARG. -/
theorem decodeOp_opcode_argument (i : Instr) : decodeOp (opcode i) (argument i) = .ok i := by
  cases i <;> rfl

theorem withoutArg_ok_iff {arg : BitVec 8} {i j : Instr} : withoutArg arg j = .ok i ↔ arg = 0#8 ∧ j = i := by
  unfold withoutArg
  split <;> simp_all

theorem withoutArg_error_iff {arg : BitVec 8} {i : Instr} : (∃ r, withoutArg arg i = .error r) ↔ arg ≠ 0#8 := by
  unfold withoutArg
  split <;> simp_all

/-- What the decoder's map reads as a command has that command's OP and ARG. -/
theorem opcode_argument_of_decodeOp {op arg : BitVec 8} {i : Instr} :
    decodeOp op arg = .ok i → opcode i = op ∧ argument i = arg := by
  unfold decodeOp
  split_ifs <;> simp only [withoutArg_ok_iff, Except.ok.injEq, and_imp, false_imp_iff]
  all_goals
    intros
    subst_vars
    exact ⟨rfl, rfl⟩

/-- The words of RSV 0 that are no command: the second and third case of R67. -/
theorem decodeOp_error_iff (op arg : BitVec 8) : (∃ r, decodeOp op arg = .error r) ↔
    op ∉ [0x00#8, 0x01#8, 0x02#8, 0x03#8, 0x10#8, 0x11#8, 0x12#8, 0x20#8, 0x21#8, 0x30#8] ∨
    arg ≠ 0#8 ∧ op ∈ [0x00#8, 0x01#8, 0x02#8, 0x11#8, 0x12#8, 0x20#8, 0x21#8, 0x30#8] := by
  unfold decodeOp
  split_ifs <;> simp_all [withoutArg_error_iff]

/-! ### Decoding and encoding -/

/-- Settles O1: the fields of the encoding are the command's OP and ARG, with RSV 0. -/
theorem encodedCommandDecodesToItself : Obligations.EncodedCommandDecodesToItself := by
  intro i
  obtain ⟨rsv, op, arg, -⟩ := oneWord i
  rw [decode, if_pos rsv, op, arg, decodeOp_opcode_argument]

theorem decode_ok {w : Word} {i : Instr} (h : decode w = .ok i) : wordRsv w = 0#16 ∧ decodeOp (wordOp w) (wordArg w) = .ok i := by
  unfold decode at h
  split at h
  · exact ⟨‹_›, h⟩
  · cases h

/-- Settles O2: the word has RSV 0 and the OP and ARG of the command, and its fields fill it. -/
theorem decodedWordIsTheEncodingOfItsCommand : Obligations.DecodedWordIsTheEncodingOfItsCommand := by
  intro w i h
  obtain ⟨rsv, hop⟩ := decode_ok h
  obtain ⟨op, arg⟩ := opcode_argument_of_decodeOp hop
  rw [encode, op, arg, ← rsv, word_eq_fields]

/-- Settles O3: the words are read off the opcode map. -/
theorem wordsOfTheOpcodeMapDecode : Obligations.WordsOfTheOpcodeMapDecode := by
  unfold Obligations.WordsOfTheOpcodeMapDecode
  decide

/-- A word is no command when its RSV is not 0, or the opcode map does not list its OP and ARG (R67). -/
theorem decode_error_iff (w : Word) :
    (∃ r, decode w = .error r) ↔ wordRsv w ≠ 0#16 ∨ ∃ r, decodeOp (wordOp w) (wordArg w) = .error r := by
  unfold decode
  split <;> simp_all

end Sys2Proof

namespace Sys2Proof.Machine

/-! ### Running a word (R68) -/

theorem runWord_of_decode_error {w : Word} {r : Reject} (h : decode w = .error r) (s : State) :
    runWord w s = .next (illegalCommand (wordOp w) (endCommand s)) := by
  simp only [runWord, h]

/-- The word of a command runs that command. -/
theorem runWord_encode (i : Instr) (s : State) : runWord (encode i) s = exec i (endCommand s) := by
  simp only [runWord, encodedCommandDecodesToItself i]

/-- ARG is zero-extended (R65). -/
@[simp] theorem argValue_eq_toNat (arg : BitVec 8) : argValue arg = arg.toNat :=
  BitVec.toNat_setWidth_of_le (by decide)

/-- BR_READBITS with more than 32 bits is refused before it reads (R68, R77). -/
theorem exec_brReadbits_badParameter {n : BitVec 8} {s : State} (err : s.err = false) (h : 32 < n.toNat) :
    exec (.brReadbits n) s = .next (s.withError .badParameter) := by
  rw [exec, execBrReadbits, unlessErr_clear err, argValue_eq_toNat, if_pos h, raise_command err]
  rfl

/-- LZW_INIT with a code size outside 1 to 8 is refused before it starts a decode (R68, R81). -/
theorem exec_lzwInit_badParameter {m : BitVec 8} {s : State} (err : s.err = false) (h : m.toNat = 0 ∨ 8 < m.toNat) :
    exec (.lzwInit m) s = .next (s.withError .badParameter) := by
  rw [exec, execLzwInit, unlessErr_clear err, argValue_eq_toNat, if_pos h, raise_command err]
  rfl

/-- Settles O4: the illegal words case by case along the decoder, then the error each refused word or ARG raises. -/
theorem illegalWordsRaiseIllegalCommand : Obligations.IllegalWordsRaiseIllegalCommand := by
  refine ⟨fun w => ?_, fun w s err ⟨r, hr⟩ => ?_, fun n s err h => ?_, fun m s err h => ?_⟩
  · rw [decode_error_iff, decodeOp_error_iff]
  · exact (runWord_of_decode_error hr s).trans (congrArg _ (illegalCommand_clear err))
  · rw [runWord_encode]
    exact exec_brReadbits_badParameter err h
  · rw [runWord_encode]
    exact exec_lzwInit_badParameter err h

end Sys2Proof.Machine
end

section
/-! The bit reader: a read with the bits there puts the field at the cursor in RESULT and moves the cursor past it, one without
raises OUT_OF_DATA (R73 to R77). The field of two widths is made of the fields of each (R78). -/
namespace Sys2Proof.Machine

/-! ### Reading to RESULT -/

theorem readToResult_of_hasBits {n : Nat} {s : State} (h : s.hasBits n) :
    readToResult n s = setResult (field s s.brPos.toNat n) (setCursor (s.brPos.toNat + n) s) := by
  rw [readToResult, bitRead_some h]

theorem readToResult_of_not_hasBits {n : Nat} {s : State} (err : s.err = false) (h : ¬ s.hasBits n) :
    readToResult n s = s.withError .outOfData := by
  rw [readToResult, bitRead_none h]
  exact raise_command err

theorem exec_brReadbit {s : State} (err : s.err = false) : exec .brReadbit s = .next (readToResult 1 s) := by
  rw [exec, execBrReadbit, unlessErr_clear err]

/-- BR_READBITS with at most 32 bits reads them (R77); with more, `exec_brReadbits_badParameter`. -/
theorem exec_brReadbits {n : BitVec 8} {s : State} (err : s.err = false) (h : n.toNat ≤ 32) :
    exec (.brReadbits n) s = .next (readToResult n.toNat s) := by
  rw [exec, execBrReadbits, unlessErr_clear err, argValue_eq_toNat, if_neg (by omega)]

/-! ### Two reads in a row -/

theorem State.hasBits.of_le {m n : Nat} {s : State} (h : s.hasBits n) (hmn : m ≤ n) : s.hasBits m :=
  (Nat.add_le_add_left hmn _).trans h

/-- A read inside the stream moves the cursor without wrapping it (R29): a stream has less than `2 ^ 28` bits. -/
theorem cursor_add_toNat {n : Nat} {s : State} (h : s.hasBits n) :
    (BitVec.ofNat 28 (s.brPos.toNat + n)).toNat = s.brPos.toNat + n := by
  have bits : s.brPos.toNat + n ≤ 8 * s.bufLen.toNat := h
  have len : s.bufLen.toNat < 2 ^ 25 := s.bufLen.isLt
  exact Nat.mod_eq_of_lt (by omega)

/-- A second read goes on at the bit where the first one stopped (R78). -/
theorem readToResult_readToResult {a b : Nat} {s : State} (h : s.hasBits (a + b)) :
    readToResult b (readToResult a s) =
      setResult (field s (s.brPos.toNat + a) b) (setCursor (s.brPos.toNat + a + b) s) := by
  have first : s.hasBits a := h.of_le (Nat.le_add_right a b)
  have cursor : (readToResult a s).brPos.toNat = s.brPos.toNat + a := by
    rw [readToResult_of_hasBits first]
    exact cursor_add_toNat first
  have second : (readToResult a s).hasBits b := by
    rw [State.hasBits, cursor, readToResult_of_hasBits first, Nat.add_assoc]
    exact h
  rw [readToResult_of_hasBits second, cursor, readToResult_of_hasBits first,
    field_congr (t := setResult _ (setCursor _ s)) (s := s) rfl rfl]
  rfl

/-! ### The field -/

theorem field_one (s : State) (p : Nat) : field s p 1 = if bitAt s p then 1#32 else 0#32 := by
  rw [field, field, Nat.add_zero]
  cases bitAt s p <;> rfl

/-- A field inside the stream as the word of its value (R49, R74). -/
theorem field_eq_ofNat {s : State} {n : Nat} (h32 : n ≤ 32) (h : s.hasBits n) :
    field s s.brPos.toNat n = BitVec.ofNat 32 (streamInteger s.stream / 2 ^ s.brPos.toNat % 2 ^ n) := by
  rw [← field_toNat s h32 h, BitVec.ofNat_toNat, BitVec.setWidth_eq]

/-- Two adjacent fields make the field of both widths (R78). -/
theorem field_add_toNat (s : State) {p a b : Nat} (h32 : a + b ≤ 32) (h : p + (a + b) ≤ 8 * s.bufLen.toNat) :
    (field s p a).toNat + 2 ^ a * (field s (p + a) b).toNat = (field s p (a + b)).toNat := by
  rw [field_toNat s (by omega) (by omega), field_toNat s (by omega) (by omega), field_toNat s h32 h,
    Nat.pow_add 2 a, Nat.mod_mul, Nat.pow_add 2 p, Nat.div_div_eq_div_mul]

/-! ### The commands -/

/-- Settles O13: with ERR = 0 the command runs, and all it does is to set the cursor. -/
theorem brRewindSetsTheCursorToTheStart : Obligations.BrRewindSetsTheCursorToTheStart := by
  intro s err
  rw [exec, execBrRewind, unlessErr_clear err]
  rfl

/-- Settles O14: the read is of a field of one bit. -/
theorem brReadbitReturnsTheNextBit : Obligations.BrReadbitReturnsTheNextBit := by
  intro s err
  refine ⟨fun bits => ?_, fun past => ?_⟩
  · rw [exec_brReadbit err, readToResult_of_hasBits bits, field_one]
    rfl
  · rw [exec_brReadbit err, readToResult_of_not_hasBits err past]

/-- Settles O15: a legal width with the bits there, a legal width without, an illegal width. -/
theorem brReadbitsReturnsTheStreamField : Obligations.BrReadbitsReturnsTheStreamField := by
  intro s n err
  refine ⟨fun legal bits => ?_, fun legal past => ?_, exec_brReadbits_badParameter err⟩
  · rw [exec_brReadbits err legal, readToResult_of_hasBits bits, field_eq_ofNat legal bits]
    rfl
  · rw [exec_brReadbits err legal, readToResult_of_not_hasBits err past]

/-- Settles O16: the second read goes on where the first one stopped, and the two fields make the field of the one read. -/
theorem consecutiveReadsJoin : Obligations.ConsecutiveReadsJoin := by
  intro s a b err h32 bits
  have sum : (a + b).toNat = a.toNat + b.toNat := BitVec.toNat_add_of_lt (by omega)
  have first : s.hasBits a.toNat := bits.of_le (Nat.le_add_right _ _)
  have err' : (readToResult a.toNat s).err = false := by
    rw [readToResult_of_hasBits first]
    exact err
  refine ⟨_, _, _, exec_brReadbits err (by omega), exec_brReadbits err' (by omega), exec_brReadbits err (by omega), ?_, ?_⟩
  · rw [readToResult_readToResult bits, sum, readToResult_of_hasBits bits, Nat.add_assoc]
    rfl
  · rw [readToResult_readToResult bits, sum, readToResult_of_hasBits first, readToResult_of_hasBits bits]
    exact field_add_toNat s h32 bits

end Sys2Proof.Machine
end

section
/-! One command of the LZW unit as its operands decide it: LZW_INIT (R81), and LZW_STEP on the code at the cursor (R84 to R93). -/
namespace Sys2Proof.Machine

/-! ### LZW_INIT (R81) -/

theorem exec_lzwInit {m : BitVec 8} {s : State} (err : s.err = false) (pos : 1 ≤ m.toNat) (le : m.toNat ≤ 8) :
    exec (.lzwInit m) s = .next (startDecode m.toNat s) := by
  rw [exec, execLzwInit, unlessErr_clear err, argValue_eq_toNat, if_neg (by omega)]

theorem two_pow_codeSize_le {m : Nat} (le : m ≤ 8) : 2 ^ m ≤ 256 := Nat.pow_le_pow_right (by decide) le (n := 2)

/-- CLEAR_CODE holds `2 ^ m` without wrapping: it has nine bits (R30). -/
theorem startDecode_clearCode {m : Nat} (le : m ≤ 8) (s : State) : (startDecode m s).clearCode.toNat = 2 ^ m :=
  Nat.mod_eq_of_lt ((two_pow_codeSize_le le).trans_lt (by decide))

theorem startDecode_dictSize {m : Nat} (le : m ≤ 8) (s : State) :
    (startDecode m s).dictSize = BitVec.ofNat 32 (2 ^ m + 2) := by
  have clear : (BitVec.ofNat 9 (2 ^ m)).toNat = 2 ^ m := startDecode_clearCode le s
  change (BitVec.ofNat 9 (2 ^ m)).setWidth 32 + 2#32 = _
  rw [← BitVec.ofNat_toNat, clear, ← BitVec.ofNat_add]

theorem startDecode_codeWidth (m : Nat) (s : State) : (startDecode m s).codeWidth = BitVec.ofNat 4 (m + 1) :=
  (BitVec.ofNat_add m 1).symm

/-- LZW_INIT leaves exactly the literal singletons in DICT (R80). -/
theorem dictEntry_startDecode {m : Nat} (le : m ≤ 8) (s : State) (c : Nat) :
    dictEntry (startDecode m s) c = if c < 2 ^ m then some (Expansion.literal c) else none := by
  rw [← startDecode_clearCode le s]
  exact sparseGet_literals _ c

/-- Settles O17: a legal code size starts a decode, any other is refused. -/
theorem lzwInitStartsADecode : Obligations.LzwInitStartsADecode := by
  intro s m err
  refine ⟨fun pos le => ⟨_, exec_lzwInit err pos le, ?_, dictEntry_startDecode le s⟩, exec_lzwInit_badParameter err⟩
  rw [← startDecode_dictSize le s, ← startDecode_codeWidth m.toNat s]
  rfl

/-! ### The phase test (R84, R94) -/

theorem exec_lzwStep {s : State} (err : s.err = false) (decoding : s.phase.decoding = true) :
    exec .lzwStep s = stepBody s := by
  rw [exec, execLzwStep, unlessErr_clear err, whileDecoding_true decoding]

theorem exec_lzwRun {s : State} (err : s.err = false) (decoding : s.phase.decoding = true) :
    exec .lzwRun s = runLoop (runBound s) s := by
  rw [exec, execLzwRun, unlessErr_clear err, whileDecoding_true decoding]

/-- Settles O18: with ERR = 0 both commands come to the phase test, which refuses them. -/
theorem stepsOutsideADecodeRaiseSequenceError : Obligations.StepsOutsideADecodeRaiseSequenceError := by
  intro s i err hi outside
  have test : s.phase.decoding = false := by
    rw [Bool.eq_false_iff, Ne, decoding_iff]
    simpa using outside
  have refused : raise .sequenceError .command s = s.withError .sequenceError := raise_command err
  obtain rfl | rfl := hi
  · rw [exec, execLzwStep, unlessErr_clear err, whileDecoding_false test, refused]
  · rw [exec, execLzwRun, unlessErr_clear err, whileDecoding_false test, refused]

/-- With too few bits left a step raises OUT_OF_DATA and consumes nothing (R84). -/
theorem stepBody_short {s : State} (err : s.err = false) (short : ¬ s.hasBits s.codeWidth.toNat) :
    stepBody s = .next (s.withDecodeError .outOfData) := by
  rw [stepBody_outOfData short, raise_decodeStep err]
  rfl

/-- Settles O19: the phase test passes, and the step's body finds too few bits. -/
theorem lzwStepOutOfData : Obligations.LzwStepOutOfData := by
  intro s err phase short
  rw [exec_lzwStep err ((decoding_iff _).2 phase), stepBody_short err short]

/-! ### Reading the code (R84) -/

theorem State.Inv.lzwActive {s : State} (h : s.Inv) (decoding : s.phase.decoding = true) : s.LzwActive :=
  h.active fun idle => by rw [idle] at decoding; cases decoding

theorem readyForCode.inv {s : State} {p : Phase} (r : readyForCode s p) : s.Inv := r.1

theorem readyForCode.err {s : State} {p : Phase} (r : readyForCode s p) : s.err = false := r.2.1

theorem readyForCode.phase {s : State} {p : Phase} (r : readyForCode s p) : s.phase = p := r.2.2.1

theorem readyForCode.bits {s : State} {p : Phase} (r : readyForCode s p) : s.hasBits s.codeWidth.toNat := r.2.2.2

theorem readyForCode.lzwActive {s : State} {p : Phase} (r : readyForCode s p) (decoding : p.decoding = true) :
    s.LzwActive :=
  r.inv.lzwActive (r.phase ▸ decoding)

theorem nextCode_lt (s : State) : s.nextCode < 2 ^ s.codeWidth.toNat := Nat.mod_lt _ (Nat.two_pow_pos _)

/-- A code has at most twelve bits (R45 item 2). -/
theorem State.LzwActive.nextCode_lt {s : State} (a : s.LzwActive) : s.nextCode < 4096 :=
  (Machine.nextCode_lt s).trans_le (Nat.pow_le_pow_right (by decide) a.width_le (n := 2))

/-- LZW_CODE holds the code without wrapping. -/
theorem State.LzwActive.code_toNat {s : State} (a : s.LzwActive) : (BitVec.ofNat 12 s.nextCode).toNat = s.nextCode :=
  Nat.mod_eq_of_lt a.nextCode_lt

theorem State.LzwActive.readCode_eq {s : State} (a : s.LzwActive) (bits : s.hasBits s.codeWidth.toNat) :
    readCode s = BitVec.ofNat 12 s.nextCode :=
  BitVec.eq_of_toNat_eq ((readCode_toNat a.width_le bits).trans a.code_toNat.symm)

theorem State.LzwActive.afterRead_eq {s : State} (a : s.LzwActive) (bits : s.hasBits s.codeWidth.toNat) :
    afterRead s = codeRead s := by
  rw [afterRead, a.readCode_eq bits]
  rfl

theorem exec_lzwStep_literal {s : State} (r : readyForCode s .literal) :
    exec .lzwStep s = .next (literalCode (BitVec.ofNat 12 s.nextCode) (codeRead s)) := by
  have a := r.lzwActive rfl
  rw [exec_lzwStep r.err (by rw [r.phase]; rfl), stepBody_literal r.bits r.phase, a.readCode_eq r.bits,
    a.afterRead_eq r.bits]

theorem exec_lzwStep_normal {s : State} (r : readyForCode s .normal) :
    exec .lzwStep s = normalCode (BitVec.ofNat 12 s.nextCode) (codeRead s) := by
  have a := r.lzwActive rfl
  rw [exec_lzwStep r.err (by rw [r.phase]; rfl), stepBody_normal r.bits r.phase, a.readCode_eq r.bits,
    a.afterRead_eq r.bits]

/-! ### Init, Emit and Register without wrapping (R80, R82, R83) -/

theorem State.LzwActive.dictSize_lt {s : State} (a : s.LzwActive) : s.dictSize.toNat + 1 < 2 ^ 32 := by
  have := a.clear_le
  have := a.dictSize_le
  have := s.outLen.isLt
  omega

/-- Init() after a code has been read leaves the dictionary, its size and the width of R80, whatever PHASE it is given. -/
theorem State.LzwActive.reinitialised_dictInit {s : State} (a : s.LzwActive) (p : Phase) :
    reinitialised s (setPhase p (dictInit (codeRead s))) := by
  refine ⟨?_, ?_, dictEntry_dictInit (codeRead s)⟩
  · have := a.clear_le
    change (s.clearCode.setWidth 32 + 2#32).toNat = _
    rw [BitVec.toNat_add, BitVec.toNat_setWidth, BitVec.toNat_ofNat]
    omega
  · have := a.minCodeSize_le
    change (s.minCodeSize + 1#4).toNat = _
    rw [BitVec.toNat_add, BitVec.toNat_ofNat]
    omega

/-- Register with its three registers as numbers (R83). -/
theorem register_eq_ofNat (e : Expansion) {s : State} (small : s.dictSize.toNat + 1 < 2 ^ 32) :
    register e s = { s with
      dict := (register e s).dict, dictSize := BitVec.ofNat 32 (s.dictSize.toNat + 1)
      codeWidth := if s.dictSize.toNat + 1 = 2 ^ s.codeWidth.toNat ∧ s.codeWidth.toNat < 12
        then BitVec.ofNat 4 (s.codeWidth.toNat + 1) else s.codeWidth } := by
  have size : s.dictSize + 1#32 = BitVec.ofNat 32 (s.dictSize.toNat + 1) := by
    rw [BitVec.ofNat_add, BitVec.ofNat_toNat, BitVec.setWidth_eq]
  have width : s.codeWidth + 1#4 = BitVec.ofNat 4 (s.codeWidth.toNat + 1) := by
    rw [BitVec.ofNat_add, BitVec.ofNat_toNat, BitVec.setWidth_eq]
  have dict : (register e s).dict = (addEntry e s).dict := growWidth_dict _
  have count : (s.dictSize + 1#32).toNat = s.dictSize.toNat + 1 := by
    rw [size]
    exact Nat.mod_eq_of_lt small
  rw [dict, ← width, ← count, ← register_codeWidth e s, count, ← size]
  exact register_eq e s

/-- The state once `xs` has been emitted (R82). -/
def emitted (xs : List Byte) (s : State) : State :=
  { s with
    obuf := Memory.writeAll s.obuf s.outLen.toNat xs
    outLen := BitVec.ofNat 25 (s.outLen.toNat + xs.length) }

theorem emitAndRegister_eq {c : Code} {out entry : Expansion} {s : State}
    (room : s.outLen.toNat + out.indices.length ≤ s.obufCap.toNat) :
    emitAndRegister c out entry s = setLastCode c (register entry (emitted out.indices s)) :=
  emitAndRegister_room room

/-- Emitting one sequence and registering another, after a code has been read and with room in OBUF (R88, R89). -/
theorem State.LzwActive.emittedAndRegistered {s : State} (a : s.LzwActive) {out entry : Expansion}
    (room : s.outLen.toNat + out.indices.length ≤ s.obufCap.toNat) :
    emittedAndRegistered s (emitAndRegister (BitVec.ofNat 12 s.nextCode) out entry (codeRead s)) out.indices
      entry.indices := by
  have reg := register_eq_ofNat entry (s := emitted out.indices (codeRead s)) a.dictSize_lt
  have dict := dictEntry_register entry (emitted out.indices (codeRead s))
  have obuf : (register entry (emitted out.indices (codeRead s))).obuf = (emitted out.indices s).obuf := by
    rw [reg]
    rfl
  rw [emitAndRegister_eq (s := codeRead s) room]
  refine ⟨?_, fun j => ?_, fun c hc => (dict c).trans (if_neg ?_), fun small => ?_⟩
  · generalize register entry (emitted out.indices (codeRead s)) = t at reg
    rw [reg]
    rfl
  · rw [setLastCode_obuf, obuf]
    exact Memory.read_writeAll ..
  · rintro ⟨rfl, small⟩
    exact hc.elim (fun ne => ne rfl) (Nat.not_le_of_lt small)
  · exact congrArg _ ((dict _).trans (if_pos ⟨rfl, small⟩))

/-- With DICT_SIZE at 4096 or beyond a registration stores nothing (R83, R93). -/
theorem register_dict_of_full (e : Expansion) {s : State} (full : 4096 ≤ s.dictSize.toNat) : (register e s).dict = s.dict := by
  rw [register, growWidth_dict, addEntry, if_neg (by omega)]

/-! ### One code in phase LITERAL (R85) -/

theorem raise_codeRead {e : ErrCode} {s : State} (err : s.err = false) :
    raise e .decodeStep (codeRead s) = (codeRead s).withDecodeError e := raise_decodeStep err

theorem setPhase_of_phase {p : Phase} {s : State} (phase : s.phase = p) : setPhase p s = s := by
  rw [← phase]
  rfl

/-- What a literal that is emitted in phase LITERAL leaves (R85): its index at OUT_LEN, nothing registered. -/
def emittedLiteral (s t : State) : Prop :=
  t = { codeRead s with
    lastCode := BitVec.ofNat 12 s.nextCode, phase := .normal, outLen := BitVec.ofNat 25 (s.outLen.toNat + 1), obuf := t.obuf } ∧
  ∀ j, Memory.read t.obuf j = if j = s.outLen.toNat then some (BitVec.ofNat 8 s.nextCode) else Memory.read s.obuf j

theorem State.LzwActive.clear_lt_end {s : State} (a : s.LzwActive) : s.clearCode.toNat < s.endCode.toNat := by
  rw [a.endCode]
  exact Nat.lt_succ_self _

section Literal
variable {s : State} (r : readyForCode s .literal)
include r

theorem lzwStep_literal_clear (code : s.nextCode = s.clearCode.toNat) :
    exec .lzwStep s = .next (setPhase .literal (dictInit (codeRead s))) := by
  have a := r.lzwActive rfl
  rw [exec_lzwStep_literal r, literalCode_clear (s := codeRead s) (a.code_toNat.trans code),
    setPhase_of_phase (s := dictInit (codeRead s)) r.phase]

theorem lzwStep_literal_end (code : s.nextCode = s.endCode.toNat) :
    exec .lzwStep s = .next { codeRead s with phase := .done } := by
  have a := r.lzwActive rfl
  have notClear : s.nextCode ≠ s.clearCode.toNat := code.trans_ne a.clear_lt_end.ne'
  rw [exec_lzwStep_literal r, literalCode_end (s := codeRead s) (a.code_toNat.trans_ne notClear) (a.code_toNat.trans code)]
  rfl

theorem lzwStep_literal_emits (code : s.nextCode < s.clearCode.toNat) (room : s.outLen.toNat + 1 ≤ s.obufCap.toNat) :
    ∃ t, exec .lzwStep s = .next t ∧ emittedLiteral s t := by
  have a := r.lzwActive rfl
  have notEnd : s.nextCode ≠ s.endCode.toNat := (code.trans a.clear_lt_end).ne
  have index : (BitVec.ofNat 12 s.nextCode).setWidth 8 = BitVec.ofNat 8 s.nextCode :=
    BitVec.eq_of_toNat_eq (by simp)
  rw [exec_lzwStep_literal r,
    literalCode_literal (s := codeRead s) (a.code_toNat.trans_ne notEnd) (a.code_toNat.trans_lt code) room, index]
  exact ⟨_, rfl, rfl, fun j => Memory.read_write ..⟩

theorem lzwStep_literal_overflow (code : s.nextCode < s.clearCode.toNat) (full : s.obufCap.toNat < s.outLen.toNat + 1) :
    exec .lzwStep s = .next ((codeRead s).withDecodeError .outputOverflow) := by
  have a := r.lzwActive rfl
  have notEnd : s.nextCode ≠ s.endCode.toNat := (code.trans a.clear_lt_end).ne
  rw [exec_lzwStep_literal r,
    literalCode_overflow (s := codeRead s) (a.code_toNat.trans_ne notEnd) (a.code_toNat.trans_lt code) full,
    raise_codeRead r.err]

theorem lzwStep_literal_corrupt (code : s.endCode.toNat < s.nextCode) :
    exec .lzwStep s = .next ((codeRead s).withDecodeError .corruptStream) := by
  have a := r.lzwActive rfl
  have above : s.clearCode.toNat < s.nextCode := a.clear_lt_end.trans code
  rw [exec_lzwStep_literal r,
    literalCode_corrupt (s := codeRead s) (a.code_toNat.trans_ne code.ne') (above.trans_eq a.code_toNat.symm),
    raise_codeRead r.err]

end Literal

/-- Settles O20: the five cases of a code in phase LITERAL. -/
theorem lzwStepLiteralPosition : Obligations.LzwStepLiteralPosition := by
  intro s r
  exact ⟨fun code => ⟨_, lzwStep_literal_clear r code, (r.lzwActive rfl).reinitialised_dictInit .literal,
      setPhase_of_phase (s := dictInit (codeRead s)) r.phase⟩,
    lzwStep_literal_end r, lzwStep_literal_emits r, lzwStep_literal_overflow r, lzwStep_literal_corrupt r⟩

/-! ### One code in phase NORMAL (R86 to R90) -/

/-- What the next code emits and registers in phase NORMAL: a code in the dictionary its expansion, and LAST_CODE's followed by
its first index (R88); the code about to be defined LAST_CODE's expansion followed by its own first index, twice (R89). -/
inductive Expands (s : State) : Expansion → Expansion → Prop where
  | known {e l : Expansion} (below : s.nextCode < s.dictSize.toNat) (notClear : s.nextCode ≠ s.clearCode.toNat)
      (notEnd : s.nextCode ≠ s.endCode.toNat) (entry : dictEntry s s.nextCode = some e)
      (last : dictEntry s s.lastCode.toNat = some l) : Expands s e (l.append e.first)
  | undefined {l : Expansion} (code : s.nextCode = s.dictSize.toNat) (last : dictEntry s s.lastCode.toNat = some l) :
      Expands s (l.append l.first) (l.append l.first)

/-- The sentinels are below DICT_SIZE (R45 items 1 and 3). -/
theorem State.LzwActive.not_sentinel {s : State} (a : s.LzwActive) {c : Nat} (ge : s.dictSize.toNat ≤ c) :
    c ≠ s.clearCode.toNat ∧ c ≠ s.endCode.toNat := by
  have := a.endCode
  have := a.dictSize_ge
  omega

section Normal
variable {s : State} (r : readyForCode s .normal)
include r

theorem readyForCode.last_entry : ∃ l, dictEntry s s.lastCode.toNat = some l :=
  (r.lzwActive rfl).last_entry r.phase

/-- A code below DICT_SIZE that is no sentinel expands, and so does the code DICT_SIZE (R45 items 5 and 7). -/
theorem readyForCode.expands (le : s.nextCode ≤ s.dictSize.toNat) (notClear : s.nextCode ≠ s.clearCode.toNat)
    (notEnd : s.nextCode ≠ s.endCode.toNat) : ∃ out entry, Expands s out entry := by
  have a := r.lzwActive rfl
  obtain ⟨l, last⟩ := r.last_entry
  obtain below | code := le.lt_or_eq
  · obtain ⟨e, entry, -, -⟩ := a.entry below a.nextCode_lt notClear notEnd
    exact ⟨_, _, .known below notClear notEnd entry last⟩
  · exact ⟨_, _, .undefined code last⟩

theorem lzwStep_normal_end (code : s.nextCode = s.endCode.toNat) :
    exec .lzwStep s = .next { codeRead s with phase := .done } := by
  have a := r.lzwActive rfl
  rw [exec_lzwStep_normal r, normalCode_end (s := codeRead s) (a.code_toNat.trans code)]
  rfl

theorem lzwStep_normal_clear (code : s.nextCode = s.clearCode.toNat) :
    exec .lzwStep s = .next (setPhase .literal (dictInit (codeRead s))) := by
  have a := r.lzwActive rfl
  have notEnd : s.nextCode ≠ s.endCode.toNat := code.trans_ne a.clear_lt_end.ne
  rw [exec_lzwStep_normal r, normalCode_clear (s := codeRead s) (a.code_toNat.trans_ne notEnd) (a.code_toNat.trans code)]

theorem lzwStep_normal_corrupt (code : s.dictSize.toNat < s.nextCode) :
    exec .lzwStep s = .next ((codeRead s).withDecodeError .corruptStream) := by
  have a := r.lzwActive rfl
  obtain ⟨notClear, notEnd⟩ := a.not_sentinel code.le
  rw [exec_lzwStep_normal r, normalCode_corrupt (s := codeRead s) (a.code_toNat.trans_ne notEnd)
    (a.code_toNat.trans_ne notClear) (code.trans_eq a.code_toNat.symm), raise_codeRead r.err]

theorem lzwStep_expands {out entry : Expansion} (x : Expands s out entry) :
    exec .lzwStep s = .next (emitAndRegister (BitVec.ofNat 12 s.nextCode) out entry (codeRead s)) := by
  have a := r.lzwActive rfl
  have toNat := a.code_toNat
  rw [exec_lzwStep_normal r]
  cases x with
  | known below notClear notEnd entry last =>
    exact normalCode_known (s := codeRead s) (toNat.trans_ne notEnd) (toNat.trans_ne notClear) (toNat.trans_lt below)
      (toNat.symm ▸ entry) last
  | undefined code last =>
    obtain ⟨notClear, notEnd⟩ := a.not_sentinel code.ge
    exact normalCode_next (s := codeRead s) (toNat.trans_ne notEnd) (toNat.trans_ne notClear) (toNat.trans code) last

theorem lzwStep_expands_room {out entry : Expansion} (x : Expands s out entry)
    (room : s.outLen.toNat + out.indices.length ≤ s.obufCap.toNat) :
    ∃ t, exec .lzwStep s = .next t ∧ emittedAndRegistered s t out.indices entry.indices :=
  ⟨_, lzwStep_expands r x, (r.lzwActive rfl).emittedAndRegistered room⟩

theorem lzwStep_expands_overflow {out entry : Expansion} (x : Expands s out entry)
    (full : s.obufCap.toNat < s.outLen.toNat + out.indices.length) :
    exec .lzwStep s = .next ((codeRead s).withDecodeError .outputOverflow) := by
  rw [lzwStep_expands r x, emitAndRegister_overflow (s := codeRead s) full, raise_codeRead r.err]

end Normal

/-- Settles O21: the first test of a code in phase NORMAL. -/
theorem lzwStepEndCodeTerminates : Obligations.LzwStepEndCodeTerminates := fun _ => lzwStep_normal_end

/-- Settles O22: Init() after the read, and PHASE. -/
theorem lzwStepClearCodeReinitialises : Obligations.LzwStepClearCodeReinitialises := fun _ r code =>
  ⟨_, lzwStep_normal_clear r code, (r.lzwActive rfl).reinitialised_dictInit .literal, rfl⟩

/-- Settles O23: the invariant gives the entries of the code and of LAST_CODE, so the code expands. -/
theorem lzwStepKnownCode : Obligations.LzwStepKnownCode := by
  intro s r notClear notEnd below
  have a := r.lzwActive rfl
  obtain ⟨e, entry, -, -⟩ := a.entry below a.nextCode_lt notClear notEnd
  obtain ⟨l, last⟩ := r.last_entry
  have x : Expands s e (l.append e.first) := .known below notClear notEnd entry last
  exact ⟨e, l, entry, last, lzwStep_expands_room r x, lzwStep_expands_overflow r x⟩

/-- Settles O24: the code has twelve bits, and LAST_CODE has an entry, so the code expands. -/
theorem lzwStepCodeAboutToBeDefined : Obligations.LzwStepCodeAboutToBeDefined := by
  intro s r code
  have small := (r.lzwActive rfl).nextCode_lt
  obtain ⟨l, last⟩ := r.last_entry
  have x : Expands s (l.append l.first) (l.append l.first) := .undefined code last
  have length : (l.append l.first).indices.length = l.indices.length + 1 := by simp
  refine ⟨by omega, l, last, fun room => lzwStep_expands_room r x ?_, fun full => lzwStep_expands_overflow r x ?_⟩ <;>
    rw [length] <;> assumption

/-- Settles O25: such a code is no sentinel, and nothing is emitted before the error. -/
theorem lzwStepCorruptCode : Obligations.LzwStepCorruptCode := fun _ => lzwStep_normal_corrupt

end Sys2Proof.Machine
end

section
/-! What one LZW_STEP of a decode can do, said once, and what follows for CODE_WIDTH (R91 to R93) and for LZW_RUN (R94, R95). -/
namespace Sys2Proof.Machine

/-- How a step of a decode has changed the state: too few bits, a sentinel, a literal position, an expansion, or a corrupt code
(R84 to R90). -/
inductive StepEffect (s : State) : State → Prop where
  | short (bits : ¬ s.hasBits s.codeWidth.toNat) : StepEffect s (s.withDecodeError .outOfData)
  | ended (bits : s.hasBits s.codeWidth.toNat) (code : s.nextCode = s.endCode.toNat) :
      StepEffect s { codeRead s with phase := .done }
  | cleared (bits : s.hasBits s.codeWidth.toNat) (code : s.nextCode = s.clearCode.toNat) :
      StepEffect s (setPhase .literal (dictInit (codeRead s)))
  | literal (r : readyForCode s .literal) (code : s.nextCode < s.clearCode.toNat)
      (room : s.outLen.toNat + 1 ≤ s.obufCap.toNat) {t : State} (effect : emittedLiteral s t) : StepEffect s t
  | literalOverflow (r : readyForCode s .literal) (code : s.nextCode < s.clearCode.toNat)
      (full : s.obufCap.toNat < s.outLen.toNat + 1) : StepEffect s ((codeRead s).withDecodeError .outputOverflow)
  | literalCorrupt (r : readyForCode s .literal) (code : s.endCode.toNat < s.nextCode) :
      StepEffect s ((codeRead s).withDecodeError .corruptStream)
  | expanded (r : readyForCode s .normal) {out entry : Expansion} (x : Expands s out entry)
      (room : s.outLen.toNat + out.indices.length ≤ s.obufCap.toNat) {t : State}
      (effect : emittedAndRegistered s t out.indices entry.indices) : StepEffect s t
  | overflow (r : readyForCode s .normal) {out entry : Expansion} (x : Expands s out entry)
      (full : s.obufCap.toNat < s.outLen.toNat + out.indices.length) :
      StepEffect s ((codeRead s).withDecodeError .outputOverflow)
  | corrupt (r : readyForCode s .normal) (code : s.dictSize.toNat < s.nextCode) :
      StepEffect s ((codeRead s).withDecodeError .corruptStream)

theorem lzwStep_literal_effect {s : State} (r : readyForCode s .literal) :
    ∃ t, exec .lzwStep s = .next t ∧ StepEffect s t := by
  have sentinels := (r.lzwActive rfl).endCode
  rcases Nat.lt_trichotomy s.nextCode s.clearCode.toNat with code | code | code
  · obtain full | room := Nat.lt_or_ge s.obufCap.toNat (s.outLen.toNat + 1)
    · exact ⟨_, lzwStep_literal_overflow r code full, .literalOverflow r code full⟩
    · obtain ⟨t, step, effect⟩ := lzwStep_literal_emits r code room
      exact ⟨t, step, .literal r code room effect⟩
  · exact ⟨_, lzwStep_literal_clear r code, .cleared r.bits code⟩
  · obtain code | code := (show s.endCode.toNat ≤ s.nextCode by omega).eq_or_lt
    · exact ⟨_, lzwStep_literal_end r code.symm, .ended r.bits code.symm⟩
    · exact ⟨_, lzwStep_literal_corrupt r code, .literalCorrupt r code⟩

theorem lzwStep_normal_effect {s : State} (r : readyForCode s .normal) :
    ∃ t, exec .lzwStep s = .next t ∧ StepEffect s t := by
  by_cases isEnd : s.nextCode = s.endCode.toNat
  · exact ⟨_, lzwStep_normal_end r isEnd, .ended r.bits isEnd⟩
  by_cases isClear : s.nextCode = s.clearCode.toNat
  · exact ⟨_, lzwStep_normal_clear r isClear, .cleared r.bits isClear⟩
  obtain above | le := Nat.lt_or_ge s.dictSize.toNat s.nextCode
  · exact ⟨_, lzwStep_normal_corrupt r above, .corrupt r above⟩
  · obtain ⟨out, entry, x⟩ := r.expands le isClear isEnd
    obtain full | room := Nat.lt_or_ge s.obufCap.toNat (s.outLen.toNat + out.indices.length)
    · exact ⟨_, lzwStep_expands_overflow r x full, .overflow r x full⟩
    · obtain ⟨t, step, effect⟩ := lzwStep_expands_room r x room
      exact ⟨t, step, .expanded r x room effect⟩

/-- A step of a decode completes with one of these effects. -/
theorem lzwStep_effect {s : State} (h : s.Inv) (err : s.err = false) (decoding : s.phase.decoding = true) :
    ∃ t, exec .lzwStep s = .next t ∧ StepEffect s t := by
  by_cases bits : s.hasBits s.codeWidth.toNat
  · obtain phase | phase := (decoding_iff _).1 decoding
    · exact lzwStep_literal_effect ⟨h, err, phase, bits⟩
    · exact lzwStep_normal_effect ⟨h, err, phase, bits⟩
  · rw [exec_lzwStep err decoding, stepBody_short err bits]
    exact ⟨_, rfl, .short bits⟩

/-- A step that goes on with the decode has raised nothing (R110). -/
theorem StepEffect.err {s t : State} (e : StepEffect s t) (decoding : t.phase.decoding = true) : t.err = s.err := by
  cases e with
  | short | ended | literalOverflow | literalCorrupt | overflow | corrupt => cases decoding
  | cleared => rfl
  | literal _ _ _ effect => exact (congrArg State.err effect.1 :)
  | expanded _ _ _ effect => exact (congrArg State.err effect.1 :)

/-! ### The registers after an expansion (R82, R83) -/

section Expanded
variable {s t : State} {out entry : List Byte} (effect : emittedAndRegistered s t out entry)
include effect

theorem emittedAndRegistered.codeWidth :
    t.codeWidth = if s.dictSize.toNat + 1 = 2 ^ s.codeWidth.toNat ∧ s.codeWidth.toNat < 12
      then BitVec.ofNat 4 (s.codeWidth.toNat + 1) else s.codeWidth :=
  congrArg State.codeWidth effect.1

theorem emittedAndRegistered.dictSize (a : s.LzwActive) : t.dictSize.toNat = s.dictSize.toNat + 1 :=
  (congrArg (·.dictSize.toNat) effect.1).trans (Nat.mod_eq_of_lt a.dictSize_lt)

theorem emittedAndRegistered.outLen (room : s.outLen.toNat + out.length ≤ s.obufCap.toNat) :
    t.outLen.toNat = s.outLen.toNat + out.length :=
  (congrArg (·.outLen.toNat) effect.1).trans (emit_outLen s out room)

theorem emittedAndRegistered.codeWidth_toNat (a : s.LzwActive) :
    t.codeWidth.toNat = if s.dictSize.toNat + 1 = 2 ^ s.codeWidth.toNat ∧ s.codeWidth.toNat < 12
      then s.codeWidth.toNat + 1 else s.codeWidth.toNat := by
  have le := a.width_le
  rw [effect.codeWidth, apply_ite BitVec.toNat, BitVec.toNat_ofNat, Nat.mod_eq_of_lt (by omega)]

end Expanded

/-! ### CODE_WIDTH (R91 to R93) -/

theorem State.Inv.codeWidth_le {s : State} (h : s.Inv) : s.codeWidth.toNat ≤ 12 := by
  by_cases idle : s.phase = .idle
  · rw [(h.idle idle).codeWidth]
    decide
  · exact (h.active idle).width_le

/-- How a step of a decode can change CODE_WIDTH (R91). -/
theorem StepEffect.codeWidth {s t : State} (e : StepEffect s t) (a : s.LzwActive) :
    t.codeWidth = s.codeWidth ∨
      (s.nextCode = s.clearCode.toNat ∧ t.codeWidth.toNat = s.minCodeSize.toNat + 1) ∨
      (t.dictSize.toNat = s.dictSize.toNat + 1 ∧ t.dictSize.toNat = 2 ^ s.codeWidth.toNat ∧ s.codeWidth.toNat < 12 ∧
        t.codeWidth.toNat = s.codeWidth.toNat + 1) := by
  cases e with
  | short | ended | literalOverflow | literalCorrupt | overflow | corrupt => exact .inl rfl
  | cleared _ code =>
    obtain ⟨-, width, -⟩ := a.reinitialised_dictInit .literal
    exact .inr (.inl ⟨code, width⟩)
  | literal _ _ _ effect => exact .inl (congrArg State.codeWidth effect.1 :)
  | expanded _ _ _ effect =>
    have size := effect.dictSize a
    by_cases grows : s.dictSize.toNat + 1 = 2 ^ s.codeWidth.toNat ∧ s.codeWidth.toNat < 12
    · exact .inr (.inr ⟨size, size.trans grows.1, grows.2, (effect.codeWidth_toNat a).trans (if_pos grows)⟩)
    · exact .inl (effect.codeWidth.trans (if_neg grows))

/-- Settles O26: the invariant bounds the width, and a step that changes it is one of a decode. -/
theorem codeWidthChangesOnlyByInitOrGrowth : Obligations.CodeWidthChangesOnlyByInitOrGrowth := by
  intro s t h step
  have c := exec_cases step
  refine ⟨(c.inv h).codeWidth_le, fun changed => ?_⟩
  cases c with
  | dropped => exact absurd rfl changed
  | refused => exact absurd (recordError_codeWidth _ s) changed
  | decode _ _ err decoding =>
    obtain ⟨u, step', e⟩ := lzwStep_effect h err decoding
    cases step.symm.trans step'
    exact (e.codeWidth (h.lzwActive decoding)).resolve_left changed
  | read _ _ _ hi => simp at hi
  | place _ _ _ hi => simp at hi

/-- Settles O27: the code is a literal, so it expands to itself, and DICT_SIZE is past 4 already. -/
theorem minimumCodeSizeOneStaysAtWidthTwo : Obligations.MinimumCodeSizeOneStaysAtWidthTwo := by
  intro s r one
  have a := r.lzwActive rfl
  have size : s.minCodeSize.toNat = 1 := congrArg BitVec.toNat one
  have width : s.codeWidth = 2#4 := BitVec.eq_of_toNat_eq (a.width_one size)
  have clear : s.clearCode = 2#9 := BitVec.eq_of_toNat_eq (by rw [a.clearCode, size]; rfl)
  have sentinel : s.endCode = 3#9 := BitVec.eq_of_toNat_eq (by rw [a.endCode, clear]; rfl)
  have code : s.nextCode < 4 := by
    have := nextCode_lt s
    rwa [width] at this
  refine ⟨width, code, clear, sentinel, fun literal room => ?_⟩
  have big : 4 ≤ s.dictSize.toNat := by
    have := a.dictSize_ge
    rwa [clear] at this
  obtain ⟨l, last⟩ := r.last_entry
  have entry : dictEntry s s.nextCode = some (Expansion.literal s.nextCode) :=
    a.literal_entry _ (by rw [clear]; exact literal)
  obtain ⟨-, -, notClear, notEnd⟩ := a.lt_of_entry entry
  obtain ⟨t, step, effect⟩ := lzwStep_expands_room r (.known (by omega) notClear notEnd entry last) room
  refine ⟨t, step, ?_, effect.dictSize a, effect.outLen room, ?_⟩
  · rw [effect.codeWidth, if_neg, width]
    rw [width]
    intro grown
    have full : s.dictSize.toNat + 1 = 4 := grown.1
    omega
  · obtain ⟨-, reads, -⟩ := effect
    rw [reads, if_pos ⟨Nat.le_refl _, Nat.lt_succ_self _⟩, Nat.sub_self]
    rfl

/-- Once DICT_SIZE has more than eleven bits the width is 12 (R45 item 4). -/
theorem State.LzwActive.codeWidth_of_full {s : State} (a : s.LzwActive) (two : 2 ≤ s.minCodeSize.toNat)
    (full : 4096 ≤ s.dictSize.toNat) : s.codeWidth = 12#4 := by
  refine BitVec.eq_of_toNat_eq ?_
  obtain ⟨-, -, size⟩ := bitLength_bounds (n := s.dictSize.toNat) (by omega)
  have bits : 12 < bitLength s.dictSize.toNat :=
    (Nat.pow_lt_pow_iff_right (a := 2) (by decide)).1 (Nat.lt_of_le_of_lt full size)
  rw [a.width_grown two]
  exact Nat.min_eq_left bits.le

/-- Settles O28: a code of twelve bits is below DICT_SIZE, and a registration there changes DICT_SIZE alone. -/
theorem fullDictionaryStoresNothing : Obligations.FullDictionaryStoresNothing := by
  intro s r two full
  have a := r.lzwActive rfl
  have width := a.codeWidth_of_full two full
  have below : s.nextCode < s.dictSize.toNat := Nat.lt_of_lt_of_le a.nextCode_lt full
  refine ⟨width, below, fun notClear notEnd => ?_⟩
  obtain ⟨e, entry, -, -⟩ := a.entry below a.nextCode_lt notClear notEnd
  obtain ⟨l, last⟩ := r.last_entry
  refine ⟨e, l, entry, last, fun room => ?_⟩
  have effect := a.emittedAndRegistered (entry := l.append e.first) room
  refine ⟨_, lzwStep_expands r (.known below notClear notEnd entry last), effect, ?_, ?_⟩
  · rw [emitAndRegister_eq (s := codeRead s) room]
    exact register_dict_of_full _ full
  · rw [effect.codeWidth, if_neg, width]
    rw [width]
    exact fun grown => absurd grown.2 (by decide)

/-! ### LZW_RUN (R94, R95) -/

theorem stepBody_keeps_inv {s t : State} (h : s.Inv) (decoding : s.phase.decoding = true) (body : stepBody s = .next t) :
    t.Inv := by
  obtain ⟨u, body', inv⟩ := stepBody_inv h decoding
  cases body.symm.trans body'
  exact inv

/-- A run of a decode ends within `n` steps while fewer than `2 * n` bits are left: each step that goes on reads two or more. -/
theorem runLoop_stepsTo {n : Nat} {s : State} (h : s.Inv) (err : s.err = false) (decoding : s.phase.decoding = true)
    (left : 8 * s.bufLen.toNat - s.brPos.toNat < 2 * n) :
    ∃ k t, StepsTo k s t ∧ k ≤ n ∧ runLoop n s = .next t := by
  induction n generalizing s with
  | zero => omega
  | succ n ih =>
    obtain ⟨t, step, e⟩ := lzwStep_effect h err decoding
    have body : stepBody s = .next t := (exec_lzwStep err decoding).symm.trans step
    rw [runLoop_step decoding body]
    cases goesOn : t.phase.decoding
    · exact ⟨1, t, .step 0 s t t decoding step (.stop t goesOn), by omega, runLoop_stop goesOn⟩
    · have fewer : 8 * t.bufLen.toNat - t.brPos.toNat < 2 * n := by
        obtain ⟨same, ⟨cursor, bits⟩ | ⟨-, failed⟩⟩ := stepBody_host body
        · have a := h.lzwActive decoding
          have := a.minCodeSize_pos
          have := a.width_ge
          have room : s.brPos.toNat + s.codeWidth.toNat ≤ 8 * s.bufLen.toNat := bits
          rw [same.bufLen, cursor, cursor_add_toNat bits]
          omega
        · rw [failed] at goesOn
          cases goesOn
      obtain ⟨k, u, steps, le, run⟩ := ih (stepBody_keeps_inv h decoding body) ((e.err goesOn).trans err) goesOn fewer
      exact ⟨k + 1, u, .step k s t u decoding step steps, by omega, run⟩

/-- LZW_RUN is enough LZW_STEPs: at least two of the `8 * BUF_LEN` bits for each (R95). -/
theorem lzwRun_stepsTo {s : State} (h : s.Inv) (err : s.err = false) (decoding : s.phase.decoding = true) :
    ∃ k t, StepsTo k s t ∧ k ≤ runBound s ∧ exec .lzwRun s = .next t := by
  rw [exec_lzwRun err decoding]
  refine runLoop_stepsTo h err decoding ?_
  rw [runBound]
  omega

/-- Settles O29: the run of the loop within R95's bound. -/
theorem lzwRunIsRepeatedLzwStep : Obligations.LzwRunIsRepeatedLzwStep := fun _ h err phase =>
  lzwRun_stepsTo h err ((decoding_iff _).2 phase)

end Sys2Proof.Machine
end

section
/-! A decode is the source's decode loop (R79, R96): the loop of §4.2 and LZW_RUN read the same codes, keep the same
dictionary and append the same indices until one of them ends. -/
namespace Sys2Proof.Machine

/-! ### The source's loop -/

/-- The source's decoder past the code at its position. -/
def SourceState.advance (d : SourceState) : SourceState := { d with position := d.position + d.width }

section SourceCode
variable {m c : Nat} {d : SourceState}

theorem sourceCode_end : sourceCode m (2 ^ m + 1) d = .inr (.output d.output) := if_pos rfl

theorem sourceCode_clear : sourceCode m (2 ^ m) d = .inl (d.clear m) := by
  rw [sourceCode, if_neg (by omega), if_pos rfl]

theorem sourceCode_literal (last : d.last = none) (literal : c < 2 ^ m) :
    sourceCode m c d = .inl { d with output := d.output ++ [BitVec.ofNat 8 c], last := some c } := by
  rw [sourceCode, if_neg (by omega), if_neg (by omega), last]
  exact if_pos literal

theorem sourceCode_literal_corrupt (last : d.last = none) (above : 2 ^ m + 1 < c) :
    sourceCode m c d = .inr .corruptStream := by
  rw [sourceCode, if_neg (by omega), if_neg (by omega), last]
  exact if_neg (by omega)

theorem sourceCode_known {l : Nat} (last : d.last = some l) (notClear : c ≠ 2 ^ m) (notEnd : c ≠ 2 ^ m + 1)
    (below : c < d.dict.length) :
    sourceCode m c d = .inl (d.extend c (sourceEntry d.dict c) (sourceEntry d.dict l ++ (sourceEntry d.dict c).take 1)) := by
  rw [sourceCode, if_neg notEnd, if_neg notClear, last]
  exact if_pos below

theorem sourceCode_undefined {l : Nat} (last : d.last = some l) (notClear : c ≠ 2 ^ m) (notEnd : c ≠ 2 ^ m + 1)
    (code : c = d.dict.length) :
    sourceCode m c d = .inl (d.extend c (sourceEntry d.dict l ++ (sourceEntry d.dict l).take 1)
      (sourceEntry d.dict l ++ (sourceEntry d.dict l).take 1)) := by
  rw [sourceCode, if_neg notEnd, if_neg notClear, last]
  exact (if_neg (by omega)).trans (if_pos code)

theorem sourceCode_corrupt {l : Nat} (last : d.last = some l) (notClear : c ≠ 2 ^ m) (notEnd : c ≠ 2 ^ m + 1)
    (above : d.dict.length < c) : sourceCode m c d = .inr .corruptStream := by
  rw [sourceCode, if_neg notEnd, if_neg notClear, last]
  exact (if_neg (by omega)).trans (if_neg (by omega))

/-- One code takes nothing back from the output. -/
theorem sourceCode_output_length {e : SourceState} (h : sourceCode m c d = .inl e) : d.output.length ≤ e.output.length := by
  unfold sourceCode at h
  split at h
  · cases h
  split at h
  · cases h
    exact Nat.le_refl _
  split at h
  · split at h <;> cases h
    simp
  · split at h
    · cases h
      simp [SourceState.extend]
    · split at h <;> cases h
      simp [SourceState.extend]

/-- Only the End Code makes the source return, and it returns the output so far. -/
theorem sourceCode_output {xs : List Byte} (h : sourceCode m c d = .inr (.output xs)) : xs = d.output := by
  unfold sourceCode at h
  split at h
  · cases h
    rfl
  · repeat' split at h
    all_goals cases h

end SourceCode

/-- What the source returns is at least as long as the output it has already. -/
theorem sourceLoop_output_length {m k : Nat} {buffer xs : List Byte} {d : SourceState}
    (h : sourceLoop m buffer k d = some (.output xs)) : d.output.length ≤ xs.length := by
  induction k generalizing d with
  | zero => cases h
  | succ k ih =>
    unfold sourceLoop at h
    split at h
    · cases h
    · simp only at h
      split at h
      · rename_i code
        exact (sourceCode_output_length code).trans (ih h)
      · rename_i code
        cases h
        rw [sourceCode_output code]

/-! ### The source's dictionary -/

theorem sourceDict_length (m : Nat) : (sourceDict m).length = 2 ^ m + 2 := by simp [sourceDict]

theorem sourceEntry_sourceDict {m c : Nat} (literal : c < 2 ^ m) :
    sourceEntry (sourceDict m) c = (Expansion.literal c).indices := by
  simp [sourceEntry, sourceDict, List.getElem?_append_left, literal]

theorem sourceEntry_append_left {dict : List (Option (List Byte))} {c : Nat} (below : c < dict.length) (entry : List Byte) :
    sourceEntry (dict ++ [some entry]) c = sourceEntry dict c := by
  simp [sourceEntry, List.getElem?_append_left below]

theorem sourceEntry_append_length (dict : List (Option (List Byte))) (entry : List Byte) :
    sourceEntry (dict ++ [some entry]) dict.length = entry := by
  simp [sourceEntry]

/-! ### The accumulated output (R34) -/

/-- Storing `xs` at OUT_LEN appends them to the output. -/
theorem output_append {s t : State} {xs : List Byte} (a : s.LzwActive) (len : t.outLen.toNat = s.outLen.toNat + xs.length)
    (reads : ∀ j, Memory.read t.obuf j =
      if s.outLen.toNat ≤ j ∧ j < s.outLen.toNat + xs.length then xs[j - s.outLen.toNat]? else Memory.read s.obuf j) :
    t.output = s.output ++ xs := by
  rw [State.output, len, List.range_add, List.map_append]
  congr 1
  · refine List.map_congr_left fun j hj => ?_
    have lt := List.mem_range.1 hj
    obtain ⟨b, old, -⟩ := a.output_entry j lt
    rw [obufByte_emitted lt old]
    exact obufByte_emitted (by omega) ((reads j).trans ((if_neg (by omega)).trans old))
  · refine List.ext_getElem (by simp) fun i _ lt => ?_
    simp only [List.getElem_map, List.getElem_range]
    refine obufByte_emitted (by omega) ((reads _).trans ((if_pos (by omega)).trans ?_))
    rw [Nat.add_sub_cancel_left, List.getElem?_eq_getElem lt]

/-! ### The machine follows the source -/

/-- The source's decoder and the block stand before the same code, with the same dictionary and the same output. -/
structure Follows (m : Nat) (d : SourceState) (s : State) : Prop where
  codeSize : s.minCodeSize.toNat = m
  position : d.position = s.brPos.toNat
  width : d.width = s.codeWidth.toNat
  size : d.dict.length = s.dictSize.toNat
  entry : ∀ c e, dictEntry s c = some e → sourceEntry d.dict c = e.indices
  last : d.last = if s.phase = .normal then some s.lastCode.toNat else none
  output : d.output = s.output

/-- LZW_INIT puts the block before the source's first code. -/
theorem startDecode_follows {m : Nat} (le : m ≤ 8) (s : State) :
    Follows m { position := 0, width := m + 1, dict := sourceDict m, last := none, output := [] } (startDecode m s) where
  codeSize := Nat.mod_eq_of_lt (by omega)
  position := rfl
  width := by
    rw [startDecode_codeWidth]
    exact (Nat.mod_eq_of_lt (by omega : m + 1 < 2 ^ 4)).symm
  size := by
    have := two_pow_codeSize_le le
    rw [startDecode_dictSize le, sourceDict_length]
    exact (Nat.mod_eq_of_lt (by omega)).symm
  entry c e h := by
    rw [dictEntry_startDecode le] at h
    split at h <;> cases h
    exact sourceEntry_sourceDict ‹_›
  last := rfl
  output := rfl

section Step
variable {m : Nat} {d : SourceState} {s t : State} (f : Follows m d s)
include f

theorem Follows.last_literal (r : readyForCode s .literal) : d.last = none := by
  rw [f.last, r.phase]
  rfl

theorem Follows.last_normal (r : readyForCode s .normal) : d.last = some s.lastCode.toNat := by
  rw [f.last, r.phase]
  rfl

/-- With too few bits left for the block the source has too few as well. -/
theorem Follows.loop_short (bits : ¬ s.hasBits s.codeWidth.toNat) (k : Nat) :
    sourceLoop m s.stream (k + 1) d = some .outOfData := by
  rw [sourceLoop, stream_length, f.position, f.width]
  exact if_pos (Nat.lt_of_not_le bits)

/-- The source reads the code the block reads. -/
theorem Follows.loop_code (bits : s.hasBits s.codeWidth.toNat) (k : Nat) :
    sourceLoop m s.stream (k + 1) d = (sourceCode m s.nextCode d.advance).elim (sourceLoop m s.stream k) some := by
  rw [sourceLoop, stream_length, SourceState.advance, f.position, f.width, if_neg (Nat.not_lt_of_le bits)]
  change (match sourceCode m s.nextCode _ with | .inl e => _ | .inr r => _) = _
  cases sourceCode m s.nextCode _ <;> rfl

theorem Follows.clearCode (a : s.LzwActive) : s.clearCode.toNat = 2 ^ m := by rw [a.clearCode, f.codeSize]

theorem Follows.endCode (a : s.LzwActive) : s.endCode.toNat = 2 ^ m + 1 := by rw [a.endCode, f.clearCode a]

/-- The source's position past the code is the cursor past it. -/
theorem Follows.advance_position (bits : s.hasBits s.codeWidth.toNat) :
    d.advance.position = (codeRead s).brPos.toNat := by
  change d.position + d.width = (BitVec.ofNat 28 _).toNat
  rw [cursor_add_toNat bits, f.position, f.width]

theorem Follows.cleared (a : s.LzwActive) (bits : s.hasBits s.codeWidth.toNat) :
    Follows m (d.advance.clear m) (setPhase .literal (dictInit (codeRead s))) := by
  obtain ⟨size, width, entries⟩ := a.reinitialised_dictInit .literal
  exact {
    codeSize := f.codeSize
    position := f.advance_position bits
    width := by rw [width, f.codeSize]; rfl
    size := by rw [size, f.clearCode a]; exact sourceDict_length m
    entry := fun c e h => by
      rw [entries, f.clearCode a] at h
      split at h <;> cases h
      exact sourceEntry_sourceDict ‹_›
    last := rfl
    output := f.output }

theorem Follows.literal (r : readyForCode s .literal) (room : s.outLen.toNat + 1 ≤ s.obufCap.toNat)
    (effect : emittedLiteral s t) :
    Follows m { d.advance with output := d.output ++ [BitVec.ofNat 8 s.nextCode], last := some s.nextCode } t := by
  have a := r.lzwActive rfl
  obtain ⟨frame, reads⟩ := effect
  have outLen : t.outLen.toNat = s.outLen.toNat + 1 := by
    rw [frame]
    exact emit_outLen s [BitVec.ofNat 8 s.nextCode] room
  have dict : t.dict = s.dict := by rw [frame]; rfl
  have emitted (j : Nat) : Memory.read t.obuf j =
      if s.outLen.toNat ≤ j ∧ j < s.outLen.toNat + 1 then [BitVec.ofNat 8 s.nextCode][j - s.outLen.toNat]?
      else Memory.read s.obuf j := by
    rw [reads]
    by_cases here : j = s.outLen.toNat
    · rw [if_pos here, if_pos (by omega), here, Nat.sub_self]
      rfl
    · rw [if_neg here, if_neg (by omega)]
  exact {
    codeSize := by rw [frame]; exact f.codeSize
    position := by rw [frame]; exact f.advance_position r.bits
    width := by rw [frame]; exact f.width
    size := by rw [frame]; exact f.size
    entry := fun c e h => f.entry c e (dictEntry_congr dict c ▸ h)
    last := by rw [frame]; exact congrArg some a.code_toNat.symm
    output := by rw [output_append (xs := [_]) a outLen emitted, f.output] }

theorem Follows.expanded (r : readyForCode s .normal) {out entry : List Byte}
    (room : s.outLen.toNat + out.length ≤ s.obufCap.toNat) (effect : emittedAndRegistered s t out entry) :
    Follows m (d.advance.extend s.nextCode out entry) t := by
  have a := r.lzwActive rfl
  have size := effect.dictSize a
  have width := effect.codeWidth_toNat a
  have outLen := effect.outLen room
  obtain ⟨frame, reads, others, registered⟩ := effect
  have phase : t.phase = .normal := by rw [frame]; exact r.phase
  exact {
    codeSize := by rw [frame]; exact f.codeSize
    position := by rw [frame]; exact f.advance_position r.bits
    width := by rw [width, ← f.size, ← f.width]; rfl
    size := by rw [size, ← f.size]; exact List.length_append
    entry := fun c e h => by
      by_cases stored : c = s.dictSize.toNat ∧ s.dictSize.toNat < 4096
      · obtain ⟨rfl, small⟩ := stored
        have new := registered small
        rw [h] at new
        rw [← f.size, ← Option.some.inj new]
        exact sourceEntry_append_length ..
      · rw [others c (by omega)] at h
        rw [← f.entry c e h]
        exact sourceEntry_append_left (f.size ▸ (a.lt_of_entry h).1) entry
    last := by
      rw [phase, if_pos rfl, frame]
      exact congrArg some a.code_toNat.symm
    output := by rw [output_append a outLen reads, ← f.output]; rfl }

/-- The source emits and registers what the block does. -/
theorem Follows.sourceCode_expands (r : readyForCode s .normal) {out entry : Expansion} (x : Expands s out entry) :
    sourceCode m s.nextCode d.advance = .inl (d.advance.extend s.nextCode out.indices entry.indices) := by
  have a := r.lzwActive rfl
  have clear := f.clearCode a
  have sentinel := f.endCode a
  cases x with
  | known below notClear notEnd entry last =>
    rw [sourceCode_known (d := d.advance) (f.last_normal r) (clear ▸ notClear) (sentinel ▸ notEnd)
      (below.trans_eq f.size.symm)]
    change Sum.inl (d.advance.extend _ (sourceEntry d.dict _) (sourceEntry d.dict _ ++ (sourceEntry d.dict _).take 1)) = _
    rw [f.entry _ _ entry, f.entry _ _ last]
    rfl
  | undefined code last =>
    obtain ⟨notClear, notEnd⟩ := a.not_sentinel code.ge
    rw [sourceCode_undefined (d := d.advance) (f.last_normal r) (clear ▸ notClear) (sentinel ▸ notEnd)
      (code.trans f.size.symm)]
    change Sum.inl (d.advance.extend _ (sourceEntry d.dict _ ++ (sourceEntry d.dict _).take 1)
      (sourceEntry d.dict _ ++ (sourceEntry d.dict _).take 1)) = _
    rw [f.entry _ _ last]
    rfl

/-- OUT_LEN counts the source's output. -/
theorem Follows.output_le {out xs : List Byte} (le : (d.output ++ out).length ≤ xs.length) :
    s.outLen.toNat + out.length ≤ xs.length := by
  rwa [List.length_append, f.output, State.output, List.length_map, List.length_range] at le

end Step

/-! ### One run -/

/-- How a run of the block that ended compares with the source's end (R96, D12). -/
def EndsAs (cap : Nat) (source : Option SourceEnd) (u : State) : Prop :=
  u.phase = .done ∧ u.err = false ∧ source = some (.output u.output) ∨
  u.errcode = .corruptStream ∧ source = some .corruptStream ∨
  u.errcode = .outOfData ∧ source = some .outOfData ∨
  u.errcode = .outputOverflow ∧ ∀ xs, source = some (.output xs) → cap < xs.length

/-- After one code of a decode both go on from where they follow again, or the block has ended as the source does. -/
theorem StepEffect.follows {m : Nat} {d : SourceState} {s t : State} (e : StepEffect s t) (h : s.Inv) (err : s.err = false)
    (decoding : s.phase.decoding = true) (f : Follows m d s) :
    (∃ d', Follows m d' t ∧ t.phase.decoding = true ∧ ∀ k, sourceLoop m s.stream (k + 1) d = sourceLoop m s.stream k d') ∨
    (t.phase.decoding = false ∧ ∀ k, EndsAs s.obufCap.toNat (sourceLoop m s.stream (k + 1) d) t) := by
  have a := h.lzwActive decoding
  have clear := f.clearCode a
  have sentinel := f.endCode a
  cases e with
  | short bits => exact .inr ⟨rfl, fun k => .inr (.inr (.inl ⟨rfl, f.loop_short bits k⟩))⟩
  | ended bits code =>
    refine .inr ⟨rfl, fun k => .inl ⟨rfl, err, ?_⟩⟩
    rw [f.loop_code bits, code, sentinel, sourceCode_end]
    exact congrArg (some ∘ SourceEnd.output) f.output
  | cleared bits code =>
    refine .inl ⟨_, f.cleared a bits, rfl, fun k => ?_⟩
    rw [f.loop_code bits, code, clear, sourceCode_clear]
    rfl
  | literal r code room effect =>
    refine .inl ⟨_, f.literal r room effect, by rw [effect.1]; rfl, fun k => ?_⟩
    rw [f.loop_code r.bits, sourceCode_literal (d := d.advance) (f.last_literal r) (code.trans_eq clear)]
    rfl
  | literalOverflow r code full =>
    refine .inr ⟨rfl, fun k => .inr (.inr (.inr ⟨rfl, fun xs loop => ?_⟩))⟩
    rw [f.loop_code r.bits, sourceCode_literal (d := d.advance) (f.last_literal r) (code.trans_eq clear)] at loop
    exact full.trans_le (f.output_le (sourceLoop_output_length loop))
  | literalCorrupt r code =>
    refine .inr ⟨rfl, fun k => .inr (.inl ⟨rfl, ?_⟩)⟩
    rw [f.loop_code r.bits, sourceCode_literal_corrupt (d := d.advance) (f.last_literal r) (sentinel ▸ code)]
    rfl
  | expanded r x room effect =>
    refine .inl ⟨_, f.expanded r room effect, by rw [effect.1]; exact decoding, fun k => ?_⟩
    rw [f.loop_code r.bits, f.sourceCode_expands r x]
    rfl
  | overflow r x full =>
    refine .inr ⟨rfl, fun k => .inr (.inr (.inr ⟨rfl, fun xs loop => ?_⟩))⟩
    rw [f.loop_code r.bits, f.sourceCode_expands r x] at loop
    exact full.trans_le (f.output_le (sourceLoop_output_length loop))
  | corrupt r code =>
    obtain ⟨notClear, notEnd⟩ := a.not_sentinel code.le
    refine .inr ⟨rfl, fun k => .inr (.inl ⟨rfl, ?_⟩)⟩
    rw [f.loop_code r.bits, sourceCode_corrupt (d := d.advance) (f.last_normal r) (clear ▸ notClear) (sentinel ▸ notEnd)
      (f.size.trans_lt code)]
    rfl

/-- The stream is the host's. -/
theorem HostSame.stream {s t : State} (same : HostSame s t) : t.stream = s.stream := by
  have bytes : ibufByte t = ibufByte s := by
    funext i
    rw [ibufByte, ibufByte, same.ibuf, same.env]
  rw [State.stream, State.stream, same.bufLen, bytes]

/-- A run that ends does so as the source's loop with as many codes. -/
theorem runLoop_endsAs {m k : Nat} {d : SourceState} {s u : State} (h : s.Inv) (err : s.err = false)
    (decoding : s.phase.decoding = true) (f : Follows m d s) (run : runLoop k s = .next u) :
    EndsAs s.obufCap.toNat (sourceLoop m s.stream k d) u := by
  induction k generalizing s d with
  | zero => simp [runLoop, decoding] at run
  | succ k ih =>
    obtain ⟨t, step, e⟩ := lzwStep_effect h err decoding
    have body : stepBody s = .next t := (exec_lzwStep err decoding).symm.trans step
    rw [runLoop_step decoding body] at run
    obtain ⟨d', f', goesOn, loop⟩ | ⟨stops, ends⟩ := e.follows h err decoding f
    · have same := (stepBody_host body).1
      rw [loop, ← same.stream, ← same.obufCap]
      exact ih (stepBody_keeps_inv h decoding body) ((e.err goesOn).trans err) goesOn f' run
    · rw [runLoop_stop stops] at run
      cases run
      exact ends k

/-- Settles O31: LZW_INIT puts the block before the source's first code, and LZW_RUN makes as many steps as the source takes
codes. -/
theorem decodeIsTheSourceLoop : Obligations.DecodeIsTheSourceLoop := by
  intro s m h err pos le
  have inv := startDecode_inv h pos le
  have err' : (startDecode m.toNat s).err = false := err
  obtain ⟨-, u, -, -, run⟩ := lzwRun_stepsTo inv err' rfl
  refine ⟨_, u, exec_lzwInit err pos le, run, ?_⟩
  rw [exec_lzwRun err' rfl] at run
  have ends := runLoop_endsAs inv err' rfl (startDecode_follows le s) run
  have codes : runBound (startDecode m.toNat s) = 4 * s.stream.length + 1 := by
    rw [stream_length]
    change 8 * s.bufLen.toNat / 2 + 1 = _
    omega
  rw [codes] at ends
  exact ends

/-- Settles O32: the source ends with an output that fits, so the block can only have ended with the same output. -/
theorem lzwRunCompletesOnAGoodStream : Obligations.LzwRunCompletesOnAGoodStream := by
  intro s m xs h err pos le good fits
  obtain ⟨t, u, init, run, ends⟩ := decodeIsTheSourceLoop s m h err pos le
  refine ⟨t, u, init, run, ?_⟩
  rw [good] at ends
  obtain ⟨done, ok, output⟩ | ⟨-, corrupt⟩ | ⟨-, short⟩ | ⟨-, longer⟩ := ends
  · cases output
    exact ⟨done, ok, rfl⟩
  · cases corrupt
  · cases short
  · exact absurd (longer xs rfl) (Nat.not_lt_of_le fits)

end Sys2Proof.Machine
end

section
/-! The interlace mapper (42_interlace.md): the rows of each pass and their number (R98, R99), the row ILDest finds among them
(R100), and IL_ROW and IL_ELEM (R101 to R103). The key fact is that ILDest reads the list of the rows in decode order, and that
this list holds each row of the frame once. -/
namespace Sys2Proof.Machine

/-! ### The rows of one pass (R98, R99) -/

/-- The rows of a frame of height `h` that a pass covers, in rising order. -/
def passRows (q : Pass) (h : Nat) : List Nat := (List.range h).filter fun d => d % q.step = q.start

theorem mem_passRows {q : Pass} {h d : Nat} : d ∈ passRows q h ↔ d < h ∧ d % q.step = q.start := by simp [passRows]

/-- A pass's first row is less than the distance between its rows, so that its rows are a residue class. -/
theorem start_lt_step_of_mem_passes : ∀ q ∈ passes, q.start < q.step := by decide

/-- The count is the number of multiples of the step that fit: a ceiling division. -/
theorem lt_passCount_iff {q : Pass} (hq : q.start < q.step) (k h : Nat) :
    k < passCount q h ↔ q.start + q.step * k < h := by
  unfold passCount
  split
  · rw [← Nat.succ_le_iff, Nat.le_div_iff_mul_le (by omega), Nat.succ_mul, Nat.mul_comm k]
    omega
  · omega

/-- The rows of a pass are as many terms of its progression as its count says. -/
theorem passRows_eq_range' {q : Pass} (hq : q.start < q.step) (h : Nat) :
    passRows q h = List.range' q.start (passCount q h) q.step := by
  refine ((List.sortedLT_range h).pairwise.filter _).sortedLT.eq_of_mem_iff (List.sortedLT_range' _ _ (by omega)) fun d =>
    mem_passRows.trans ?_
  rw [List.mem_range']
  constructor
  · rintro ⟨lt, residue⟩
    have quotient : d = q.start + q.step * (d / q.step) := by rw [← residue, Nat.mod_add_div]
    exact ⟨d / q.step, (lt_passCount_iff hq _ _).mpr (quotient ▸ lt), quotient⟩
  · rintro ⟨k, lt, rfl⟩
    exact ⟨(lt_passCount_iff hq _ _).mp lt, by rw [Nat.add_mul_mod_self_left, Nat.mod_eq_of_lt hq]⟩

theorem passRows_length {q : Pass} (hq : q.start < q.step) (h : Nat) : (passRows q h).length = passCount q h := by
  rw [passRows_eq_range' hq, List.length_range']

/-! ### The rows of the frame in decode order -/

theorem rowsInDecodeOrder_eq_flatMap (h : Nat) : rowsInDecodeOrder h = passes.flatMap (passRows · h) := by
  simp [rowsInDecodeOrder, passes, passRows]

/-- Every row is in exactly one of the four residue classes. -/
theorem rowsInDecodeOrder_perm_range (h : Nat) : (rowsInDecodeOrder h).Perm (List.range h) := by
  have nodup : (rowsInDecodeOrder h).Nodup := by
    simp only [rowsInDecodeOrder, List.nodup_append', List.disjoint_left, List.mem_append, List.mem_filter,
      decide_eq_true_eq, List.nodup_range.filter, true_and]
    refine ⟨⟨?_, ?_⟩, ?_⟩ <;> omega
  refine (List.perm_ext_iff_of_nodup nodup List.nodup_range).mpr fun d => ?_
  simp only [rowsInDecodeOrder, List.mem_append, List.mem_filter, List.mem_range, decide_eq_true_eq]
  omega

theorem rowsInDecodeOrder_length (h : Nat) : (rowsInDecodeOrder h).length = h := by
  rw [(rowsInDecodeOrder_perm_range h).length_eq, List.length_range]

/-- Settles O36: each count is the length of the list of its pass, and the four lists make up the frame. -/
theorem passCountsSplitTheFrame : Obligations.PassCountsSplitTheFrame := by
  intro h _
  have count (q : Pass) (hq : q.start < q.step) : passCount q h = (passRows q h).length := (passRows_length hq h).symm
  have eighth := count ⟨0, 8⟩ (by decide)
  have offset := count ⟨4, 8⟩ (by decide)
  have quarter := count ⟨2, 4⟩ (by decide)
  have odd := count ⟨1, 2⟩ (by decide)
  refine ⟨eighth, offset, quarter, odd, ?_⟩
  rw [eighth, offset, quarter, odd, ← List.length_append, ← List.length_append, ← List.length_append]
  exact rowsInDecodeOrder_length h

/-! ### The destination row (R100) -/

/-- The search finds the `k`th of the rows of the passes left; past their end it answers the place itself. -/
theorem destFrom_eq_getD (h : Nat) (qs : List Pass) (hqs : ∀ q ∈ qs, q.start < q.step) (base k : Nat) :
    destFrom (base + k) h base qs = (qs.flatMap (passRows · h)).getD k (base + k) := by
  induction qs generalizing base k with
  | nil => rfl
  | cons q qs ih =>
    obtain ⟨hq, hqs⟩ := List.forall_mem_cons.mp hqs
    rw [destFrom, List.flatMap_cons]
    split
    · have inside : k < passCount q h := by omega
      rw [List.getD_append _ _ _ _ (by rwa [passRows_length hq]), passRows_eq_range' hq, List.getD_eq_getElem?_getD,
        List.getElem?_range' inside, Nat.add_sub_cancel_left]
      rfl
    · obtain ⟨j, rfl⟩ : ∃ j, k = passCount q h + j := ⟨k - passCount q h, by omega⟩
      rw [List.getD_append_right _ _ _ _ (by rw [passRows_length hq]; omega), passRows_length hq, Nat.add_sub_cancel_left,
        ← Nat.add_assoc]
      exact ih hqs ..

/-- ILDest reads the list of the rows in decode order. -/
theorem rowsInDecodeOrder_getElem? {r h : Nat} (lt : r < h) : (rowsInDecodeOrder h)[r]? = some (ilDest r h) := by
  have dest := destFrom_eq_getD h passes start_lt_step_of_mem_passes 0 r
  rw [Nat.zero_add, ← rowsInDecodeOrder_eq_flatMap] at dest
  have inside : r < (rowsInDecodeOrder h).length := by rwa [rowsInDecodeOrder_length]
  rw [ilDest, dest, List.getD_eq_getElem _ _ inside, List.getElem?_eq_getElem inside]

/-- ILDest permutes the rows of the frame, as the list it reads does. -/
theorem ilDest_bijOn (h : Nat) : Set.BijOn (ilDest · h) (Set.Iio h) (Set.Iio h) := by
  have perm := rowsInDecodeOrder_perm_range h
  have inside {r : Nat} (lt : r < h) : r < (rowsInDecodeOrder h).length := by rwa [rowsInDecodeOrder_length]
  refine ⟨fun r lt => ?_, fun r lt r' lt' same => ?_, fun d lt => ?_⟩
  · exact List.mem_range.mp (perm.mem_iff.mp (List.mem_of_getElem? (rowsInDecodeOrder_getElem? lt)))
  · refine (List.getElem?_inj (inside lt) (perm.nodup_iff.mpr List.nodup_range)).mp ?_
    rw [rowsInDecodeOrder_getElem? lt, rowsInDecodeOrder_getElem? lt']
    exact congrArg some same
  · obtain ⟨r, place, row⟩ := List.mem_iff_getElem.mp (perm.mem_iff.mpr (List.mem_range.mpr lt))
    have lt' : r < h := by rwa [rowsInDecodeOrder_length] at place
    refine ⟨r, lt', Option.some.inj ?_⟩
    rw [← row, ← List.getElem?_eq_getElem place, rowsInDecodeOrder_getElem? lt']

/-- The first pass begins with row 0. -/
theorem ilDest_zero {h : Nat} (pos : 1 ≤ h) : ilDest 0 h = 0 := by
  have first : 0 < passCount ⟨0, 8⟩ h := (lt_passCount_iff (by decide) 0 h).mpr pos
  rw [ilDest, passes, destFrom, if_pos (by rwa [Nat.zero_add])]
  rfl

/-- Settles O37: ILDest permutes the rows; its values for row 0 and for 8 rows are computed. -/
theorem destinationRowIsABijection : Obligations.DestinationRowIsABijection := by
  intro h _
  obtain ⟨maps, inj, surj⟩ := ilDest_bijOn h
  refine ⟨fun r => @maps r, fun r r' lt lt' => @inj r lt r' lt', fun d => @surj d, ilDest_zero, ?_⟩
  rintro rfl
  decide

/-! ### Rows and elements with the frame's interlace flag (R37, R101, R102) -/

theorem destRow_bijOn (interlace : Bool) (h : Nat) : Set.BijOn (destRow interlace · h) (Set.Iio h) (Set.Iio h) := by
  cases interlace
  · exact Set.bijOn_id _
  · exact ilDest_bijOn h

/-- The destination element that IL_ELEM computes (R102). -/
def destElem (interlace : Bool) (i w h : Nat) : Nat := destRow interlace (i / w) h * w + i % w

/-- Without INTERLACE every element stays. -/
theorem destElem_false (i w h : Nat) : destElem false i w h = i := Nat.div_add_mod' i w

/-- A row and a column stand for an element of the frame. -/
theorem row_mul_add_lt {d c w h : Nat} (row : d < h) (column : c < w) : d * w + c < w * h := by
  rw [Nat.mul_comm d, Nat.mul_comm w h]
  exact Nat.mul_add_lt_mul_of_lt_of_lt row column

theorem row_mul_add_div {c w : Nat} (d : Nat) (column : c < w) : (d * w + c) / w = d := by
  rw [Nat.mul_comm, Nat.mul_add_div (by omega), Nat.div_eq_of_lt column, Nat.add_zero]

/-- IL_ELEM permutes the elements of the frame: it permutes the rows and keeps the column. -/
theorem destElem_bijOn (interlace : Bool) (w h : Nat) :
    Set.BijOn (destElem interlace · w h) (Set.Iio (w * h)) (Set.Iio (w * h)) := by
  obtain ⟨maps, inj, surj⟩ := destRow_bijOn interlace h
  have column {i : Nat} (lt : i < w * h) : i % w < w := Nat.mod_lt _ (Nat.pos_of_lt_mul_right lt)
  have row {i : Nat} (lt : i < w * h) : i / w < h := Nat.div_lt_of_lt_mul lt
  refine ⟨fun i lt => row_mul_add_lt (maps (row lt)) (column lt), fun i lt j lt' same => ?_, fun d lt => ?_⟩
  · have rows : i / w = j / w := inj (row lt) (row lt') <| by
      simpa only [destElem, row_mul_add_div _ (column lt), row_mul_add_div _ (column lt')] using congrArg (· / w) same
    have columns : i % w = j % w := by
      simpa only [destElem, Nat.mul_add_mod_of_lt (column lt), Nat.mul_add_mod_of_lt (column lt')] using congrArg (· % w) same
    rw [← Nat.div_add_mod' i w, rows, columns, Nat.div_add_mod']
  · obtain ⟨r, rlt, (dest : destRow interlace r h = d / w)⟩ := surj (row lt)
    refine ⟨r * w + d % w, row_mul_add_lt rlt (column lt), ?_⟩
    simp only [destElem, row_mul_add_div _ (column lt), Nat.mul_add_mod_of_lt (column lt), dest, Nat.div_add_mod']

/-! ### The commands -/

theorem exec_ilRow {s : State} (err : s.err = false) (lt : s.ilIndex.toNat < s.ilHeight.toNat) :
    exec .ilRow s = .next (setResult (BitVec.ofNat 32 (destRow s.interlace s.ilIndex.toNat s.ilHeight.toNat)) s) := by
  rw [exec, execIlRow, unlessErr_clear err, if_neg (Nat.not_le_of_lt lt)]

theorem exec_ilRow_rangeError {s : State} (err : s.err = false) (le : s.ilHeight.toNat ≤ s.ilIndex.toNat) :
    exec .ilRow s = .next (s.withError .rangeError) := by
  rw [exec, execIlRow, unlessErr_clear err, if_pos le, raise_command err]
  rfl

theorem exec_ilElem {s : State} (err : s.err = false) (lt : s.ilIndex.toNat < s.ilWidth.toNat * s.ilHeight.toNat) :
    exec .ilElem s =
      .next (setResult (BitVec.ofNat 32 (destElem s.interlace s.ilIndex.toNat s.ilWidth.toNat s.ilHeight.toNat)) s) := by
  rw [exec, execIlElem, unlessErr_clear err, if_neg (Nat.not_le_of_lt lt), destElem]

theorem exec_ilElem_rangeError {s : State} (err : s.err = false)
    (le : s.ilWidth.toNat * s.ilHeight.toNat ≤ s.ilIndex.toNat) : exec .ilElem s = .next (s.withError .rangeError) := by
  rw [exec, execIlElem, unlessErr_clear err, if_pos le, raise_command err]
  rfl

/-- An element of a frame fits in RESULT (R102): both sides of the frame are 16-bit numbers. -/
theorem ofNat_element_toNat {d : Nat} {w h : BitVec 16} (lt : d < w.toNat * h.toNat) : (BitVec.ofNat 32 d).toNat = d := by
  have frame : w.toNat * h.toNat < 2 ^ 16 * 2 ^ 16 := Nat.mul_lt_mul'' w.isLt h.isLt
  exact Nat.mod_eq_of_lt (by omega)

theorem ofNat_destRow (interlace : Bool) (v : Word) (h : Nat) :
    BitVec.ofNat 32 (destRow interlace v.toNat h) = if interlace then BitVec.ofNat 32 (ilDest v.toNat h) else v := by
  cases interlace
  · exact (BitVec.ofNat_toNat ..).trans (BitVec.setWidth_eq v)
  · rfl

/-- Settles O34: with INTERLACE the row is the one ILDest reads in decode order. -/
theorem ilRowMapsTheDecodedRow : Obligations.IlRowMapsTheDecodedRow := by
  refine fun s err => ⟨fun lt => ⟨_, rowsInDecodeOrder_getElem? lt, ?_⟩, exec_ilRow_rangeError err⟩
  rw [exec_ilRow err lt, ofNat_destRow]
  rfl

/-- Settles O35: the element IL_ELEM computes is in the frame again, so RESULT holds it without overflow. -/
theorem ilElemMovesTheRowAndKeepsTheColumn : Obligations.IlElemMovesTheRowAndKeepsTheColumn := by
  refine fun s err => ⟨fun lt => ?_, exec_ilElem_rangeError err⟩
  refine ⟨_, rowsInDecodeOrder_getElem? (Nat.div_lt_of_lt_mul lt), _, exec_ilElem err lt, ?_⟩
  rw [ofNat_element_toNat ((destElem_bijOn s.interlace _ _).mapsTo lt)]
  cases s.interlace
  · exact destElem_false ..
  · rfl

/-- IL_ELEM answers `d` for exactly the elements that move to `d`. -/
theorem exec_ilElem_iff {s : State} {i : Word} {d : Nat} (err : s.err = false)
    (lt : i.toNat < s.ilWidth.toNat * s.ilHeight.toNat) (dlt : d < s.ilWidth.toNat * s.ilHeight.toNat) :
    exec .ilElem { s with ilIndex := i } = .next { s with ilIndex := i, result := BitVec.ofNat 32 d } ↔
      destElem s.interlace i.toNat s.ilWidth.toNat s.ilHeight.toNat = d := by
  rw [exec_ilElem (s := { s with ilIndex := i }) err lt]
  refine ⟨fun same => ?_, fun same => by rw [same]; rfl⟩
  injection same with states
  have results := congrArg (BitVec.toNat ∘ State.result) states
  rwa [Function.comp, Function.comp, setResult, ofNat_element_toNat ((destElem_bijOn s.interlace _ _).mapsTo lt),
    ofNat_element_toNat dlt] at results

/-- Settles O38: IL_ELEM permutes the elements of the frame, and each element is a value of IL_INDEX. -/
theorem scatterWritesEveryElementOnce : Obligations.ScatterWritesEveryElementOnce := by
  intro s d err dlt
  obtain ⟨-, inj, surj⟩ := destElem_bijOn s.interlace s.ilWidth.toNat s.ilHeight.toNat
  obtain ⟨k, klt, dest⟩ := surj dlt
  have index : (BitVec.ofNat 32 k).toNat = k := ofNat_element_toNat klt
  have lt : (BitVec.ofNat 32 k).toNat < s.ilWidth.toNat * s.ilHeight.toNat := index.trans_lt klt
  refine ⟨BitVec.ofNat 32 k, lt, (exec_ilElem_iff err lt dlt).mpr (by rwa [index]), fun j jlt answer => ?_⟩
  refine BitVec.eq_of_toNat_eq (index.symm ▸ inj jlt klt ?_)
  exact ((exec_ilElem_iff err jlt dlt).mp answer).trans dest.symm

end Sys2Proof.Machine
end

section
/-! The control commands (43_control.md): NOP and CLR_ERR run in every state (R105, R106), and a word with the OP of one of them
that is not its encoding is no command, so it raises ILLEGAL_COMMAND, which ERR = 1 suppresses (R67, R68, R109). -/
namespace Sys2Proof.Machine

/-! ### Misspelt command words (R67) -/

/-- What running a word that is no command leaves: BUSY = 0, and ILLEGAL_COMMAND if it is the first error (R68, R109). -/
theorem illegalCommand_endCommand (op : BitVec 8) (s : State) : illegalCommand op (endCommand s) =
    if s.err then { s with running := none } else { s with running := none }.withError .illegalCommand := by
  split
  · exact illegalCommand_set ‹_›
  · exact illegalCommand_clear (Bool.eq_false_of_not_eq_true ‹_›)

/-- A word with the OP of a command that takes no ARG is that command's encoding or no command at all: `alone` says that no
other command has the OP. -/
theorem runWord_misspelt {i : Instr} {w : Word} (alone : ∀ j, opcode j = opcode i → j = i) (op : wordOp w = opcode i)
    (misspelt : w ≠ encode i) (s : State) : runWord w s =
      .next (if s.err then { s with running := none } else { s with running := none }.withError .illegalCommand) := by
  cases decoded : decode w with
  | error r => rw [runWord_of_decode_error decoded, illegalCommand_endCommand]
  | ok j =>
    obtain ⟨opcode_j, -⟩ := opcode_argument_of_decodeOp (decode_ok decoded).2
    have same : j = i := alone j (opcode_j.trans op)
    have encoded : encode j = w := decodedWordIsTheEncodingOfItsCommand w j decoded
    exact absurd (encoded.symm.trans (congrArg encode same)) misspelt

theorem eq_nop_of_opcode (j : Instr) (same : opcode j = opcode .nop) : j = .nop := by
  cases j with
  | nop => rfl
  | _ => cases same

theorem eq_clrErr_of_opcode (j : Instr) (same : opcode j = opcode .clrErr) : j = .clrErr := by
  cases j with
  | clrErr => rfl
  | _ => cases same

/-! ### The commands -/

theorem exec_nop (s : State) : exec .nop s = .next s := rfl

theorem exec_clrErr (s : State) : exec .clrErr s = .next { s with err := false, errcode := .none } := rfl

/-- Settles O11: the word 0 is the encoding of NOP, and every other word with its OP is misspelt. -/
theorem nopChangesNothing : Obligations.NopChangesNothing := by
  have word : encode .nop = 0#32 := by decide
  refine ⟨fun s => ⟨exec_nop s, ?_⟩, fun w s op ne => runWord_misspelt eq_nop_of_opcode op (word ▸ ne) s⟩
  rw [← word, runWord_encode, exec_nop]
  rfl

/-- Settles O12: CLR_ERR leaves PHASE at FAILED, where the phase test of LZW_STEP and LZW_RUN refuses. -/
theorem clrErrClearsOnlyTheError : Obligations.ClrErrClearsOnlyTheError := by
  refine ⟨exec_clrErr, fun s err errcode => ?_, fun s failed i hi => ?_, fun w s op ne => ?_⟩
  · rw [exec_clrErr, ← err, ← errcode]
  · have outside : s.phase ∉ [.literal, .normal] := by
      rw [failed]
      decide
    exact stepsOutsideADecodeRaiseSequenceError { s with err := false, errcode := .none } i rfl hi outside
  · have word : encode .clrErr = 0x30#32 := by decide
    exact runWord_misspelt eq_clrErr_of_opcode op (word ▸ ne) s

end Sys2Proof.Machine
end

section
/-! Progress (R113, R123, R134): from a state with the invariant every command completes, so no step stops. The two faults need a
code without an entry (R45 items 5 and 7) or a run past its bound (R95), and the lemmas about a decode rule both out. -/
namespace Sys2Proof.Machine

theorem safe_next (t : State) : Safe (.next t) := ⟨t, rfl⟩

/-- A command that is dropped completes, so it is safe when its run is. -/
theorem unlessErr_safe {s : State} {run : State → Result} (safe : s.err = false → Safe (run s)) : Safe (unlessErr s run) := by
  cases err : s.err
  · rw [unlessErr_clear err]
    exact safe err
  · rw [unlessErr_set err]
    exact safe_next s

/-- Outside a decode the phase test completes with SEQUENCE_ERROR, so a decode command is safe when its run in a decode is. -/
theorem whileDecoding_safe {s : State} {run : State → Result} (safe : s.phase.decoding = true → Safe (run s)) :
    Safe (whileDecoding s run) := by
  cases decoding : s.phase.decoding
  · rw [whileDecoding_false decoding]
    exact safe_next _
  · rw [whileDecoding_true decoding]
    exact safe decoding

/-- A check that raises an error or goes on completes either way. -/
theorem check_safe {p : Prop} [Decidable p] {t u : State} : Safe (if p then .next t else .next u) := by
  split <;> exact safe_next _

theorem stepBody_safe {s : State} (h : s.Inv) (decoding : s.phase.decoding = true) : Safe (stepBody s) := by
  obtain ⟨t, body, -⟩ := stepBody_inv h decoding
  exact ⟨t, body⟩

/-- LZW_RUN ends within R95's bound. -/
theorem runLoop_safe {s : State} (h : s.Inv) (err : s.err = false) (decoding : s.phase.decoding = true) :
    Safe (runLoop (runBound s) s) := by
  obtain ⟨-, t, -, -, run⟩ := lzwRun_stepsTo h err decoding
  exact ⟨t, (exec_lzwRun err decoding).symm.trans run⟩

/-- Only the decode commands have a way to stop, and it needs a state without the invariant. -/
theorem exec_safe (i : Instr) {s : State} (h : s.Inv) : Safe (exec i s) := by
  cases i with
  | nop | clrErr => exact safe_next _
  | brRewind | brReadbit =>
    simp only [exec, execBrRewind, execBrReadbit]
    exact unlessErr_safe fun _ => safe_next _
  | brReadbits | lzwInit | ilRow | ilElem =>
    simp only [exec, execBrReadbits, execLzwInit, execIlRow, execIlElem]
    exact unlessErr_safe fun _ => check_safe
  | lzwStep =>
    rw [exec, execLzwStep]
    exact unlessErr_safe fun _ => whileDecoding_safe (stepBody_safe h)
  | lzwRun =>
    rw [exec, execLzwRun]
    exact unlessErr_safe fun err => whileDecoding_safe (runLoop_safe h err)

theorem runWord_safe (w : Word) {s : State} (h : s.Inv) : Safe (runWord w s) := by
  unfold runWord
  split
  · exact exec_safe _ (env_inv h s.env none)
  · exact safe_next _

/-- Settles O60: a move of the port or the reset input always completes, and a command does from a state with the invariant. -/
theorem noStepEverStops : Obligations.NoStepEverStops := by
  intro s h
  obtain ⟨w, -, run⟩ | ⟨t, move, -⟩ := nextAction_cases s
  · rw [step_run run]
    exact runWord_safe w h
  · rw [step_move move]
    exact safe_next t

end Sys2Proof.Machine
end

section
/-! The kept error (60_exceptions.md): raising records the first error only (R109, R110), and while it stands every command but
NOP and CLR_ERR is dropped, with the port as it is without it (R111). -/
namespace Sys2Proof.Machine

/-! ### Raising an error (R109, R110) -/

/-- A later error inside a step leaves the recorded one, but ends the decode (R109, R110). -/
theorem raise_decodeStep_again {e : ErrCode} {s : State} (err : s.err = true) :
    raise e .decodeStep s = { s with phase := .failed } :=
  congrArg (setPhase .failed) (raise_command_again err)

/-- Settles O10: each side of the raise by ERR and by where it is raised. -/
theorem firstErrorIsKept : Obligations.FirstErrorIsKept := fun _ _ =>
  ⟨fun err => ⟨raise_command err, raise_decodeStep err⟩, fun err => ⟨raise_command_again err, raise_decodeStep_again err⟩⟩

/-! ### Commands while ERR = 1 (R111) -/

/-- While ERR = 1 every command but CLR_ERR completes without any effect: NOP has none, the others are dropped. -/
theorem exec_of_err {i : Instr} {s : State} (hi : i ≠ .clrErr) (err : s.err = true) : exec i s = .next s := by
  cases i with
  | clrErr => exact absurd rfl hi
  | nop => exact exec_nop s
  | brRewind | brReadbit | brReadbits | lzwInit | lzwStep | lzwRun | ilRow | ilElem =>
    simp only [exec, execBrRewind, execBrReadbit, execBrReadbits, execLzwInit, execLzwStep, execLzwRun, execIlRow,
      execIlElem, unlessErr_set err]

/-- While ERR = 1 every word whose OP is not that of CLR_ERR only ends: a command is dropped, and the error of an illegal word is
not the first (R68, R109, R111). -/
theorem runWord_of_err {w : Word} {s : State} (err : s.err = true) (op : wordOp w ≠ 0x30#8) :
    runWord w s = .next { s with running := none } := by
  cases decoded : decode w with
  | error r => rw [runWord_of_decode_error decoded, illegalCommand_endCommand, if_pos err]
  | ok i =>
    obtain ⟨opcode_i, -⟩ := opcode_argument_of_decodeOp (decode_ok decoded).2
    have notClrErr : i ≠ .clrErr := by
      rintro rfl
      exact op opcode_i.symm
    rw [runWord, decoded]
    exact exec_of_err (s := endCommand s) notClrErr err

/-! ### The port does not see ERR (R111) -/

/-- `s` with these ERR and ERRCODE. -/
def State.withErr (s : State) (b : Bool) (c : ErrCode) : State := { s with err := b, errcode := c }

@[simp] theorem State.withErr_ibufCap (s : State) (b : Bool) (c : ErrCode) : (s.withErr b c).ibufCap = s.ibufCap := rfl

theorem regRead_withErr (s : State) (b : Bool) (c : ErrCode) {r : Reg} (hr : r ≠ .status) :
    regRead (s.withErr b c) r = regRead s r := by
  cases r with
  | status => exact absurd rfl hr
  | _ => rfl

theorem regWrite_withErr (v : Word) (s : State) (b : Bool) (c : ErrCode) (r : Reg) :
    regWrite v (s.withErr b c) r = (regWrite v s r).withErr b c := by
  cases r <;> rfl

theorem storeLanes_withErr (addr off : Nat) (d : Word) (st : BitVec 4) (s : State) (b : Bool) (c : ErrCode) (n : Nat) :
    storeLanes addr off d st (s.withErr b c) n = (storeLanes addr off d st s n).withErr b c := by
  induction n with
  | zero => rfl
  | succ n ih =>
    simp only [storeLanes, ih]
    split <;> rfl

/-- A write is refused, or has its effect, whatever ERR and ERRCODE are. -/
theorem writePort_withErr (s : State) (b : Bool) (c : ErrCode) (addr : Word) (size : Size) (data : Word) (strobes : BitVec 4) :
    writePort (s.withErr b c) addr size data strobes = (writePort s addr size data strobes).map (·.withErr b c) := by
  cases window : windowOf addr with
  | registers off =>
    simp only [writePort, window]
    split
    · rw [Option.map_map]
      exact congrArg (Option.map · _) (funext (regWrite_withErr data s b c))
    · rfl
  | ibuf off =>
    simp only [writePort, window, storeLanes_withErr, State.withErr_ibufCap]
    split <;> rfl
  | obuf | unmapped => simp only [writePort, window, Option.map_none]

/-- Settles O9: no word but those with the OP of CLR_ERR has an effect, and neither side of the port looks at ERR. -/
theorem commandsAreDroppedWhileErr : Obligations.CommandsAreDroppedWhileErr :=
  ⟨fun _ _ err _ op => runWord_of_err err op,
    fun s b c => ⟨fun _ => regRead_withErr s b c, fun _ => rfl, fun _ => rfl, writePort_withErr s b c⟩⟩

end Sys2Proof.Machine
end

section
/-! The end of a decode (R94, R113, R135): a run of LZW_STEPs that stops leaves PHASE = DONE with no error, or PHASE = FAILED with an
error of the stream or of OBUF. -/
namespace Sys2Proof.Machine

/-- A decode has ended: by the End Code, or by an error of the stream or of OBUF (R113, R135). -/
def DecodeEnded (t : State) : Prop :=
  t.phase = .done ∧ t.err = false ∨
    t.phase = .failed ∧ t.err = true ∧ t.errcode ∈ [.outOfData, .corruptStream, .outputOverflow]

theorem decodeEnded_withDecodeError (s : State) {e : ErrCode} (he : e ∈ [.outOfData, .corruptStream, .outputOverflow]) :
    DecodeEnded (s.withDecodeError e) :=
  .inr ⟨rfl, rfl, he⟩

/-- A step that does not go on with the decode ends it. -/
theorem StepEffect.decodeEnded {s t : State} (e : StepEffect s t) (err : s.err = false) (stops : t.phase.decoding = false) :
    DecodeEnded t := by
  cases e with
  | short | literalOverflow | literalCorrupt | overflow | corrupt => exact decodeEnded_withDecodeError _ (by decide)
  | ended => exact .inl ⟨rfl, err⟩
  | cleared => cases stops
  | literal _ _ _ effect =>
    have goesOn : t.phase = .normal := (congrArg State.phase effect.1 :)
    rw [goesOn] at stops
    cases stops
  | expanded r _ _ effect =>
    have goesOn : t.phase = .normal := (congrArg State.phase effect.1 :).trans r.phase
    rw [goesOn] at stops
    cases stops

/-- LZW_STEPs issued until no decode is in progress end the decode. -/
theorem StepsTo.decodeEnded {k : Nat} {s u : State} (steps : StepsTo k s u) (h : s.Inv) (err : s.err = false)
    (decoding : s.phase.decoding = true) : DecodeEnded u := by
  induction steps with
  | stop s stopped =>
    rw [stopped] at decoding
    cases decoding
  | step k s t u _ one rest ih =>
    obtain ⟨t', one', e⟩ := lzwStep_effect h err decoding
    cases one.symm.trans one'
    cases goesOn : t.phase.decoding
    · cases rest with
      | stop => exact e.decodeEnded err goesOn
      | step _ _ _ _ again =>
        rw [goesOn] at again
        cases again
    · exact ih ((exec_cases one).inv h) ((e.err goesOn).trans err) goesOn

/-- Settles O30: LZW_RUN is repeated LZW_STEP, and the steps end the decode. -/
theorem lzwRunEndsDoneOrFailed : Obligations.LzwRunEndsDoneOrFailed := by
  intro s h err phase
  have decoding := (decoding_iff _).2 phase
  obtain ⟨k, t, steps, -, run⟩ := lzwRun_stepsTo h err decoding
  exact ⟨t, run, steps.decodeEnded h err decoding⟩

end Sys2Proof.Machine
end

section
/-! Output that has been emitted is final (R82, R132): the LZW unit writes OBUF by Emit alone, which writes at OUT_LEN and above. -/
namespace Sys2Proof.Machine

/-- From `s` to `t` OUT_LEN has not fallen, and every index below the old OUT_LEN is as before (R132). -/
def KeepsOutput (s t : State) : Prop :=
  s.outLen.toNat ≤ t.outLen.toNat ∧ ∀ j, j < s.outLen.toNat → Memory.read t.obuf j = Memory.read s.obuf j

theorem keepsOutput_of_eq {s t : State} (obuf : t.obuf = s.obuf) (outLen : t.outLen = s.outLen) : KeepsOutput s t :=
  ⟨by rw [outLen], fun _ _ => by rw [obuf]⟩

theorem KeepsOutput.trans {s t u : State} (first : KeepsOutput s t) (second : KeepsOutput t u) : KeepsOutput s u :=
  ⟨first.1.trans second.1, fun j hj => (second.2 j (hj.trans_le first.1)).trans (first.2 j hj)⟩

theorem raise_keepsOutput (e : ErrCode) (b : RaisedBy) (s : State) : KeepsOutput s (raise e b s) := by
  cases b <;> exact keepsOutput_of_eq (recordError_obuf e s) (recordError_outLen e s)

/-- Emit appends at OUT_LEN, and OUT_LEN does not wrap: OBUF_CAP bounds it (R82). -/
theorem emitted_keepsOutput {xs : List Byte} {s : State} (room : s.outLen.toNat + xs.length ≤ s.obufCap.toNat) :
    KeepsOutput s (emitted xs s) := by
  refine ⟨(Nat.le_add_right _ _).trans_eq (emit_outLen s xs room).symm, fun j hj => ?_⟩
  exact Memory.read_writeAll_outside s.obuf xs (by omega)

theorem literalCode_keepsOutput (c : Code) (s : State) : KeepsOutput s (literalCode c s) := by
  by_cases isClear : c.toNat = s.clearCode.toNat
  · rw [literalCode_clear isClear]
    exact keepsOutput_of_eq rfl rfl
  by_cases isEnd : c.toNat = s.endCode.toNat
  · rw [literalCode_end isClear isEnd]
    exact keepsOutput_of_eq rfl rfl
  obtain below | above := Nat.lt_or_gt_of_ne isClear
  · obtain full | room := Nat.lt_or_ge s.obufCap.toNat (s.outLen.toNat + 1)
    · rw [literalCode_overflow isEnd below full]
      exact raise_keepsOutput ..
    · rw [literalCode_literal isEnd below room]
      exact emitted_keepsOutput (xs := [c.setWidth 8]) room
  · rw [literalCode_corrupt isEnd above]
    exact raise_keepsOutput ..

theorem emitAndRegister_keepsOutput (c : Code) (out entry : Expansion) (s : State) :
    KeepsOutput s (emitAndRegister c out entry s) := by
  obtain full | room := Nat.lt_or_ge s.obufCap.toNat (s.outLen.toNat + out.indices.length)
  · rw [emitAndRegister_overflow full]
    exact raise_keepsOutput ..
  · rw [emitAndRegister_eq room, register_eq]
    exact emitted_keepsOutput room

theorem normalCode_keepsOutput {c : Code} {s t : State} (h : normalCode c s = .next t) : KeepsOutput s t := by
  unfold normalCode at h
  split at h
  · cases h
    exact keepsOutput_of_eq rfl rfl
  split at h
  · cases h
    exact keepsOutput_of_eq rfl rfl
  split at h
  · split at h <;> cases h
    exact emitAndRegister_keepsOutput ..
  split at h
  · split at h <;> cases h
    exact emitAndRegister_keepsOutput ..
  · cases h
    exact raise_keepsOutput ..

/-- Reading the code leaves OBUF and OUT_LEN, so a step keeps the output when the code it processes does. -/
theorem stepBody_keepsOutput {s t : State} (decoding : s.phase.decoding = true) (h : stepBody s = .next t) :
    KeepsOutput s t := by
  by_cases bits : s.hasBits s.codeWidth.toNat
  · obtain phase | phase := (decoding_iff _).1 decoding
    · rw [stepBody_literal bits phase] at h
      cases h
      exact literalCode_keepsOutput (readCode s) (afterRead s)
    · rw [stepBody_normal bits phase] at h
      exact normalCode_keepsOutput (s := afterRead s) h
  · rw [stepBody_outOfData bits] at h
    cases h
    exact raise_keepsOutput ..

theorem runLoop_keepsOutput {k : Nat} {s t : State} (h : runLoop k s = .next t) : KeepsOutput s t := by
  induction k generalizing s with
  | zero =>
    cases decoding : s.phase.decoding
    · rw [runLoop_stop decoding] at h
      cases h
      exact keepsOutput_of_eq rfl rfl
    · simp [runLoop, decoding] at h
  | succ k ih =>
    cases decoding : s.phase.decoding
    · rw [runLoop_stop decoding] at h
      cases h
      exact keepsOutput_of_eq rfl rfl
    · cases one : stepBody s with
      | next u =>
        rw [runLoop_step decoding one] at h
        exact (stepBody_keepsOutput decoding one).trans (ih h)
      | fault | refused => simp [runLoop, decoding, one] at h

/-- Settles O33: of the other commands only those that decode write OBUF or OUT_LEN, and a decode keeps the output. -/
theorem emittedOutputIsFinal : Obligations.EmittedOutputIsFinal := by
  intro i s t notInit h
  cases exec_cases h with
  | nop | clrErr | dropped | rewind | read | place => exact keepsOutput_of_eq rfl rfl
  | refused => exact raise_keepsOutput ..
  | init m => exact absurd rfl (notInit m)
  | decode i t _ decoding run =>
    obtain ⟨-, one⟩ | ⟨-, run⟩ := run
    · exact stepBody_keepsOutput decoding one
    · exact runLoop_keepsOutput run

end Sys2Proof.Machine
end

section
/-! The reset input (R124 to R126): what a change of it does, what arrives while it is asserted, and the block right after it. -/
namespace Sys2Proof.Machine

/-! ### The reset input -/

/-- A change of the reset input comes before everything else (R124). -/
theorem step_reset {s : State} {level : Bool} {rest : List Input} (h : s.env.inputs = .reset level :: rest) :
    step s = .next (if level then assertReset (setInputs rest s) else releaseReset (setInputs rest s)) :=
  step_move (by simp only [nextAction, h])

/-- An access that arrives while reset is asserted is not served (R124). -/
theorem step_access_inReset {s : State} {a : Access} {rest : List Input} (reset : s.env.resetIn = true)
    (h : s.env.inputs = .access a :: rest) : step s = .next (stall a (setInputs rest s)) :=
  step_move (by simp only [nextAction, h, reset, if_true, whileReset])

/-- Every register but the two capacities has the reset value 0 (R125). -/
theorem regRead_resetWith (ibufCap obufCap : BitVec 25) (env : Env) {r : Reg} (notIbufCap : r ≠ .ibufCapReg)
    (notObufCap : r ≠ .obufCapReg) : regRead (State.resetWith ibufCap obufCap env) r = 0#32 := by
  cases r with
  | ibufCapReg => exact absurd rfl notIbufCap
  | obufCapReg => exact absurd rfl notObufCap
  | status =>
    change 0#21 ++ 0#3 ++ 0#4 ++ 0#2 ++ 0#1 ++ 0#1 = 0#32
    decide
  | lzwCfg =>
    change 0#6 ++ 0#9 ++ 0#9 ++ 0#4 ++ 0#4 = 0#32
    decide
  | _ => rfl

/-- Settles O55: asserting reset leaves the reset values of R125 with the block's own capacities and the accesses that wait. -/
theorem resetGivesEveryRegisterItsResetValue : Obligations.ResetGivesEveryRegisterItsResetValue := fun s rest h =>
  ⟨assertReset (setInputs rest s), step_reset h, rfl, rfl, rfl, rfl, rfl, rfl, fun _ => regRead_resetWith _ _ _⟩

/-- Settles O56: the access stalls, and the release of reset writes the reset input only. -/
theorem nothingIsServedDuringReset : Obligations.NothingIsServedDuringReset := fun _ _ reset =>
  ⟨fun _ => step_access_inReset reset, step_reset⟩

/-! ### Right after reset -/

/-- A capacity is one more than a constant of 24 bits, so it is in the range of R9. -/
theorem capacity_toNat (lessOne : BitVec 24) : (lessOne.setWidth 25 + 1#25).toNat = lessOne.toNat + 1 := by
  have := lessOne.isLt
  rw [BitVec.toNat_add, BitVec.toNat_setWidth, BitVec.toNat_ofNat]
  omega

theorem reset_configured : State.reset.Configured := by
  have ibufCap : State.reset.ibufCap.toNat = Config.ibufCapLessOne.toNat + 1 := capacity_toNat _
  have obufCap : State.reset.obufCap.toNat = Config.obufCapLessOne.toNat + 1 := capacity_toNat _
  have := Config.ibufCapLessOne.isLt
  have := Config.obufCapLessOne.isLt
  constructor <;> omega

/-- Settles O58: the reset values have the invariant for capacities in the range of R9. -/
theorem resetStateHasTheInvariant : Obligations.ResetStateHasTheInvariant := reset_inv _ _ _ reset_configured

/-- No bits are there to read: BUF_LEN = 0. -/
theorem reset_hasBits_iff (n : Nat) : State.reset.hasBits n ↔ n = 0 := by
  change 0 + n ≤ 8 * 0 ↔ n = 0
  omega

/-- Settles O57: with ERR = 0, PHASE = IDLE, no bits to read and an empty frame, each command's own rule says what it does. -/
theorem commandsRightAfterReset : Obligations.CommandsRightAfterReset := by
  have err : State.reset.err = false := rfl
  have outside : State.reset.phase ∉ [.literal, .normal] := by decide
  have decode := fun i hi => stepsOutsideADecodeRaiseSequenceError State.reset i err hi outside
  refine ⟨?_, ?_, decode _ (by decide), decode _ (by decide), exec_ilRow_rangeError err (Nat.le_refl 0),
    exec_ilElem_rangeError err (Nat.le_refl 0), exec_nop _, brRewindSetsTheCursorToTheStart _ err, exec_clrErr _,
    fun m pos le => ⟨_, exec_lzwInit err pos le, rfl, rfl⟩⟩
  · have past : ¬ State.reset.hasBits 1 := by rw [reset_hasBits_iff]; decide
    rw [exec_brReadbit err, readToResult_of_not_hasBits err past]
  · have bits : State.reset.hasBits 0 := (reset_hasBits_iff 0).2 rfl
    exact (exec_brReadbits err (by decide)).trans (congrArg _ (readToResult_of_hasBits bits))

end Sys2Proof.Machine
end
